-- ==== Sys2Proof/Word.lean ====
section
/-! DEFINITION. The two widths the block's registers and buffers are made of: 8-bit bytes (00_scope.md R11) and 32-bit
registers (10_state.md R20). Every value is unsigned (00_scope.md R10). -/

namespace Sys2Proof

/-- A byte of a buffer, "an 8-bit unsigned value" (00_scope.md R11). -/
abbrev Byte := BitVec 8

/-- A 32-bit register, command word or bus value (10_state.md R20). -/
abbrev Word := BitVec 32

end Sys2Proof
end

