-- ==== Sys2Proof/Machine/Bytes.lean ====
section
/-! DEFINITION. Byte strings and buffers: the big-endian forms of 00_scope.md R11, the packing of a buffer's bytes into
32-bit registers (10_state.md R40), and zero-filling (92_eei_decisions.md D17). -/

namespace Sys2Proof.Machine

/-- Byte `i` of a byte string. Every use reads inside the string (42_truncation.md R163); outside it the value is 0. -/
def byteAt (bs : List Byte) (i : Nat) : Byte := bs.getD i 0

/-- `BE_n(v)`: `BE_n(v)[i] = (v >> (8 * (n - 1 - i))) & 0xFF` (00_scope.md R11). -/
def beBytes (n v : Nat) : List Byte :=
  (List.range n).map fun i => BitVec.ofNat 8 (v >>> (8 * (n - 1 - i)))

/-- `fromBE(s)`: the value whose big-endian string is `s` (00_scope.md R11), most significant byte first. -/
def fromBE (bs : List Byte) : Nat := bs.foldl (fun acc b => acc * 256 + b.toNat) 0

/-- The first `n` bytes of `bs`, filled with 0x00 up to `n`. -/
def fitTo : Nat → List Byte → List Byte
  | 0, _ => []
  | n + 1, [] => 0 :: fitTo n []
  | n + 1, b :: bs => b :: fitTo n bs

/-- `fitTo n` answers `n` bytes. -/
theorem length_fitTo (n : Nat) (bs : List Byte) : (fitTo n bs).length = n := by
  induction n generalizing bs with
  | zero => rfl
  | succ n ih => cases bs <;> simp [fitTo, ih]

/-- A buffer of `n` bytes that holds `bs` from its first byte, zero-filled above (92_eei_decisions.md D17). -/
def zeroFill (n : Nat) (bs : List Byte) : Vector Byte n := ⟨⟨fitTo n bs⟩, length_fitTo n bs⟩

/-- Byte `i` of a buffer. -/
def bufByte {n : Nat} (buf : Vector Byte n) (i : Nat) : Byte := byteAt buf.toList i

/-- The four bytes of a word, most significant first (10_state.md R40). -/
def wordBytes (v : Word) : List Byte :=
  [v.extractLsb' 24 8, v.extractLsb' 16 8, v.extractLsb' 8 8, v.extractLsb' 0 8]

/-- `B[4k] << 24 | B[4k+1] << 16 | B[4k+2] << 8 | B[4k+3]` (10_state.md R40): `++` puts its left side in the more
significant position. -/
def packWord (b0 b1 b2 b3 : Byte) : Word := b0 ++ b1 ++ b2 ++ b3

/-- The register that holds bytes `4k` to `4k+3` of a buffer (10_state.md R40). -/
def bufWord {n : Nat} (buf : Vector Byte n) (k : Nat) : Word :=
  packWord (bufByte buf (4 * k)) (bufByte buf (4 * k + 1)) (bufByte buf (4 * k + 2)) (bufByte buf (4 * k + 3))

/-- The buffer after its register `k` is written: "A host write of one register writes the four bytes it holds"
(10_state.md R40). -/
def setBufWord {n : Nat} (buf : Vector Byte n) (k : Nat) (v : Word) : Vector Byte n :=
  zeroFill n (buf.toList.take (4 * k) ++ wordBytes v ++ buf.toList.drop (4 * k + 4))

end Sys2Proof.Machine
end

