-- ==== Sys2Proof/Config.lean ====
section
/-! DEFINITION. What is fixed for the block: the parameters 00_scope.md R6 gives a value, the parameters it leaves OPEN
(`BASE`, `LAT`), and the values 93_implementation_defined.md leaves free (U1, U2). An open or free value is an opaque
constant: no proof can see what it is. -/

namespace Sys2Proof.Config

/-- The register window is 4096 bytes, offsets 0x000 to 0xFFF (00_scope.md R6, 20_memory.md R60). -/
def windowBytes : Nat := 4096

/-- `KEY_MAX`: the key buffer's capacity (00_scope.md R6). -/
def keyMax : Nat := 128

/-- `TEXT_MAX`: the text buffer's capacity (00_scope.md R6). -/
def textMax : Nat := 208

/-- `DIGITS_MIN` (00_scope.md R6). -/
def digitsMin : Nat := 1

/-- `DIGITS_MAX` (00_scope.md R6). -/
def digitsMax : Nat := 9

/-- `BASE`: where the window sits in the host's address space. OPEN (00_scope.md R6, 20_memory.md R74, U4; log 8). -/
opaque base : Nat

/-- The value of a read that the rules leave unspecified: a read of an operand or result register while busy
(10_state.md R49, U1) and any read under reset (70_reset_and_hazards.md R261, U2). The argument is the state's counter
of such reads, so no two reads are known to agree (log 5). -/
opaque freeRead : Nat → Word

/-- `LAT(w, KEYLEN, TEXTLEN, DIGLEN)` less one, for every word but those of `CMP`, `B32ENC` and `B32DEC`. OPEN
(70_reset_and_hazards.md R270, U3; log 9). -/
opaque latencyLessOne : Word → Byte → Byte → Byte → Nat

/-- `LAT(CMP)` less one, "a single value" (43_comparator.md R181, 70_reset_and_hazards.md R270; log 9). -/
opaque cmpLatencyLessOne : Nat

/-- `LAT(B32ENC)` less one, which depends "only on `KEYLEN`" (44_base32.md R205; log 9). -/
opaque b32encLatencyLessOne : Byte → Nat

/-- `LAT(B32DEC)` less one, which depends only on `TEXTLEN` (44_base32.md R205; log 9). -/
opaque b32decLatencyLessOne : Byte → Nat

end Sys2Proof.Config
end

