-- ==== Sys2Proof/Machine/State.lean ====
section
/-! DEFINITION. The state of the block: "exactly: the registers and buffers of the table below, the engine sequencer
state `SEQ`, and the interrupt output `IRQ`, which is a function of the registers" (10_state.md R20), the level of the
reset input (70_reset_and_hazards.md R261), and the model's own host side: the turns still to come, the last bus
response, and the counter of free values. Fields the rules call "not stored" (`ID`, `CMD`, `BUSY`, `ERR`, `IRQ`) are
functions, in Ops.lean and Flags.lean. -/

namespace Sys2Proof.Machine

/-- The engine sequencer state: "either `IDLE` or `BUSY(w)`, where `w` is the accepted command word" (10_state.md R48). -/
inductive Seq where
  | idle
  | busy (w : Word)
  deriving DecidableEq, Repr

/-- The values `STATUS.ERRCODE` takes (60_exceptions.md R230). Codes 10 to 15 are "never written" and have no
constructor (93_implementation_defined.md U11; log 11). -/
inductive ErrCode where
  | ok
  | illegalCmd
  | badAlg
  | badDigits
  | emptyKey
  | keyTooLong
  | badTextLength
  | badChar
  | noncanonical
  | noDigest
  deriving DecidableEq, Repr

/-- The widths a host access can have (20_memory.md R61); only `w32` is legal. -/
inductive AccessWidth where
  | w8
  | w16
  | w32
  | w64
  deriving DecidableEq, Repr

/-- One host bus access, at a host address. The value of a write that is not 32 bits wide never matters (it gets a bus
error, 20_memory.md R61), so a write carries a 32-bit value whatever its width (log 14). -/
inductive HostAccess where
  | read (width : AccessWidth) (addr : Nat)
  | write (width : AccessWidth) (addr : Nat) (value : Word)
  deriving DecidableEq, Repr

/-- One turn of the machine: the host's, the engine's or the platform's. "Which agent steps next is not fixed"
(00_scope.md R8), so the order of turns is data of the state (log 1). -/
inductive Turn where
  /-- the host performs an access (20_memory.md R69) -/
  | access (a : HostAccess)
  /-- the engine may complete its command (60_exceptions.md R236) -/
  | engine
  /-- the platform asserts (`true`) or releases (`false`) the reset input (70_reset_and_hazards.md R261; log 7) -/
  | resetLine (asserted : Bool)
  deriving DecidableEq, Repr

/-- What the block answers on the bus: the value of a read, the end of a write, or "a bus error response" for the
access at this offset (20_memory.md R61 to R63; log 3, log 6). -/
inductive BusReply where
  | data (v : Word)
  | written
  | busError (offset : Nat)
  deriving DecidableEq, Repr

/-- The whole state. Reset values: 70_reset_and_hazards.md R260. -/
structure State where
  /-- `SEQ` (10_state.md R48) -/
  seq : Seq
  /-- `STATUS.DONE` (R26) -/
  done : Bool
  /-- `STATUS.MATCH` (R28) -/
  matched : Bool
  /-- `STATUS.OVERRUN` (R29) -/
  overrun : Bool
  /-- `STATUS.ERRCODE` (R30) -/
  errcode : ErrCode
  /-- `INTEN.DONEIE` (R31) -/
  doneie : Bool
  /-- `INTEN.ERRIE` (R31) -/
  errie : Bool
  /-- `KEYLEN[7:0]` (R32) -/
  keylen : Byte
  /-- `TEXTLEN[7:0]` (R33) -/
  textlen : Byte
  /-- `SUBLEN[7:0]` (R34) -/
  sublen : Byte
  /-- `CODELEN[7:0]` (R35) -/
  codelen : Byte
  /-- `DIGLEN[7:0]` (R36) -/
  diglen : Byte
  /-- `TRUNC[30:0]` (R37) -/
  trunc : BitVec 31
  /-- `CTR_HI` (R38) -/
  ctrHi : Word
  /-- `CTR_LO` (R38) -/
  ctrLo : Word
  /-- `MSG[0..8)` (R39) -/
  msg : Vector Byte 8
  /-- `CODE[0..12)` (R44) -/
  code : Vector Byte 12
  /-- `SUBMIT[0..12)` (R45) -/
  submit : Vector Byte 12
  /-- `DIGEST[0..64)` (R43) -/
  digest : Vector Byte 64
  /-- `KEY[0..128)` (R41) -/
  key : Vector Byte 128
  /-- `TEXT[0..208)` (R42) -/
  text : Vector Byte 208
  /-- the level of the reset input (70_reset_and_hazards.md R261; log 7) -/
  inReset : Bool
  /-- MODEL'S OWN: the turns still to come, the next one first (log 1) -/
  schedule : List Turn
  /-- MODEL'S OWN: the block's last bus response (log 6) -/
  reply : Option BusReply
  /-- MODEL'S OWN: how many free values reads have taken (log 5) -/
  draws : Nat
  deriving DecidableEq, Repr

/-- Why the machine stops. -/
inductive Fault where
  /-- Raised by `hostAccess` (Bus.lean): a turn holds an access at a host address outside the block's window. It is no
  access to the block (20_memory.md R60: the window is its one address space), and the spec gives it no effect. Safe:
  the machine stops where the block would not be addressed at all (log 4). -/
  | outsideWindow (addr : Nat)
  deriving DecidableEq, Repr

/-- Why an instruction has no meaning in the model. -/
inductive Refusal where
  /-- Raised by an arm of `exec` that rejects its instruction by name. No arm does: every command is modelled. Safe. -/
  | notModelled (mnemonic : String)
  deriving DecidableEq, Repr

/-- The machine right after reset: "`SEQ = IDLE`; `ID = 0x4F545001`; every other register and every buffer byte [...] is
0" (70_reset_and_hazards.md R260), with the reset input released and nothing scheduled (log 1, log 5, log 6, log 7). -/
def State.reset : State where
  seq := .idle
  done := false
  matched := false
  overrun := false
  errcode := .ok
  doneie := false
  errie := false
  keylen := 0
  textlen := 0
  sublen := 0
  codelen := 0
  diglen := 0
  trunc := 0
  ctrHi := 0
  ctrLo := 0
  msg := Vector.replicate 8 0
  code := Vector.replicate 12 0
  submit := Vector.replicate 12 0
  digest := Vector.replicate 64 0
  key := Vector.replicate 128 0
  text := Vector.replicate 208 0
  inReset := false
  schedule := []
  reply := none
  draws := 0

end Sys2Proof.Machine
end

