-- ==== Sys2Proof/Machine/Flags.lean ====
section
/-! DEFINITION. The status and interrupt bits: the `STATUS` and `INTEN` registers as words (10_state.md R24, R31), the
bits that are functions of others (R25, R27, R47), and what a host write does to them (R24, R31). -/

namespace Sys2Proof.Machine

/-- The code numbers of 60_exceptions.md R230. -/
def ErrCode.code : ErrCode → BitVec 4
  | .ok => 0
  | .illegalCmd => 1
  | .badAlg => 2
  | .badDigits => 3
  | .emptyKey => 4
  | .keyTooLong => 5
  | .badTextLength => 6
  | .badChar => 7
  | .noncanonical => 8
  | .noDigest => 9

/-- `SEQ = BUSY(_)`. -/
def Seq.isBusy : Seq → Bool
  | .idle => false
  | .busy _ => true

/-- `STATUS.BUSY` "reads 1 exactly when `SEQ = BUSY`" (10_state.md R25). -/
def State.busy (s : State) : Bool := s.seq.isBusy

/-- `STATUS.ERR` "reads `1` if `STATUS.ERRCODE != 0` and `0` otherwise" (10_state.md R27). -/
def State.err (s : State) : Bool := s.errcode.code != 0

/-- The `STATUS` register (10_state.md R24): `ERRCODE` in bits 11:8, `OVERRUN`, `MATCH`, `ERR`, `DONE`, `BUSY` in bits 4
to 0, every other bit 0. -/
def statusWord (s : State) : Word :=
  (0 : BitVec 20) ++ s.errcode.code ++ (0 : BitVec 3) ++ BitVec.ofBool s.overrun ++ BitVec.ofBool s.matched ++
    BitVec.ofBool s.err ++ BitVec.ofBool s.done ++ BitVec.ofBool s.busy

/-- The `INTEN` register (10_state.md R31): `ERRIE` in bit 1, `DONEIE` in bit 0, every other bit 0. -/
def intenWord (s : State) : Word := (0 : BitVec 30) ++ BitVec.ofBool s.errie ++ BitVec.ofBool s.doneie

/-- `IRQ = STATUS.DONE and (INTEN.DONEIE or (INTEN.ERRIE and STATUS.ERRCODE != 0))` (10_state.md R47). -/
def State.irq (s : State) : Bool := s.done && (s.doneie || (s.errie && s.err))

/-- A host write of `v` to `STATUS`: `DONE` and `OVERRUN` are cleared by writing 1, "every other bit of `v` is ignored"
(10_state.md R24). The write of 1 to `DONE` is the acknowledgement, the block's only "return" (60_exceptions.md R243). -/
def writeStatus (v : Word) (s : State) : State :=
  { s with done := s.done && !v.getLsbD 1, overrun := s.overrun && !v.getLsbD 4 }

/-- A host write of `v` to `INTEN`: `DONEIE <- v[0]`, `ERRIE <- v[1]` (10_state.md R31). -/
def writeInten (v : Word) (s : State) : State := { s with doneie := v.getLsbD 0, errie := v.getLsbD 1 }

end Sys2Proof.Machine
end

