-- ==== Sys2Proof/Machine/Ops.lean ====
section
/-! DEFINITION. The operations every command and every access is made of: the register map and the one read and one
write of a register (10_state.md R20 to R46), acceptance (60_exceptions.md R233), the two completions (R234, R236:
what a processor would call taking an exception is `raiseError`; the return from it, R243, is a write to `STATUS`,
`writeStatus` of Flags.lean), and reset (70_reset_and_hazards.md R260, R261). -/

namespace Sys2Proof.Machine

/-- The registers of the window (10_state.md R20); a buffer's registers are numbered from 0. -/
inductive Reg where
  | id
  | cmd
  | status
  | inten
  | keylen
  | textlen
  | sublen
  | codelen
  | diglen
  | trunc
  | ctrHi
  | ctrLo
  | msg (k : Nat)
  | code (k : Nat)
  | submit (k : Nat)
  | digest (k : Nat)
  | key (k : Nat)
  | text (k : Nat)
  | reserved
  deriving DecidableEq, Repr

/-- Which register stands at an offset that is a multiple of 4 (10_state.md R20). Every offset the table does not give a
register is reserved (R46). -/
def regAt (off : Nat) : Reg :=
  if off = 0x000 then .id
  else if off = 0x004 then .cmd
  else if off = 0x008 then .status
  else if off = 0x00C then .inten
  else if off = 0x010 then .keylen
  else if off = 0x014 then .textlen
  else if off = 0x018 then .sublen
  else if off = 0x01C then .codelen
  else if off = 0x020 then .diglen
  else if off = 0x024 then .trunc
  else if off = 0x028 then .ctrHi
  else if off = 0x02C then .ctrLo
  else if 0x030 ≤ off ∧ off ≤ 0x034 then .msg ((off - 0x030) / 4)
  else if 0x040 ≤ off ∧ off ≤ 0x048 then .code ((off - 0x040) / 4)
  else if 0x050 ≤ off ∧ off ≤ 0x058 then .submit ((off - 0x050) / 4)
  else if 0x080 ≤ off ∧ off ≤ 0x0BC then .digest ((off - 0x080) / 4)
  else if 0x100 ≤ off ∧ off ≤ 0x17C then .key ((off - 0x100) / 4)
  else if 0x200 ≤ off ∧ off ≤ 0x2CC then .text ((off - 0x200) / 4)
  else .reserved

/-- The value of `ID`: ASCII "OTP", then revision 1 (10_state.md R22). -/
def idValue : Word := 0x4F545001

/-- The value of a register (10_state.md R22 to R46). Bits a register does not store read 0; `CMD` and reserved offsets
read 0. -/
def readReg (s : State) : Reg → Word
  | .id => idValue
  | .cmd => 0
  | .status => statusWord s
  | .inten => intenWord s
  | .keylen => s.keylen.setWidth 32
  | .textlen => s.textlen.setWidth 32
  | .sublen => s.sublen.setWidth 32
  | .codelen => s.codelen.setWidth 32
  | .diglen => s.diglen.setWidth 32
  | .trunc => s.trunc.setWidth 32
  | .ctrHi => s.ctrHi
  | .ctrLo => s.ctrLo
  | .msg k => bufWord s.msg k
  | .code k => bufWord s.code k
  | .submit k => bufWord s.submit k
  | .digest k => bufWord s.digest k
  | .key k => bufWord s.key k
  | .text k => bufWord s.text k
  | .reserved => 0

/-- "the register <- v, with RAZ/WI bits kept 0" for a RW register; "no effect" for a read-only register and a reserved
offset (20_memory.md R63). `CMD`, `STATUS` and `INTEN` have their own effects and are not written here. -/
def writeReg (r : Reg) (v : Word) (s : State) : State :=
  match r with
  | .keylen => { s with keylen := v.setWidth 8 }
  | .textlen => { s with textlen := v.setWidth 8 }
  | .sublen => { s with sublen := v.setWidth 8 }
  | .ctrHi => { s with ctrHi := v }
  | .ctrLo => { s with ctrLo := v }
  | .msg k => { s with msg := setBufWord s.msg k v }
  | .submit k => { s with submit := setBufWord s.submit k v }
  | .key k => { s with key := setBufWord s.key k v }
  | .text k => { s with text := setBufWord s.text k v }
  | .id | .cmd | .status | .inten | .codelen | .diglen | .trunc | .code _ | .digest _ | .reserved => s

/-- The registers a read while busy still answers with their value (10_state.md R49). -/
def Reg.readableWhileBusy : Reg → Bool
  | .id | .cmd | .status | .inten | .reserved => true
  | .keylen | .textlen | .sublen | .codelen | .diglen | .trunc | .ctrHi | .ctrLo | .msg _ | .code _ | .submit _
  | .digest _ | .key _ | .text _ => false

/-- The registers a write while busy still reaches: `STATUS` and `INTEN` (10_state.md R29). -/
def Reg.writableWhileBusy : Reg → Bool
  | .status | .inten => true
  | .id | .cmd | .reserved | .keylen | .textlen | .sublen | .codelen | .diglen | .trunc | .ctrHi | .ctrLo | .msg _
  | .code _ | .submit _ | .digest _ | .key _ | .text _ => false

/-- The idle branch of acceptance: `SEQ <- BUSY(w); STATUS.BUSY <- 1; STATUS.DONE <- 0; STATUS.ERRCODE <- 0`
(60_exceptions.md R233). The word is not decoded here. -/
def accept (w : Word) (s : State) : State := { s with seq := .busy w, done := false, errcode := .ok }

/-- A refused write: `STATUS.OVERRUN <- 1`, no other effect (10_state.md R29). -/
def setOverrun (s : State) : State := { s with overrun := true }

/-- `submit(w)` (60_exceptions.md R233). -/
def submitCommand (w : Word) (s : State) : State :=
  match s.seq with
  | .idle => accept w s
  | .busy _ => setOverrun s

/-- An error completion, `raise E(code)`: `STATUS.ERRCODE <- code; STATUS.DONE <- 1; STATUS.BUSY <- 0; SEQ <- IDLE`, "and
nothing else" (60_exceptions.md R234). -/
def raiseError (e : ErrCode) (s : State) : State := { s with errcode := e, done := true, seq := .idle }

/-- A successful completion, `complete(writes)`, of the state in which `writes` are applied: `STATUS.ERRCODE <- 0;
STATUS.DONE <- 1; STATUS.BUSY <- 0; SEQ <- IDLE` (60_exceptions.md R236). -/
def complete (written : State) : State := { written with errcode := .ok, done := true, seq := .idle }

/-- The completion of a command: the error of its first failing check, or its writes (60_exceptions.md R234, R236). -/
def finish (s : State) (result : Except ErrCode State) : Host.Outcome State Fault Refusal :=
  match result with
  | .error e => .next (raiseError e s)
  | .ok written => .next (complete written)

/-- The block's registers, buffers and sequencer at their reset values (70_reset_and_hazards.md R260); the reset input,
the schedule, the last bus response and the free-value counter are not the block's and stay. -/
def resetBlock (s : State) : State :=
  { State.reset with inReset := s.inReset, schedule := s.schedule, reply := s.reply, draws := s.draws }

/-- The reset input changes (70_reset_and_hazards.md R261): asserting it puts the block in its reset state and abandons
a running command; releasing it changes nothing else (log 7). -/
def setResetLine (asserted : Bool) (s : State) : State :=
  if asserted then { resetBlock s with inReset := true } else { s with inReset := false }

end Sys2Proof.Machine
end

