-- ==== Sys2Proof/Machine/Bus.lean ====
section
/-! DEFINITION. The host's side: reads and writes of the register window (20_memory.md R60 to R63). -/

namespace Sys2Proof.Machine

/-- The host address of a window offset, `BASE + offset` (20_memory.md R60; log 8). -/
def hostAddress (off : Nat) : Nat := Config.base + off

/-- The window offset a host address names, none outside the window (20_memory.md R60). -/
def windowOffset (addr : Nat) : Option Nat :=
  if Config.base ≤ addr ∧ addr < Config.base + Config.windowBytes then some (addr - Config.base) else none

/-- The host address of an access. -/
def accessAddr : HostAccess → Nat
  | .read _ addr => addr
  | .write _ addr _ => addr

/-- The width of an access. -/
def accessWidth : HostAccess → AccessWidth
  | .read width _ => width
  | .write width _ _ => width

/-- "The only legal access is a 32-bit read or write at an offset that is a multiple of 4" (20_memory.md R61). -/
def legalAccess (width : AccessWidth) (off : Nat) : Bool := width == .w32 && off % 4 == 0

/-- Whether a read of `r` has the register's value: always while idle; while busy only for the registers of 10_state.md
R49; never under reset (70_reset_and_hazards.md R261). -/
def readHasValue (s : State) (r : Reg) : Bool := !s.inReset && (!s.busy || r.readableWhileBusy)

/-- `MemRead(off, 4)` (20_memory.md R62): the register's value, or an unspecified one (10_state.md R49,
70_reset_and_hazards.md R261), which is a free value, the next of the state's counter (log 5). No read changes the
block. -/
def memRead (off : Nat) (s : State) : State :=
  if readHasValue s (regAt off) then { s with reply := some (.data (readReg s (regAt off))) }
  else { s with reply := some (.data (Config.freeRead s.draws)), draws := s.draws + 1 }

/-- `MemWrite(off, 4, v)` (20_memory.md R63). -/
def memWrite (off : Nat) (v : Word) (s : State) : State :=
  if s.busy && !(regAt off).writableWhileBusy then setOverrun s
  else
    match regAt off with
    | .cmd => submitCommand v s
    | .status => writeStatus v s
    | .inten => writeInten v s
    | r => writeReg r v s

/-- A write as the block sees it: one made while reset is asserted "has no effect on the block"
(70_reset_and_hazards.md R261). -/
def busWrite (off : Nat) (v : Word) (s : State) : State :=
  { (if s.inReset then s else memWrite off v s) with reply := some .written }

/-- A host access. Outside the window it is none of the block's (fault, log 4). An access that is not an aligned 32-bit
one gets a bus error and has no effect on the block (20_memory.md R61; log 3); any other is read or written. -/
def hostAccess (a : HostAccess) (s : State) : Host.Outcome State Fault Refusal :=
  match windowOffset (accessAddr a) with
  | none => .fault (.outsideWindow (accessAddr a))
  | some off =>
    if legalAccess (accessWidth a) off then
      match a with
      | .read _ _ => .next (memRead off s)
      | .write _ _ v => .next (busWrite off v s)
    else .next { s with reply := some (.busError off) }

end Sys2Proof.Machine
end

