-- ==== Sys2Proof/Syntax.lean ====
section
/-! DEFINITION. The nine commands of spec/opcode_table.json (30_encoding.md R83), one constructor a row, with the fields
each row uses. -/

namespace Sys2Proof

/-- The `ALG` field of a command word (30_encoding.md R81). `reserved` is `ALG = 3`: a legal encoding that `HMAC` and
`HOTP` complete with `BAD_ALG` (R85). -/
inductive AlgField where
  | sha1
  | sha256
  | sha512
  | reserved
  deriving DecidableEq, Repr

/-- The three hash functions of the block, `H_0`, `H_1`, `H_2` (41_hmac.md R110). -/
inductive HashAlg where
  | sha1
  | sha256
  | sha512
  deriving DecidableEq, Repr

/-- The commands (30_encoding.md R83). `digits` is the field `DIGITS`, "the unsigned value `d = w[15:12]`" (R82). -/
inductive Instr where
  /-- counter to big-endian bytes (40_counter_codec.md R100) -/
  | ctr2b
  /-- big-endian bytes to counter (40_counter_codec.md R102) -/
  | b2ctr
  /-- keyed hash of the message (41_hmac.md R141) -/
  | hmac (alg : AlgField)
  /-- dynamic truncation and decimal code (42_truncation.md R160) -/
  | trunc (digits : Nat)
  /-- counter to code in one command (42_truncation.md R165) -/
  | hotp (alg : AlgField) (digits : Nat)
  /-- compare the submitted code with the code (43_comparator.md R180) -/
  | cmp
  /-- encode the key as base32 text (44_base32.md R192) -/
  | b32enc
  /-- decode base32 text into the key (44_base32.md R201) -/
  | b32dec
  /-- zero every operand and result register (45_clear.md R220) -/
  | clear
  deriving DecidableEq, Repr

end Sys2Proof
end

