-- ==== Sys2Proof/WellFormed.lean ====
section
/-! DEFINITION. The checks an instruction must pass to have an encoding: a `DIGITS` value fits the four bits 15:12 of
the command word (30_encoding.md R80, R82). The `ALG` field is a closed type and needs no check. -/

namespace Sys2Proof

/-- `DIGITS` is a four-bit field (30_encoding.md R80). Values the field can carry and the command rejects (0, 10 to 15)
are well formed: R85 says they "are not illegal encodings". -/
def digitsEncodable (digits : Nat) : Bool := digits < 16

/-- The instruction has an encoding. -/
def Instr.wf : Instr → Bool
  | .ctr2b => true
  | .b2ctr => true
  | .hmac _ => true
  | .trunc d => digitsEncodable d
  | .hotp _ d => digitsEncodable d
  | .cmp => true
  | .b32enc => true
  | .b32dec => true
  | .clear => true

/-- The instruction has an encoding, as a proposition. -/
abbrev Instr.WellFormed (i : Instr) : Prop := i.wf = true

end Sys2Proof
end

