-- ==== Sys2Proof/Decode.lean ====
section
/-! DEFINITION. Command words and commands, both ways (30_encoding.md R80 to R88). The decoder is total on all 32-bit
words and names why a word is illegal; the encoder stands after it. A command reaches the block as the value of one
32-bit write (20_memory.md R72), so a word has no byte layout of its own. -/

namespace Sys2Proof

/-- Field `OP`, bits 7:0 (30_encoding.md R80). -/
def opField (w : Word) : BitVec 8 := w.extractLsb' 0 8

/-- Field `ALG`, bits 9:8 (30_encoding.md R80). -/
def algBits (w : Word) : BitVec 2 := w.extractLsb' 8 2

/-- Field `DIGITS`, bits 15:12 (30_encoding.md R80). -/
def digitsBits (w : Word) : BitVec 4 := w.extractLsb' 12 4

/-- Reserved bits 11:10 (30_encoding.md R80). -/
def reservedLow (w : Word) : BitVec 2 := w.extractLsb' 10 2

/-- Reserved bits 31:16 (30_encoding.md R80). -/
def reservedHigh (w : Word) : BitVec 16 := w.extractLsb' 16 16

/-- The hash selection an `ALG` value names (30_encoding.md R81). -/
def algOfBits (a : BitVec 2) : AlgField :=
  if a = 0 then .sha1 else if a = 1 then .sha256 else if a = 2 then .sha512 else .reserved

/-- The `ALG` value of a hash selection (30_encoding.md R81). -/
def AlgField.bits : AlgField → BitVec 2
  | .sha1 => 0
  | .sha256 => 1
  | .sha512 => 2
  | .reserved => 3

/-- A word's `ALG` selection. -/
def algOf (w : Word) : AlgField := algOfBits (algBits w)

/-- A word's `DIGITS` value, "with no scaling or offset" (30_encoding.md R82). -/
def digitsOf (w : Word) : Nat := (digitsBits w).toNat

/-- One row of the opcode map: its pattern, and the command a matching word is (30_encoding.md R83). -/
structure OpcodeRow where
  mnemonic : String
  pattern : Word
  mask : Word
  command : Word → Instr

/-- "A word `w` selects the row when `(w & mask) = match`" (30_encoding.md R83). -/
def OpcodeRow.selects (r : OpcodeRow) (w : Word) : Bool := w &&& r.mask == r.pattern

/-- The opcode map, row by row (30_encoding.md R83). -/
def opcodeMap : List OpcodeRow :=
  [ { mnemonic := "CTR2B",  pattern := 0x00000001, mask := 0xFFFFFFFF, command := fun _ => .ctr2b },
    { mnemonic := "B2CTR",  pattern := 0x00000002, mask := 0xFFFFFFFF, command := fun _ => .b2ctr },
    { mnemonic := "HMAC",   pattern := 0x00000010, mask := 0xFFFFFCFF, command := fun w => .hmac (algOf w) },
    { mnemonic := "TRUNC",  pattern := 0x00000011, mask := 0xFFFF0FFF, command := fun w => .trunc (digitsOf w) },
    { mnemonic := "HOTP",   pattern := 0x00000012, mask := 0xFFFF0CFF,
      command := fun w => .hotp (algOf w) (digitsOf w) },
    { mnemonic := "CMP",    pattern := 0x00000020, mask := 0xFFFFFFFF, command := fun _ => .cmp },
    { mnemonic := "B32ENC", pattern := 0x00000030, mask := 0xFFFFFFFF, command := fun _ => .b32enc },
    { mnemonic := "B32DEC", pattern := 0x00000031, mask := 0xFFFFFFFF, command := fun _ => .b32dec },
    { mnemonic := "CLEAR",  pattern := 0x00000040, mask := 0xFFFFFFFF, command := fun _ => .clear } ]

/-- Why a word is illegal: the four grounds of 30_encoding.md R84. The names, and the order in which they are looked
for when several hold, are the model's (log 15): the block reports the one code `ILLEGAL_CMD` for all. -/
inductive IllegalWord where
  /-- "an `OP` not in rule R83" -/
  | unknownOp
  /-- "a nonzero reserved bit (11:10 or 31:16)" -/
  | reservedBits
  /-- "a nonzero `ALG` in an operation that does not use it" -/
  | unusedAlg
  /-- "a nonzero `DIGITS` in an operation that does not use it" -/
  | unusedDigits
  deriving DecidableEq, Repr

/-- What a word decodes to: "every 32-bit word is legal or illegal" (30_encoding.md R84). -/
inductive Decoded where
  | legal (i : Instr)
  | illegal (why : IllegalWord)
  deriving DecidableEq, Repr

/-- The `OP` values of 30_encoding.md R83. -/
def knownOps : List (BitVec 8) := [0x01, 0x02, 0x10, 0x11, 0x12, 0x20, 0x30, 0x31, 0x40]

/-- The `OP` values that use `ALG`: `HMAC`, `HOTP` (30_encoding.md R83). -/
def opsUsingAlg : List (BitVec 8) := [0x10, 0x12]

/-- The ground on which a word that selects no row is illegal (30_encoding.md R84). -/
def illegalGround (w : Word) : IllegalWord :=
  if opField w ∉ knownOps then .unknownOp
  else if reservedLow w ≠ 0 ∨ reservedHigh w ≠ 0 then .reservedBits
  else if opField w ∉ opsUsingAlg ∧ algBits w ≠ 0 then .unusedAlg
  else .unusedDigits

/-- Decoding (30_encoding.md R84): the command of the row the word selects, or the ground on which it is illegal. -/
def decode (w : Word) : Decoded :=
  match opcodeMap.find? (·.selects w) with
  | some r => .legal (r.command w)
  | none => .illegal (illegalGround w)

/-- The command of a legal word, and nothing for an illegal one. -/
def Decoded.instr? : Decoded → Option Instr
  | .legal i => some i
  | .illegal _ => none

/-- `OP` in bits 7:0, `ALG` in bits 9:8, `DIGITS` in bits 15:12, every other bit 0 (30_encoding.md R80). -/
def commandWord (op : BitVec 8) (alg : BitVec 2) (digits : Nat) : Word :=
  op.setWidth 32 ||| (alg.setWidth 32 <<< 8) ||| ((BitVec.ofNat 4 digits).setWidth 32 <<< 12)

/-- The word of a command (30_encoding.md R80 to R83). -/
def encode : Instr → Word
  | .ctr2b => commandWord 0x01 0 0
  | .b2ctr => commandWord 0x02 0 0
  | .hmac a => commandWord 0x10 a.bits 0
  | .trunc d => commandWord 0x11 0 d
  | .hotp a d => commandWord 0x12 a.bits d
  | .cmp => commandWord 0x20 0 0
  | .b32enc => commandWord 0x30 0 0
  | .b32dec => commandWord 0x31 0 0
  | .clear => commandWord 0x40 0 0

/-- The 32-bit command word whose low `nbits` bits are those of `w`, every bit above them 0. -/
def tableWord (nbits w : Nat) : Word := BitVec.ofNat 32 (w % 2 ^ nbits)

/-- What the decoder reads from an instruction whose bits are `w`, numbered as spec/opcode_table.json numbers them. -/
def decodeTableWord (nbits w : Nat) : Option Instr := (decode (tableWord nbits w)).instr?

end Sys2Proof
end

