-- ==== Sys2Proof/Machine/Operands.lean ====
section
/-! DEFINITION. The operands of the commands and the checks made on them, in the order 60_exceptions.md R238 gives. A
command has no operand forms but its word's fields: it reads named registers (00_scope.md R12). -/

namespace Sys2Proof.Machine

/-- The counter `CTR = (x[CTR_HI] << 32) | x[CTR_LO]` (10_state.md R38). -/
def State.counter (s : State) : BitVec 64 := s.ctrHi ++ s.ctrLo

/-- The message `MSG[0..8)` (10_state.md R39). -/
def State.message (s : State) : List Byte := s.msg.toList

/-- The secret `KEY[0..KEYLEN)` (10_state.md R41). -/
def State.secret (s : State) : List Byte := s.key.toList.take s.keylen.toNat

/-- The digest `DIGEST[0..DIGLEN)` (10_state.md R43). -/
def State.mac (s : State) : List Byte := s.digest.toList.take s.diglen.toNat

/-- The base32 text `TEXT[0..TEXTLEN)` (10_state.md R42). -/
def State.chars (s : State) : List Byte := s.text.toList.take s.textlen.toNat

/-- The hash function an `ALG` field selects, none for the reserved value 3 (30_encoding.md R81). -/
def hashOf : AlgField → Option HashAlg
  | .sha1 => some .sha1
  | .sha256 => some .sha256
  | .sha512 => some .sha512
  | .reserved => none

/-- `if w[9:8] = 3: raise BAD_ALG(2)` (41_hmac.md R140, 42_truncation.md R165). -/
def checkAlg (a : AlgField) : Except ErrCode HashAlg :=
  match hashOf a with
  | some h => .ok h
  | none => .error .badAlg

/-- `if d < 1 or d > 9: raise BAD_DIGITS(3)` (42_truncation.md R160, R161). -/
def checkDigits (d : Nat) : Except ErrCode Unit :=
  if d < Config.digitsMin ∨ d > Config.digitsMax then .error .badDigits else .ok ()

/-- `if x[KEYLEN] = 0: raise EMPTY_KEY(4); if x[KEYLEN] > 128: raise KEY_TOO_LONG(5)` (41_hmac.md R140, 44_base32.md
R192). -/
def checkKey (s : State) : Except ErrCode Unit :=
  if s.keylen.toNat = 0 then .error .emptyKey
  else if s.keylen.toNat > Config.keyMax then .error .keyTooLong
  else .ok ()

/-- `if DL not in {20, 32, 64}: raise NO_DIGEST(9)` (42_truncation.md R160). -/
def checkDigest (s : State) : Except ErrCode Unit :=
  if s.diglen.toNat ∈ [20, 32, 64] then .ok () else .error .noDigest

/-- The number of bytes `c` base32 characters decode to, `(5 * c) div 8` (44_base32.md R200). -/
def decodedLength (c : Nat) : Nat := 5 * c / 8

/-- The checks on the text length (44_base32.md R200). -/
def checkTextLength (s : State) : Except ErrCode Unit :=
  if s.textlen.toNat = 0 ∨ s.textlen.toNat > Config.textMax then .error .badTextLength
  else if s.textlen.toNat % 8 ∈ [1, 3, 6] then .error .badTextLength
  else if decodedLength s.textlen.toNat > Config.keyMax then .error .badTextLength
  else .ok ()

end Sys2Proof.Machine
end

