-- ==== Sys2Proof/Machine/Base32.lean ====
section
/-! DEFINITION. Base32: `B32ENC` and `B32DEC` (44_base32.md R190 to R205). -/

namespace Sys2Proof.Machine

/-- `ASCII(ALPHA[v])`: `A` to `Z` for 0 to 25, `2` to `7` for 26 to 31 (44_base32.md R190). -/
def alpha (v : Nat) : Byte := if v < 26 then BitVec.ofNat 8 (0x41 + v) else BitVec.ofNat 8 (0x32 + (v - 26))

/-- `val(b)`: the 5-bit value of a text byte, none for an invalid one (44_base32.md R196). -/
def charValue (b : Byte) : Option Nat :=
  if 0x41 ≤ b.toNat ∧ b.toNat ≤ 0x5A then some (b.toNat - 0x41)
  else if 0x61 ≤ b.toNat ∧ b.toNat ≤ 0x7A then some (b.toNat - 0x61)
  else if 0x32 ≤ b.toNat ∧ b.toNat ≤ 0x37 then some (b.toNat - 0x32 + 26)
  else none

/-- `c = ceil(8 * n / 5)`, the number of characters of `n` bytes (44_base32.md R192, R193). -/
def encodedLength (n : Nat) : Nat := (8 * n + 4) / 5

/-- `r = 5 * c - 8 * n`, the bits of the characters beyond those of the bytes (44_base32.md R192, R201). -/
def leftoverBits (c n : Nat) : Nat := 5 * c - 8 * n

/-- The characters of the `n`-byte string `key`: 5-bit groups of `fromBE(key) << r` from the front (44_base32.md R191,
R192). -/
def base32Encode (key : List Byte) : List Byte :=
  let c := encodedLength key.length
  let acc := fromBE key <<< leftoverBits c key.length
  (List.range c).map fun i => alpha ((acc >>> (5 * (c - 1 - i))) &&& 0x1F)

/-- `B32ENC`: encode the key as base32 text (44_base32.md R192). -/
def execB32enc (s : State) : Host.Outcome State Fault Refusal :=
  finish s do
    checkKey s
    return { s with
      text := zeroFill 208 (base32Encode s.secret)
      textlen := BitVec.ofNat 8 (encodedLength s.keylen.toNat) }

/-- One character of the decoding loop: `if v is invalid: bad = true; v = 0` and `acc = (acc << 5) | v` (44_base32.md
R201). -/
def decodeStep (st : Bool × Nat) (b : Byte) : Bool × Nat :=
  match charValue b with
  | some v => (st.1, (st.2 <<< 5) ||| v)
  | none => (true, (st.2 <<< 5) ||| 0)

/-- `(bad, acc)` after every character, "no early exit" (44_base32.md R201, R205). -/
def decodeChars (chars : List Byte) : Bool × Nat := chars.foldl decodeStep (false, 0)

/-- The bytes a text decodes to, or `BAD_CHAR` or `NONCANONICAL`, in that order (44_base32.md R201, R202). -/
def base32Decode (chars : List Byte) : Except ErrCode (List Byte) :=
  let n := decodedLength chars.length
  let r := leftoverBits chars.length n
  let (bad, acc) := decodeChars chars
  if bad then .error .badChar
  else if acc &&& (2 ^ r - 1) ≠ 0 then .error .noncanonical
  else .ok (beBytes n (acc >>> r))

/-- `B32DEC`: decode base32 text into the key (44_base32.md R201), after the length checks of R200. -/
def execB32dec (s : State) : Host.Outcome State Fault Refusal :=
  finish s do
    checkTextLength s
    let bytes ← base32Decode s.chars
    return { s with
      key := zeroFill 128 bytes
      keylen := BitVec.ofNat 8 (decodedLength s.textlen.toNat) }

end Sys2Proof.Machine
end

