-- ==== Sys2Proof/Machine/Clear.lean ====
section
/-! DEFINITION. The clear command: `CLEAR` (45_clear.md R220, R221). -/

namespace Sys2Proof.Machine

/-- The writes of `CLEAR`: every operand and result register to 0 and `STATUS.MATCH <- 0`; `INTEN` and `STATUS.OVERRUN`
are not among them (45_clear.md R220). -/
def clearRegisters (s : State) : State :=
  { s with
    key := Vector.replicate 128 0, keylen := 0
    text := Vector.replicate 208 0, textlen := 0
    submit := Vector.replicate 12 0, sublen := 0
    code := Vector.replicate 12 0, codelen := 0
    digest := Vector.replicate 64 0, diglen := 0
    trunc := 0, ctrHi := 0, ctrLo := 0, msg := Vector.replicate 8 0
    matched := false }

/-- `CLEAR`: zero every operand and result register (45_clear.md R220). -/
def execClear (s : State) : Host.Outcome State Fault Refusal := finish s (.ok (clearRegisters s))

end Sys2Proof.Machine
end

