-- ==== Sys2Proof/Machine/Codec.lean ====
section
/-! DEFINITION. The counter codec: `CTR2B` and `B2CTR` (40_counter_codec.md R100 to R104). -/

namespace Sys2Proof.Machine

/-- `MSG[0..8) <- BE_8(c)` (40_counter_codec.md R100). -/
def writeMessage (c : BitVec 64) (s : State) : State := { s with msg := zeroFill 8 (beBytes 8 c.toNat) }

/-- `x[CTR_HI] <- c[63:32], x[CTR_LO] <- c[31:0]` (40_counter_codec.md R102). -/
def writeCounter (c : BitVec 64) (s : State) : State :=
  { s with ctrHi := c.extractLsb' 32 32, ctrLo := c.extractLsb' 0 32 }

/-- `CTR2B`: counter to big-endian bytes (40_counter_codec.md R100). -/
def execCtr2b (s : State) : Host.Outcome State Fault Refusal := finish s (.ok (writeMessage s.counter s))

/-- `B2CTR`: big-endian bytes to counter (40_counter_codec.md R102). -/
def execB2ctr (s : State) : Host.Outcome State Fault Refusal :=
  finish s (.ok (writeCounter (BitVec.ofNat 64 (fromBE s.message)) s))

end Sys2Proof.Machine
end

