-- ==== Sys2Proof/Machine/Comparator.lean ====
section
/-! DEFINITION. The constant-time comparator: `CMP` (43_comparator.md R180 to R184). -/

namespace Sys2Proof.Machine

/-- `mask = 0xFF if i < n else 0x00` (43_comparator.md R180). -/
def cmpMask (n i : Nat) : Byte := if i < n then 0xFF else 0x00

/-- One position of the comparison: `diff = diff | ((SUBMIT[i] ^ CODE[i]) & mask)` (43_comparator.md R180). -/
def cmpStep (s : State) (diff : Byte) (i : Nat) : Byte :=
  diff ||| ((bufByte s.submit i ^^^ bufByte s.code i) &&& cmpMask s.codelen.toNat i)

/-- The accumulator after all twelve positions, "every position, no early exit" (43_comparator.md R180, R181). -/
def cmpDiff (s : State) : Byte := (List.range 12).foldl (cmpStep s) 0

/-- `ok = (1 <= n <= 9) and (s = n) and (diff = 0)` (43_comparator.md R180). -/
def codeMatches (s : State) : Bool :=
  decide (Config.digitsMin ≤ s.codelen.toNat) && decide (s.codelen.toNat ≤ Config.digitsMax) &&
    s.sublen == s.codelen && cmpDiff s == 0

/-- `CMP`: compare the submitted code with the code (43_comparator.md R180). It has no error (R183). -/
def execCmp (s : State) : Host.Outcome State Fault Refusal := finish s (.ok { s with matched := codeMatches s })

end Sys2Proof.Machine
end

