-- ==== Sys2Proof/Machine/Hash.lean ====
section
/-! DEFINITION. SHA-1, SHA-256 and SHA-512 as 41_hmac.md R110 to R125 write them out (log 10). Addition on words is
modulo the width (00_scope.md R13), which is what `+` is on bit vectors. -/

namespace Sys2Proof.Machine

/-! ## Common definitions (41_hmac.md R110 to R114) -/

/-- `Ch(x, y, z) = (x & y) ^ (~x & z)` (41_hmac.md R114). -/
def shaCh {n : Nat} (x y z : BitVec n) : BitVec n := (x &&& y) ^^^ (~~~x &&& z)

/-- `Parity(x, y, z) = x ^ y ^ z` (41_hmac.md R114). -/
def shaParity {n : Nat} (x y z : BitVec n) : BitVec n := x ^^^ y ^^^ z

/-- `Maj(x, y, z) = (x & y) ^ (x & z) ^ (y & z)` (41_hmac.md R114). -/
def shaMaj {n : Nat} (x y z : BitVec n) : BitVec n := (x &&& y) ^^^ (x &&& z) ^^^ (y &&& z)

/-- The least `k` with `L + 1 + k` congruent to `block - lenBytes` modulo `block`: how many 0x00 bytes the padding of an
`L`-byte message holds (41_hmac.md R111: 56 modulo 64, R112: 112 modulo 128). -/
def padZeros (block lenBytes L : Nat) : Nat := (2 * block - lenBytes - 1 - L % block) % block

/-- `M || 0x80 || Z || BE(8 * L)`: the padded message for blocks of `block` bytes and a length field of `lenBytes` bytes
(41_hmac.md R111, R112). -/
def padMessage (block lenBytes : Nat) (m : List Byte) : List Byte :=
  m ++ [0x80] ++ List.replicate (padZeros block lenBytes m.length) 0 ++ beBytes lenBytes (8 * m.length)

/-- The pieces of `size` bytes, in order: `bs` is cut from the front. -/
def splitBytes (size : Nat) (bs : List Byte) : List (List Byte) :=
  (List.range (bs.length / size)).map fun i => (bs.drop (i * size)).take size

/-- The sixteen words of a block, "read big-endian" (41_hmac.md R110, R111, R112). -/
def blockWords (n : Nat) (block : List Byte) : List (BitVec n) :=
  (splitBytes (n / 8) block).map fun b => BitVec.ofNat n (fromBE b)

/-- `W[t-j]`, for a schedule held newest word first: `ws` is `W[t-1], W[t-2], ...`. -/
def wordBack {n : Nat} (ws : List (BitVec n)) (j : Nat) : BitVec n := ws.getD (j - 1) 0

/-- A schedule, newest word first, longer by `count` words: each is `next` of the words before it. -/
def extendSchedule {n : Nat} (next : List (BitVec n) → BitVec n) : Nat → List (BitVec n) → List (BitVec n)
  | 0, ws => ws
  | count + 1, ws => extendSchedule next count (next ws :: ws)

/-- The whole schedule `W[0], W[1], ...` of a block: its sixteen words, then `count` more. -/
def hashSchedule {n : Nat} (next : List (BitVec n) → BitVec n) (count : Nat) (words : List (BitVec n)) :
    List (BitVec n) :=
  (extendSchedule next count words.reverse).reverse

/-! ## SHA-1 (41_hmac.md R115 to R117) -/

/-- The five words `a` to `e`, and the hash value `H0` to `H4`. -/
structure Sha1Words where
  a : Word
  b : Word
  c : Word
  d : Word
  e : Word
  deriving DecidableEq, Repr

/-- The initial hash value (41_hmac.md R115). -/
def sha1Initial : Sha1Words :=
  { a := 0x67452301, b := 0xEFCDAB89, c := 0x98BADCFE, d := 0x10325476, e := 0xC3D2E1F0 }

/-- `K_t` (41_hmac.md R116). -/
def sha1K (t : Nat) : Word :=
  if t < 20 then 0x5A827999 else if t < 40 then 0x6ED9EBA1 else if t < 60 then 0x8F1BBCDC else 0xCA62C1D6

/-- `f_t(b, c, d)` (41_hmac.md R116). -/
def sha1F (t : Nat) (b c d : Word) : Word :=
  if t < 20 then shaCh b c d
  else if t < 40 then shaParity b c d
  else if t < 60 then shaMaj b c d
  else shaParity b c d

/-- `W[t] = ROTL_32(W[t-3] ^ W[t-8] ^ W[t-14] ^ W[t-16], 1)` (41_hmac.md R117). -/
def sha1NextWord (ws : List Word) : Word :=
  (wordBack ws 3 ^^^ wordBack ws 8 ^^^ wordBack ws 14 ^^^ wordBack ws 16).rotateLeft 1

/-- Round `t` with schedule word `W[t]` (41_hmac.md R117). -/
def sha1Round (v : Sha1Words) (t : Nat) (w : Word) : Sha1Words :=
  { a := v.a.rotateLeft 5 + sha1F t v.b v.c v.d + v.e + sha1K t + w
    b := v.a
    c := v.b.rotateLeft 30
    d := v.c
    e := v.d }

/-- The rounds from `t` on, one for each word of the schedule that is left (41_hmac.md R117). -/
def sha1Rounds : Nat → List Word → Sha1Words → Sha1Words
  | _, [], v => v
  | t, w :: ws, v => sha1Rounds (t + 1) ws (sha1Round v t w)

/-- The processing of one 64-byte block (41_hmac.md R117). -/
def sha1Block (h : Sha1Words) (block : List Byte) : Sha1Words :=
  let v := sha1Rounds 0 (hashSchedule sha1NextWord 64 (blockWords 32 block)) h
  { a := h.a + v.a, b := h.b + v.b, c := h.c + v.c, d := h.d + v.d, e := h.e + v.e }

/-- The 20 bytes of the final hash value (41_hmac.md R117). -/
def sha1Digest (h : Sha1Words) : List Byte :=
  beBytes 4 h.a.toNat ++ beBytes 4 h.b.toNat ++ beBytes 4 h.c.toNat ++ beBytes 4 h.d.toNat ++ beBytes 4 h.e.toNat

/-- SHA-1 of a byte string (41_hmac.md R111, R115 to R117). -/
def sha1 (m : List Byte) : List Byte :=
  sha1Digest ((splitBytes 64 (padMessage 64 8 m)).foldl sha1Block sha1Initial)

/-! ## SHA-256 and SHA-512 (41_hmac.md R118 to R125) -/

/-- The eight words `a` to `h`, and the hash value `H0` to `H7`. -/
structure Sha2Words (n : Nat) where
  a : BitVec n
  b : BitVec n
  c : BitVec n
  d : BitVec n
  e : BitVec n
  f : BitVec n
  g : BitVec n
  h : BitVec n
  deriving DecidableEq, Repr

/-- What differs between SHA-256 and SHA-512: the word functions, the constants and the initial hash value (41_hmac.md
R125). The number of rounds is the number of constants. -/
structure Sha2Params (n : Nat) where
  bigS0 : BitVec n → BitVec n
  bigS1 : BitVec n → BitVec n
  smallS0 : BitVec n → BitVec n
  smallS1 : BitVec n → BitVec n
  constants : List (BitVec n)
  initial : Sha2Words n

/-- `W[t] = s1(W[t-2]) + W[t-7] + s0(W[t-15]) + W[t-16]` (41_hmac.md R121). -/
def sha2NextWord {n : Nat} (p : Sha2Params n) (ws : List (BitVec n)) : BitVec n :=
  p.smallS1 (wordBack ws 2) + wordBack ws 7 + p.smallS0 (wordBack ws 15) + wordBack ws 16

/-- `T1 = h + S1(e) + Ch(e, f, g) + K[t] + W[t]` (41_hmac.md R121). -/
def sha2T1 {n : Nat} (p : Sha2Params n) (v : Sha2Words n) (k w : BitVec n) : BitVec n :=
  v.h + p.bigS1 v.e + shaCh v.e v.f v.g + k + w

/-- `T2 = S0(a) + Maj(a, b, c)` (41_hmac.md R121). -/
def sha2T2 {n : Nat} (p : Sha2Params n) (v : Sha2Words n) : BitVec n := p.bigS0 v.a + shaMaj v.a v.b v.c

/-- A round with constant `K[t]` and schedule word `W[t]` (41_hmac.md R121). -/
def sha2Round {n : Nat} (p : Sha2Params n) (v : Sha2Words n) (k w : BitVec n) : Sha2Words n :=
  { a := sha2T1 p v k w + sha2T2 p v
    b := v.a
    c := v.b
    d := v.c
    e := v.d + sha2T1 p v k w
    f := v.e
    g := v.f
    h := v.g }

/-- The rounds, one for each constant and schedule word that is left (41_hmac.md R121). -/
def sha2Rounds {n : Nat} (p : Sha2Params n) : List (BitVec n) → List (BitVec n) → Sha2Words n → Sha2Words n
  | k :: ks, w :: ws, v => sha2Rounds p ks ws (sha2Round p v k w)
  | [], _, v => v
  | _ :: _, [], v => v

/-- The processing of one block (41_hmac.md R121, R125): as many rounds, and as long a schedule, as there are
constants. -/
def sha2Block {n : Nat} (p : Sha2Params n) (h : Sha2Words n) (block : List Byte) : Sha2Words n :=
  let ws := hashSchedule (sha2NextWord p) (p.constants.length - 16) (blockWords n block)
  let v := sha2Rounds p p.constants ws h
  { a := h.a + v.a, b := h.b + v.b, c := h.c + v.c, d := h.d + v.d
    e := h.e + v.e, f := h.f + v.f, g := h.g + v.g, h := h.h + v.h }

/-- The bytes of the final hash value: `BE_4` or `BE_8` of `H0` to `H7` (41_hmac.md R121, R125). -/
def sha2Digest {n : Nat} (h : Sha2Words n) : List Byte :=
  beBytes (n / 8) h.a.toNat ++ beBytes (n / 8) h.b.toNat ++ beBytes (n / 8) h.c.toNat ++ beBytes (n / 8) h.d.toNat ++
    beBytes (n / 8) h.e.toNat ++ beBytes (n / 8) h.f.toNat ++ beBytes (n / 8) h.g.toNat ++ beBytes (n / 8) h.h.toNat

/-- The round constants `K[0]` to `K[63]` of SHA-256 (41_hmac.md R120). -/
def sha256K : List Word :=
  [0x428A2F98, 0x71374491, 0xB5C0FBCF, 0xE9B5DBA5, 0x3956C25B, 0x59F111F1, 0x923F82A4, 0xAB1C5ED5] ++
  [0xD807AA98, 0x12835B01, 0x243185BE, 0x550C7DC3, 0x72BE5D74, 0x80DEB1FE, 0x9BDC06A7, 0xC19BF174] ++
  [0xE49B69C1, 0xEFBE4786, 0x0FC19DC6, 0x240CA1CC, 0x2DE92C6F, 0x4A7484AA, 0x5CB0A9DC, 0x76F988DA] ++
  [0x983E5152, 0xA831C66D, 0xB00327C8, 0xBF597FC7, 0xC6E00BF3, 0xD5A79147, 0x06CA6351, 0x14292967] ++
  [0x27B70A85, 0x2E1B2138, 0x4D2C6DFC, 0x53380D13, 0x650A7354, 0x766A0ABB, 0x81C2C92E, 0x92722C85] ++
  [0xA2BFE8A1, 0xA81A664B, 0xC24B8B70, 0xC76C51A3, 0xD192E819, 0xD6990624, 0xF40E3585, 0x106AA070] ++
  [0x19A4C116, 0x1E376C08, 0x2748774C, 0x34B0BCB5, 0x391C0CB3, 0x4ED8AA4A, 0x5B9CCA4F, 0x682E6FF3] ++
  [0x748F82EE, 0x78A5636F, 0x84C87814, 0x8CC70208, 0x90BEFFFA, 0xA4506CEB, 0xBEF9A3F7, 0xC67178F2]

/-- SHA-256's word functions, constants and initial hash value (41_hmac.md R118 to R120). -/
def sha256Params : Sha2Params 32 where
  bigS0 x := x.rotateRight 2 ^^^ x.rotateRight 13 ^^^ x.rotateRight 22
  bigS1 x := x.rotateRight 6 ^^^ x.rotateRight 11 ^^^ x.rotateRight 25
  smallS0 x := x.rotateRight 7 ^^^ x.rotateRight 18 ^^^ (x >>> 3)
  smallS1 x := x.rotateRight 17 ^^^ x.rotateRight 19 ^^^ (x >>> 10)
  constants := sha256K
  initial :=
    { a := 0x6A09E667, b := 0xBB67AE85, c := 0x3C6EF372, d := 0xA54FF53A
      e := 0x510E527F, f := 0x9B05688C, g := 0x1F83D9AB, h := 0x5BE0CD19 }

/-- SHA-256 of a byte string (41_hmac.md R111, R118 to R121). -/
def sha256 (m : List Byte) : List Byte :=
  sha2Digest ((splitBytes 64 (padMessage 64 8 m)).foldl (sha2Block sha256Params) sha256Params.initial)

/-- The round constants `K[0]` to `K[79]` of SHA-512 (41_hmac.md R124). -/
def sha512K : List (BitVec 64) :=
  [0x428A2F98D728AE22, 0x7137449123EF65CD, 0xB5C0FBCFEC4D3B2F, 0xE9B5DBA58189DBBC] ++
  [0x3956C25BF348B538, 0x59F111F1B605D019, 0x923F82A4AF194F9B, 0xAB1C5ED5DA6D8118] ++
  [0xD807AA98A3030242, 0x12835B0145706FBE, 0x243185BE4EE4B28C, 0x550C7DC3D5FFB4E2] ++
  [0x72BE5D74F27B896F, 0x80DEB1FE3B1696B1, 0x9BDC06A725C71235, 0xC19BF174CF692694] ++
  [0xE49B69C19EF14AD2, 0xEFBE4786384F25E3, 0x0FC19DC68B8CD5B5, 0x240CA1CC77AC9C65] ++
  [0x2DE92C6F592B0275, 0x4A7484AA6EA6E483, 0x5CB0A9DCBD41FBD4, 0x76F988DA831153B5] ++
  [0x983E5152EE66DFAB, 0xA831C66D2DB43210, 0xB00327C898FB213F, 0xBF597FC7BEEF0EE4] ++
  [0xC6E00BF33DA88FC2, 0xD5A79147930AA725, 0x06CA6351E003826F, 0x142929670A0E6E70] ++
  [0x27B70A8546D22FFC, 0x2E1B21385C26C926, 0x4D2C6DFC5AC42AED, 0x53380D139D95B3DF] ++
  [0x650A73548BAF63DE, 0x766A0ABB3C77B2A8, 0x81C2C92E47EDAEE6, 0x92722C851482353B] ++
  [0xA2BFE8A14CF10364, 0xA81A664BBC423001, 0xC24B8B70D0F89791, 0xC76C51A30654BE30] ++
  [0xD192E819D6EF5218, 0xD69906245565A910, 0xF40E35855771202A, 0x106AA07032BBD1B8] ++
  [0x19A4C116B8D2D0C8, 0x1E376C085141AB53, 0x2748774CDF8EEB99, 0x34B0BCB5E19B48A8] ++
  [0x391C0CB3C5C95A63, 0x4ED8AA4AE3418ACB, 0x5B9CCA4F7763E373, 0x682E6FF3D6B2B8A3] ++
  [0x748F82EE5DEFB2FC, 0x78A5636F43172F60, 0x84C87814A1F0AB72, 0x8CC702081A6439EC] ++
  [0x90BEFFFA23631E28, 0xA4506CEBDE82BDE9, 0xBEF9A3F7B2C67915, 0xC67178F2E372532B] ++
  [0xCA273ECEEA26619C, 0xD186B8C721C0C207, 0xEADA7DD6CDE0EB1E, 0xF57D4F7FEE6ED178] ++
  [0x06F067AA72176FBA, 0x0A637DC5A2C898A6, 0x113F9804BEF90DAE, 0x1B710B35131C471B] ++
  [0x28DB77F523047D84, 0x32CAAB7B40C72493, 0x3C9EBE0A15C9BEBC, 0x431D67C49C100D4C] ++
  [0x4CC5D4BECB3E42B6, 0x597F299CFC657E2A, 0x5FCB6FAB3AD6FAEC, 0x6C44198C4A475817]

/-- SHA-512's word functions, constants and initial hash value (41_hmac.md R122 to R124). -/
def sha512Params : Sha2Params 64 where
  bigS0 x := x.rotateRight 28 ^^^ x.rotateRight 34 ^^^ x.rotateRight 39
  bigS1 x := x.rotateRight 14 ^^^ x.rotateRight 18 ^^^ x.rotateRight 41
  smallS0 x := x.rotateRight 1 ^^^ x.rotateRight 8 ^^^ (x >>> 7)
  smallS1 x := x.rotateRight 19 ^^^ x.rotateRight 61 ^^^ (x >>> 6)
  constants := sha512K
  initial :=
    { a := 0x6A09E667F3BCC908, b := 0xBB67AE8584CAA73B, c := 0x3C6EF372FE94F82B, d := 0xA54FF53A5F1D36F1
      e := 0x510E527FADE682D1, f := 0x9B05688C2B3E6C1F, g := 0x1F83D9ABFB41BD6B, h := 0x5BE0CD19137E2179 }

/-- SHA-512 of a byte string (41_hmac.md R112, R122 to R125). -/
def sha512 (m : List Byte) : List Byte :=
  sha2Digest ((splitBytes 128 (padMessage 128 16 m)).foldl (sha2Block sha512Params) sha512Params.initial)

/-! ## The three hash functions by selection (41_hmac.md R110) -/

/-- `H_0`, `H_1`, `H_2` (41_hmac.md R110). -/
def hash : HashAlg → List Byte → List Byte
  | .sha1 => sha1
  | .sha256 => sha256
  | .sha512 => sha512

/-- `DL`, the digest length in bytes (30_encoding.md R81). -/
def digestLength : HashAlg → Nat
  | .sha1 => 20
  | .sha256 => 32
  | .sha512 => 64

/-- `BL`, the block length in bytes (30_encoding.md R81). -/
def blockLength : HashAlg → Nat
  | .sha1 => 64
  | .sha256 => 64
  | .sha512 => 128

end Sys2Proof.Machine
end

