-- ==== Sys2Proof/Machine/Hmac.lean ====
section
/-! DEFINITION. HMAC (41_hmac.md R130, R131) and the command `HMAC` (R140, R141). -/

namespace Sys2Proof.Machine

/-- `K0`: the key, hashed first when it is longer than a block, then filled with 0x00 to the block length (41_hmac.md
R130). -/
def hmacKey (h : HashAlg) (key : List Byte) : List Byte :=
  if key.length > blockLength h then fitTo (blockLength h) (hash h key) else fitTo (blockLength h) key

/-- `HMAC(H, K, m) = H( (K0 ^ opad) || H( (K0 ^ ipad) || m ) )` (41_hmac.md R130). -/
def hmac (h : HashAlg) (key m : List Byte) : List Byte :=
  hash h ((hmacKey h key).map (· ^^^ 0x5C) ++ hash h ((hmacKey h key).map (· ^^^ 0x36) ++ m))

/-- `DIGEST[0..DL) <- mac, DIGEST[DL..64) <- 0x00, x[DIGLEN] <- DL` (41_hmac.md R141). -/
def writeDigest (h : HashAlg) (mac : List Byte) (s : State) : State :=
  { s with digest := zeroFill 64 mac, diglen := BitVec.ofNat 8 (digestLength h) }

/-- `HMAC`: keyed hash of the message (41_hmac.md R141), after the checks of R140. -/
def execHmac (a : AlgField) (s : State) : Host.Outcome State Fault Refusal :=
  finish s do
    let h ← checkAlg a
    checkKey s
    return writeDigest h (hmac h s.secret s.message) s

end Sys2Proof.Machine
end

