-- ==== Sys2Proof/Machine/Truncation.lean ====
section
/-! DEFINITION. Dynamic truncation and the decimal code: `TRUNC` and `HOTP` (42_truncation.md R160 to R167). -/

namespace Sys2Proof.Machine

/-- `off = DIGEST[DL - 1] & 0x0F` (42_truncation.md R160): the low four bits of the last byte of the mac. -/
def truncOffset (mac : List Byte) : Nat := (byteAt mac (mac.length - 1) &&& 0x0F).toNat

/-- `t = ((mac[off] & 0x7F) << 24) | (mac[off+1] << 16) | (mac[off+2] << 8) | mac[off+3]`, a 31-bit value
(42_truncation.md R160, R162). -/
def truncate (mac : List Byte) : BitVec 31 :=
  let off := truncOffset mac
  (packWord (byteAt mac off &&& 0x7F) (byteAt mac (off + 1)) (byteAt mac (off + 2)) (byteAt mac (off + 3))).setWidth 31

/-- Digit `i` of the `d`-digit code of `t`: `ASCII('0') + ((v div 10^(d-1-i)) mod 10)` with `v = t mod 10^d`
(42_truncation.md R160, 00_scope.md R14). -/
def codeDigit (t : BitVec 31) (d i : Nat) : Byte := BitVec.ofNat 8 (0x30 + t.toNat % 10 ^ d / 10 ^ (d - 1 - i) % 10)

/-- The buffer `CODE` for `t` and `d`: `d` digits, most significant first, then 0x00 (42_truncation.md R160). -/
def renderCode (t : BitVec 31) (d : Nat) : Vector Byte 12 := zeroFill 12 ((List.range d).map (codeDigit t d))

/-- `x[TRUNC] <- t`, the code into `CODE`, `x[CODELEN] <- d` (42_truncation.md R160). -/
def writeCode (t : BitVec 31) (d : Nat) (s : State) : State :=
  { s with trunc := t, code := renderCode t d, codelen := BitVec.ofNat 8 d }

/-- `TRUNC`: dynamic truncation and decimal code (42_truncation.md R160). -/
def execTrunc (d : Nat) (s : State) : Host.Outcome State Fault Refusal :=
  finish s do
    checkDigits d
    checkDigest s
    return writeCode (truncate s.mac) d s

/-- `HOTP`: counter to code in one command (42_truncation.md R165). -/
def execHotp (a : AlgField) (d : Nat) (s : State) : Host.Outcome State Fault Refusal :=
  finish s do
    let h ← checkAlg a
    checkDigits d
    checkKey s
    let mac := hmac h s.secret (beBytes 8 s.counter.toNat)
    return writeCode (truncate mac) d (writeDigest h mac (writeMessage s.counter s))

end Sys2Proof.Machine
end

