-- ==== Sys2Proof/Machine/Dispatch.lean ====
section
/-! DEFINITION. The meaning of every command, one arm each (30_encoding.md R83). `exec i s` is the completion of command
`i` in state `s` (60_exceptions.md R234, R236). -/

namespace Sys2Proof.Machine

def exec (i : Instr) (s : State) : Host.Outcome State Fault Refusal :=
  match i with
  | .ctr2b => Sys2Proof.Machine.execCtr2b s
  | .b2ctr => Sys2Proof.Machine.execB2ctr s
  | .hmac a => Sys2Proof.Machine.execHmac a s
  | .trunc d => Sys2Proof.Machine.execTrunc d s
  | .hotp a d => Sys2Proof.Machine.execHotp a d s
  | .cmp => Sys2Proof.Machine.execCmp s
  | .b32enc => Sys2Proof.Machine.execB32enc s
  | .b32dec => Sys2Proof.Machine.execB32dec s
  | .clear => Sys2Proof.Machine.execClear s

end Sys2Proof.Machine
end

