-- ==== Sys2Proof/Machine/Engine.lean ====
section
/-! DEFINITION. The engine's turn: it completes the command it holds (60_exceptions.md R234 to R237), and how long that
takes (70_reset_and_hazards.md R270). -/

namespace Sys2Proof.Machine

/-- The completion of the accepted word `w`: "Decoding comes first: if `w` is illegal, the completion is `raise
ILLEGAL_CMD(1)`" (60_exceptions.md R235); a legal word's row is executed (30_encoding.md R84). -/
def completeWord (w : Word) (s : State) : Host.Outcome State Fault Refusal :=
  match decode w with
  | .legal i => exec i s
  | .illegal _ => .next (raiseError .illegalCmd s)

/-- The engine's turn. Idle, "it does nothing until the next `CMD` write" (60_exceptions.md R247); under reset it does
nothing, for the reset state is idle and stays (70_reset_and_hazards.md R261; log 7). -/
def engineTurn (s : State) : Host.Outcome State Fault Refusal :=
  if s.inReset then .next s
  else
    match s.seq with
    | .idle => .next s
    | .busy w => completeWord w s

/-- `LAT(w, KEYLEN, TEXTLEN, DIGLEN)` less one, by the command the word decodes to: one constant for `CMP`
(43_comparator.md R181), a function of `KEYLEN` alone for `B32ENC` and of `TEXTLEN` alone for `B32DEC` (44_base32.md R205),
of the word and the three lengths for every other word (70_reset_and_hazards.md R270; log 9). -/
def commandLatencyLessOne (w : Word) (keylen textlen diglen : Byte) : Nat :=
  match decode w with
  | .legal .cmp => Config.cmpLatencyLessOne
  | .legal .b32enc => Config.b32encLatencyLessOne keylen
  | .legal .b32dec => Config.b32decLatencyLessOne textlen
  | .legal .ctr2b | .legal .b2ctr | .legal (.hmac _) | .legal (.trunc _) | .legal (.hotp _ _) | .legal .clear
  | .illegal _ => Config.latencyLessOne w keylen textlen diglen

/-- `LAT(w, KEYLEN, TEXTLEN, DIGLEN)`: "at least one clock cycle and finitely many" (70_reset_and_hazards.md R270). -/
def commandLatency (w : Word) (keylen textlen diglen : Byte) : Nat :=
  commandLatencyLessOne w keylen textlen diglen + 1

/-- The latency of the command the engine holds, none when it is idle (70_reset_and_hazards.md R270). -/
def State.latency (s : State) : Option Nat :=
  match s.seq with
  | .idle => none
  | .busy w => some (commandLatency w s.keylen s.textlen s.diglen)

end Sys2Proof.Machine
end

