-- ==== Sys2Proof/Machine/Step.lean ====
section
/-! DEFINITION. One step of the machine: the next turn of the schedule, or the engine's when none is left (log 1). -/

namespace Sys2Proof.Machine

/-- One step. "Which agent steps next is not fixed" (00_scope.md R8): the schedule says, and every order of turns is the
schedule of some state. With no turn left the engine moves, so an accepted command completes (60_exceptions.md R237,
70_reset_and_hazards.md R271). -/
def step (s : State) : Host.Outcome State Fault Refusal :=
  match s.schedule with
  | [] => engineTurn s
  | .engine :: rest => engineTurn { s with schedule := rest }
  | .access a :: rest => hostAccess a { s with schedule := rest }
  | .resetLine asserted :: rest => .next (setResetLine asserted { s with schedule := rest })

/-- `s` with a command word accepted (`SEQ = BUSY(w)`, 60_exceptions.md R233), the reset input released and the engine's
turn next, so that the very next step completes exactly that command (log 2). -/
def State.withFetchWord (s : State) (nbits w : Nat) : State :=
  { accept (tableWord nbits w) s with inReset := false, schedule := .engine :: s.schedule }

end Sys2Proof.Machine
end

