-- ==== Sys2Proof/Machine/HostProgram.lean ====
section
/-! DEFINITION. The notation of host programs (30_encoding.md R87), each form as the turns it stands for. The host's own
control flow is host software (95_test_vectors.md, Conventions) and has no form here. -/

namespace Sys2Proof.Machine

/-- The offset of a register (10_state.md R20); for `reserved`, the first reserved offset. -/
def regOffset : Reg → Nat
  | .id => 0x000
  | .cmd => 0x004
  | .status => 0x008
  | .inten => 0x00C
  | .keylen => 0x010
  | .textlen => 0x014
  | .sublen => 0x018
  | .codelen => 0x01C
  | .diglen => 0x020
  | .trunc => 0x024
  | .ctrHi => 0x028
  | .ctrLo => 0x02C
  | .msg k => 0x030 + 4 * k
  | .code k => 0x040 + 4 * k
  | .submit k => 0x050 + 4 * k
  | .digest k => 0x080 + 4 * k
  | .key k => 0x100 + 4 * k
  | .text k => 0x200 + 4 * k
  | .reserved => 0x038

/-- The buffers of the window (10_state.md R39 to R45). -/
inductive Buffer where
  | msg
  | code
  | submit
  | digest
  | key
  | text
  deriving DecidableEq, Repr

/-- Register `k` of a buffer. -/
def bufferReg : Buffer → Nat → Reg
  | .msg => .msg
  | .code => .code
  | .submit => .submit
  | .digest => .digest
  | .key => .key
  | .text => .text

/-- The forms of a host program (30_encoding.md R87). -/
inductive HostOp where
  /-- `wr REG, v` -/
  | wr (r : Reg) (v : Word)
  /-- `rd REG` -/
  | rd (r : Reg)
  /-- a command's pseudo form: `wr CMD` with its word -/
  | command (i : Instr)
  /-- `wait`, in an execution in which `polls` reads of `STATUS` show `BUSY = 1` before the one that shows 0 (log 16) -/
  | wait (polls : Nat)
  /-- `ack`: `wr STATUS, 0x00000012` -/
  | ack
  /-- `wrbuf BUF, bytes` -/
  | wrbuf (b : Buffer) (bytes : List Byte)
  deriving DecidableEq, Repr

/-- The turn of `wr REG, v`: `MemWrite(offset(REG), 4, v)`. -/
def wrTurn (r : Reg) (v : Word) : Turn := .access (.write .w32 (hostAddress (regOffset r)) v)

/-- The turn of `rd REG`: `MemRead(offset(REG), 4)`. -/
def rdTurn (r : Reg) : Turn := .access (.read .w32 (hostAddress (regOffset r)))

/-- The turns of `wrbuf`: "consecutive registers of buffer `BUF` from its first register, packed by 10_state.md rule R40,
the last word padded with 0x00 bytes" (30_encoding.md R87). -/
def wrbufTurns (b : Buffer) (bytes : List Byte) : List Turn :=
  (List.range ((bytes.length + 3) / 4)).map fun k =>
    wrTurn (bufferReg b k)
      (packWord (byteAt bytes (4 * k)) (byteAt bytes (4 * k + 1)) (byteAt bytes (4 * k + 2)) (byteAt bytes (4 * k + 3)))

/-- The turns a form stands for (30_encoding.md R87). -/
def hostOpTurns : HostOp → List Turn
  | .wr r v => [wrTurn r v]
  | .rd r => [rdTurn r]
  | .command i => [wrTurn .cmd (encode i)]
  | .wait polls => List.replicate polls (rdTurn .status) ++ [.engine, rdTurn .status]
  | .ack => [wrTurn .status 0x00000012]
  | .wrbuf b bytes => wrbufTurns b bytes

/-- The state with a host program's turns added to its schedule. -/
def State.withProgram (program : List HostOp) (s : State) : State :=
  { s with schedule := s.schedule ++ program.flatMap hostOpTurns }

end Sys2Proof.Machine
end

