-- ==== Sys2Proof/Safety.lean ====
section
/-! DEFINITION. The terms claims use: what of a state is the block's own, what a completion leaves alone, when a schedule
stays in the window, and the invariant every step keeps. -/

namespace Sys2Proof.Machine

/-- The block without the model's own host side (the schedule, the last bus response, the free-value counter): two
states agree on it exactly when every register, buffer, `SEQ` and the reset input agree. -/
def State.block (s : State) : State := { s with schedule := [], reply := none, draws := 0 }

/-- `t` reads as `s` does at every offset, but at `STATUS` and at the registers of `written`. -/
def ReadsSame (s t : State) (written : Reg → Bool) : Prop :=
  ∀ off, regAt off ≠ .status → written (regAt off) = false → readReg t (regAt off) = readReg s (regAt off)

/-- `t` is a completion of `s` with code `e` (60_exceptions.md R234, R236): `SEQ = IDLE`, `DONE = 1`, `ERRCODE = e`;
`OVERRUN`, `INTEN`, the reset input and the host side are as before, and so is every register outside `written`. `MATCH`
is not said here. -/
structure CompletesAs (s t : State) (e : ErrCode) (written : Reg → Bool) : Prop where
  idle : t.seq = .idle
  done : t.done = true
  errcode : t.errcode = e
  overrun : t.overrun = s.overrun
  doneie : t.doneie = s.doneie
  errie : t.errie = s.errie
  inReset : t.inReset = s.inReset
  schedule : t.schedule = s.schedule
  reply : t.reply = s.reply
  draws : t.draws = s.draws
  reads : ReadsSame s t written

/-- No register. -/
def noReg : Reg → Bool := fun _ => false

/-- `MSG0`, `MSG1` (10_state.md R39). -/
def msgRegs : Reg → Bool
  | .msg _ => true
  | .id | .cmd | .status | .inten | .keylen | .textlen | .sublen | .codelen | .diglen | .trunc | .ctrHi | .ctrLo
  | .code _ | .submit _ | .digest _ | .key _ | .text _ | .reserved => false

/-- `CTR_HI`, `CTR_LO` (10_state.md R38). -/
def ctrRegs : Reg → Bool
  | .ctrHi | .ctrLo => true
  | .id | .cmd | .status | .inten | .keylen | .textlen | .sublen | .codelen | .diglen | .trunc | .msg _
  | .code _ | .submit _ | .digest _ | .key _ | .text _ | .reserved => false

/-- `DIGEST`, `DIGLEN` (10_state.md R36, R43). -/
def digestRegs : Reg → Bool
  | .digest _ | .diglen => true
  | .id | .cmd | .status | .inten | .keylen | .textlen | .sublen | .codelen | .trunc | .ctrHi | .ctrLo | .msg _
  | .code _ | .submit _ | .key _ | .text _ | .reserved => false

/-- `TRUNC`, `CODE`, `CODELEN` (10_state.md R35, R37, R44). -/
def codeRegs : Reg → Bool
  | .trunc | .code _ | .codelen => true
  | .id | .cmd | .status | .inten | .keylen | .textlen | .sublen | .diglen | .ctrHi | .ctrLo | .msg _
  | .submit _ | .digest _ | .key _ | .text _ | .reserved => false

/-- `TEXT`, `TEXTLEN` (10_state.md R33, R42). -/
def textRegs : Reg → Bool
  | .text _ | .textlen => true
  | .id | .cmd | .status | .inten | .keylen | .sublen | .codelen | .diglen | .trunc | .ctrHi | .ctrLo | .msg _
  | .code _ | .submit _ | .digest _ | .key _ | .reserved => false

/-- `KEY`, `KEYLEN` (10_state.md R32, R41). -/
def keyRegs : Reg → Bool
  | .key _ | .keylen => true
  | .id | .cmd | .status | .inten | .textlen | .sublen | .codelen | .diglen | .trunc | .ctrHi | .ctrLo | .msg _
  | .code _ | .submit _ | .digest _ | .text _ | .reserved => false

/-- What `HOTP` writes (10_state.md R50). -/
def hotpRegs (r : Reg) : Bool := msgRegs r || digestRegs r || codeRegs r

/-- The registers the table of 10_state.md R50 lets a command write at a successful completion, beside `STATUS`; every
register but `ID`, `CMD` and `INTEN` for `CLEAR`. -/
def writtenBy : Instr → Reg → Bool
  | .ctr2b, r => msgRegs r
  | .b2ctr, r => ctrRegs r
  | .hmac _, r => digestRegs r
  | .trunc _, r => codeRegs r
  | .hotp _ _, r => hotpRegs r
  | .cmp, _ => false
  | .b32enc, r => textRegs r
  | .b32dec, r => keyRegs r
  | .clear, r => r != .id && r != .cmd && r != .inten

/-- The commands that write `STATUS.MATCH`: `CMP` and `CLEAR` (10_state.md R28). -/
def writesMatch : Instr → Bool
  | .cmp => true
  | .clear => true
  | .ctr2b => false
  | .b2ctr => false
  | .hmac _ => false
  | .trunc _ => false
  | .hotp _ _ => false
  | .b32enc => false
  | .b32dec => false

/-- A turn whose access, if it is one, is addressed to the window (20_memory.md R60). -/
def Turn.inWindow : Turn → Bool
  | .access a => (windowOffset (accessAddr a)).isSome
  | .engine => true
  | .resetLine _ => true

/-- A run that never leaves the window: no step of it faults. -/
def State.scheduleInWindow (s : State) : Prop := ∀ t ∈ s.schedule, t.inWindow = true

/-- The invariant of the block. -/
structure BlockInv (s : State) : Prop where
  /-- while busy, `DONE` and `ERRCODE` are as acceptance left them (60_exceptions.md R233) -/
  busy_clean : s.busy = true → s.done = false ∧ s.errcode = .ok
  /-- under reset the block holds its reset state (70_reset_and_hazards.md R261) -/
  held_in_reset : s.inReset = true → s.block = { State.reset.block with inReset := true }
  /-- `DIGLEN` is 0, 20, 32 or 64 (10_state.md R36) -/
  digest_length : s.diglen.toNat ∈ [0, 20, 32, 64]
  /-- digest bytes at and above `DIGLEN` are 0 (10_state.md R43) -/
  digest_zero_above : ∀ i, s.diglen.toNat ≤ i → bufByte s.digest i = 0
  /-- `CODELEN` is 0 to 9 (10_state.md R35) -/
  code_length : s.codelen.toNat ≤ 9
  /-- `CODE` holds the `CODELEN`-digit code of `TRUNC`, and 0x00 above (10_state.md R44, 42_truncation.md R160) -/
  code_of_trunc : s.code = renderCode s.trunc s.codelen.toNat
  /-- with no code there is no truncated value (10_state.md R37) -/
  no_code : s.codelen = 0 → s.trunc = 0

/-! ## Terms of the rules, spelled apart from the machine's own functions -/

/-- The bytes of a buffer. -/
def bufferBytes : Buffer → State → List Byte
  | .msg, s => s.msg.toList
  | .code, s => s.code.toList
  | .submit, s => s.submit.toList
  | .digest, s => s.digest.toList
  | .key, s => s.key.toList
  | .text, s => s.text.toList

/-- A buffer's first offset `B0` (10_state.md R20). -/
def bufferBase : Buffer → Nat
  | .msg => 0x030
  | .code => 0x040
  | .submit => 0x050
  | .digest => 0x080
  | .key => 0x100
  | .text => 0x200

/-- A buffer's size in bytes (10_state.md R20). -/
def bufferSize : Buffer → Nat
  | .msg => 8
  | .code => 12
  | .submit => 12
  | .digest => 64
  | .key => 128
  | .text => 208

/-- The buffers the host can write: `MSG`, `SUBMIT`, `KEY`, `TEXT` are RW (10_state.md R20). -/
def Buffer.writable : Buffer → Bool
  | .msg | .submit | .key | .text => true
  | .code | .digest => false

/-- The offsets of the three length registers the host can write: 8 stored bits (10_state.md R32 to R34). -/
def lengthOffset (off : Nat) : Bool := off == 0x010 || off == 0x014 || off == 0x018

/-- The offsets of the RW registers all of whose bits are stored: `CTR_HI`, `CTR_LO`, `MSG`, `SUBMIT`, `KEY`, `TEXT`
(10_state.md R20). -/
def wordOffset (off : Nat) : Bool :=
  decide (0x028 ≤ off ∧ off ≤ 0x034) || decide (0x050 ≤ off ∧ off ≤ 0x058) || decide (0x100 ≤ off ∧ off ≤ 0x17C) ||
    decide (0x200 ≤ off ∧ off ≤ 0x2CC)

/-- The offsets the table of 10_state.md R20 marks reserved. -/
def reservedOffset (off : Nat) : Bool :=
  decide (0x038 ≤ off ∧ off ≤ 0x03C) || off == 0x04C || decide (0x05C ≤ off ∧ off ≤ 0x07C) ||
    decide (0x0C0 ≤ off ∧ off ≤ 0x0FC) || decide (0x180 ≤ off ∧ off ≤ 0x1FC) || decide (0x2D0 ≤ off ∧ off ≤ 0xFFC)

/-- The primes below `n`, in order. -/
def primesBelow (n : Nat) : List Nat :=
  (List.range n).filter fun p => 2 ≤ p && (List.range p).all fun d => d < 2 || p % d != 0

/-- `w` is the first `n` bits of the fractional part of the `k`-th root of `p` (41_hmac.md R119, R120, R123, R124): with
some whole part `q`, `q + w / 2^n` is the root cut off after `n` bits. -/
def RootFraction (k n p w : Nat) : Prop :=
  ∃ q, (q * 2 ^ n + w) ^ k ≤ p * 2 ^ (k * n) ∧ p * 2 ^ (k * n) < (q * 2 ^ n + w + 1) ^ k

/-- `out` is the hash value after the block of the given words, from the hash value `h`, as 41_hmac.md R116 and R117
compute it: `W` is the schedule and `v t` holds `a` to `e` before round `t`. -/
def Sha1Computes (words : List Word) (h out : Sha1Words) : Prop :=
  ∃ (W : Nat → Word) (v : Nat → Sha1Words),
    (∀ t, t < 16 → W t = words.getD t 0) ∧
    (∀ t, 16 ≤ t → t < 80 → W t = (W (t - 3) ^^^ W (t - 8) ^^^ W (t - 14) ^^^ W (t - 16)).rotateLeft 1) ∧
    v 0 = h ∧
    (∀ t, t < 80 →
      let x := v t
      let f : Word :=
        if t ≤ 19 then (x.b &&& x.c) ^^^ (~~~x.b &&& x.d)
        else if t ≤ 39 then x.b ^^^ x.c ^^^ x.d
        else if t ≤ 59 then (x.b &&& x.c) ^^^ (x.b &&& x.d) ^^^ (x.c &&& x.d)
        else x.b ^^^ x.c ^^^ x.d
      let K : Word := if t ≤ 19 then 0x5A827999 else if t ≤ 39 then 0x6ED9EBA1 else if t ≤ 59 then 0x8F1BBCDC else 0xCA62C1D6
      v (t + 1) = { a := x.a.rotateLeft 5 + f + x.e + K + W t, b := x.a, c := x.b.rotateLeft 30, d := x.c, e := x.d }) ∧
    out = { a := h.a + (v 80).a, b := h.b + (v 80).b, c := h.c + (v 80).c, d := h.d + (v 80).d, e := h.e + (v 80).e }

/-- `out` is the hash value after the block of the given words, from the hash value `h`, as 41_hmac.md R121 and R125
compute it with the word functions `S0`, `S1`, `s0`, `s1` and the constants `K`, in `rounds` rounds. -/
def Sha2Computes {n : Nat} (S0 S1 s0 s1 : BitVec n → BitVec n) (K : List (BitVec n)) (rounds : Nat)
    (words : List (BitVec n)) (h out : Sha2Words n) : Prop :=
  ∃ (W : Nat → BitVec n) (v : Nat → Sha2Words n),
    (∀ t, t < 16 → W t = words.getD t 0) ∧
    (∀ t, 16 ≤ t → t < rounds → W t = s1 (W (t - 2)) + W (t - 7) + s0 (W (t - 15)) + W (t - 16)) ∧
    v 0 = h ∧
    (∀ t, t < rounds →
      let x := v t
      let T1 := x.h + S1 x.e + ((x.e &&& x.f) ^^^ (~~~x.e &&& x.g)) + K.getD t 0 + W t
      let T2 := S0 x.a + ((x.a &&& x.b) ^^^ (x.a &&& x.c) ^^^ (x.b &&& x.c))
      v (t + 1) = { a := T1 + T2, b := x.a, c := x.b, d := x.c, e := x.d + T1, f := x.e, g := x.f, h := x.g }) ∧
    out =
      { a := h.a + (v rounds).a, b := h.b + (v rounds).b, c := h.c + (v rounds).c, d := h.d + (v rounds).d
        e := h.e + (v rounds).e, f := h.f + (v rounds).f, g := h.g + (v rounds).g, h := h.h + (v rounds).h }

/-- `DIGEST` holds `mac` of `dl` bytes and 0x00 above it, and `DIGLEN` is `dl` (41_hmac.md R141). -/
structure HoldsDigest (t : State) (mac : List Byte) (dl : Nat) : Prop where
  length : mac.length = dl
  diglen : t.diglen.toNat = dl
  bytes : ∀ i, i < dl → bufByte t.digest i = byteAt mac i
  above : ∀ i, dl ≤ i → bufByte t.digest i = 0

/-- `off = B[dl - 1] & 0x0F`, in numbers (42_truncation.md R162). -/
def offsetOf (bytes : Nat → Byte) (dl : Nat) : Nat := (bytes (dl - 1)).toNat % 16

/-- `((B[off] & 0x7F) << 24) | (B[off+1] << 16) | (B[off+2] << 8) | B[off+3]`, in numbers (42_truncation.md R162). -/
def truncatedAt (bytes : Nat → Byte) (off : Nat) : Nat :=
  (bytes off).toNat % 128 * 2 ^ 24 + (bytes (off + 1)).toNat * 2 ^ 16 + (bytes (off + 2)).toNat * 2 ^ 8 +
    (bytes (off + 3)).toNat

/-- `TRUNC`, `CODE` and `CODELEN` hold the value `v` and its `d`-digit code (42_truncation.md R160). -/
structure HoldsCode (t : State) (v d : Nat) : Prop where
  trunc : t.trunc.toNat = v
  codelen : t.codelen.toNat = d
  digits : ∀ i, i < d → (bufByte t.code i).toNat = 0x30 + v % 10 ^ d / 10 ^ (d - 1 - i) % 10
  above : ∀ i, d ≤ i → bufByte t.code i = 0

/-- The characters `A` to `Z`, `2` to `7` in the order of their values (44_base32.md R190). -/
def base32Alphabet : List Byte := "ABCDEFGHIJKLMNOPQRSTUVWXYZ234567".toList.map fun c => BitVec.ofNat 8 c.toNat

/-- A lowercase letter's uppercase form; any other byte itself (44_base32.md R204). -/
def upperCase (b : Byte) : Byte := if 0x61 ≤ b.toNat ∧ b.toNat ≤ 0x7A then b - 0x20 else b

/-- Bit `p` of a byte string "read as one bit string, most significant bit of byte 0 first" (44_base32.md R191); 0 past
its end. -/
def bitOf (bs : List Byte) (p : Nat) : Bool := (byteAt bs (p / 8)).getLsbD (7 - p % 8)

/-- The number whose 5-bit digits are `vs`, first one most significant. -/
def base32Number (vs : List Nat) : Nat := vs.foldl (fun acc v => acc * 32 + v) 0

/-- A text length `B32DEC` accepts (44_base32.md R200). -/
abbrev legalTextLength (c : Nat) : Prop :=
  1 ≤ c ∧ c ≤ 208 ∧ c % 8 ≠ 1 ∧ c % 8 ≠ 3 ∧ c % 8 ≠ 6 ∧ 5 * c / 8 ≤ 128

/-- The one code a command reports: the first failing check in the order of 60_exceptions.md R238, `OK` if none fails. -/
def firstError (i : Instr) (s : State) : ErrCode :=
  let keyError : ErrCode :=
    if s.keylen.toNat = 0 then .emptyKey else if 128 < s.keylen.toNat then .keyTooLong else .ok
  match i with
  | .ctr2b => .ok
  | .b2ctr => .ok
  | .hmac a => if a = .reserved then .badAlg else keyError
  | .trunc d =>
    if d < 1 ∨ 9 < d then .badDigits
    else if s.diglen.toNat = 20 ∨ s.diglen.toNat = 32 ∨ s.diglen.toNat = 64 then .ok
    else .noDigest
  | .hotp a d => if a = .reserved then .badAlg else if d < 1 ∨ 9 < d then .badDigits else keyError
  | .cmp => .ok
  | .b32enc => keyError
  | .b32dec =>
    if ¬ legalTextLength s.textlen.toNat then .badTextLength
    else if s.chars.any (fun b => (charValue b).isNone) then .badChar
    else if base32Number (s.chars.map fun b => (charValue b).getD 0) %
        2 ^ (5 * s.textlen.toNat - 8 * (5 * s.textlen.toNat / 8)) ≠ 0 then .noncanonical
    else .ok
  | .clear => .ok

end Sys2Proof.Machine
end

