-- ==== Sys2Proof/Certificates/Slice0/Obligations.lean ====
section
/-! DEFINITION. The statements for the provers. Each name says what is stated; each docstring cites the rules of spec/ it
formalises. `exec i s` is the completion of command `i` in state `s`; a statement about it holds in EVERY state `s`. -/

open Sys2Proof Sys2Proof.Machine

/-! ## Reset (70_reset_and_hazards.md) -/

/-- R260: after reset `SEQ` is `IDLE`, every offset of the window reads 0 but `ID`, every field and every buffer byte is
0, and `IRQ` is 0. -/
def Obligations.ResetStateIsZeroButForId : Prop :=
  State.reset.seq = .idle ∧ State.reset.irq = false ∧
  (∀ off, readReg State.reset (regAt off) = if off = 0 then 0x4F545001 else 0) ∧
  (State.reset.busy = false ∧ State.reset.done = false ∧ State.reset.err = false ∧ State.reset.matched = false ∧
    State.reset.overrun = false ∧ State.reset.errcode.code = 0 ∧ State.reset.doneie = false ∧
    State.reset.errie = false) ∧
  (State.reset.keylen = 0 ∧ State.reset.textlen = 0 ∧ State.reset.sublen = 0 ∧ State.reset.codelen = 0 ∧
    State.reset.diglen = 0 ∧ State.reset.trunc = 0 ∧ State.reset.ctrHi = 0 ∧ State.reset.ctrLo = 0) ∧
  (∀ b i, byteAt (bufferBytes b State.reset) i = 0)

/-- R261: asserting reset, in any state (a running command included), leaves the reset state of R260, so no command is
held, no result is written and `DONE` is not set; while it is asserted no access changes the block and an aligned read
answers an unspecified value (a free one, for every value of the counter of free values, log 5). -/
def Obligations.ResetAbandonsTheCommand : Prop :=
  (∀ (s : State) rest, ∃ t, step { s with schedule := .resetLine true :: rest } = .next t ∧ t.schedule = rest ∧
    t.block = { State.reset.block with inReset := true }) ∧
  (∀ s, s.inReset = true →
    (∀ a t, hostAccess a s = .next t → t.block = s.block) ∧
    (∀ off, off < 4096 → off % 4 = 0 → ∃ t, hostAccess (.read .w32 (hostAddress off)) s = .next t ∧
      t.reply = some (.data (Config.freeRead s.draws))))

/-- The model's choice for the reset input (log 7): the engine's turn does nothing while it is asserted, and releasing it
changes nothing else. -/
def Obligations.EngineRestsUntilResetIsReleased : Prop :=
  (∀ (s : State) rest, s.inReset = true → s.schedule = .engine :: rest →
    ∃ t, step s = .next t ∧ t.schedule = rest ∧ t.block = s.block) ∧
  (∀ (s : State) rest, s.schedule = .resetLine false :: rest →
    ∃ t, step s = .next t ∧ t.schedule = rest ∧ t.block = { s.block with inReset := false })

/-! ## Decoding and the engine (30_encoding.md, 60_exceptions.md) -/

/-- A step runs the decoded command: when the engine's turn is next (or no turn is left) and `SEQ = BUSY(w)` with a legal
`w`, the step is `exec` of the command `w` decodes to, at the state with that turn taken; the second clause says the same
of the model's way of placing a word (log 2). When a host access is next, the step is that access, at the state with its
turn taken, in any state of the block (the order of turns is the model's, log 1). -/
def Obligations.StepRunsTheDecodedCommand : Prop :=
  (∀ s w i, s.inReset = false → s.seq = .busy w → decode w = .legal i →
    (s.schedule = [] → step s = exec i s) ∧
    (∀ rest, s.schedule = .engine :: rest → step s = exec i { s with schedule := rest })) ∧
  (∀ (s : State) nbits w i, decodeTableWord nbits w = some i →
    step (s.withFetchWord nbits w) = exec i { accept (tableWord nbits w) s with inReset := false }) ∧
  (∀ s a rest, s.schedule = .access a :: rest → step s = hostAccess a { s with schedule := rest })

/-- R235: the completion of an illegal word is `ILLEGAL_CMD` whatever the operands, and changes nothing else (R234). -/
def Obligations.IllegalWordOnlyReportsIllegalCmd : Prop :=
  ∀ s w why, s.inReset = false → s.seq = .busy w → decode w = .illegal why →
    engineTurn s = .next { s with errcode := .illegalCmd, done := true, seq := .idle }

/-- R84: a word is legal exactly when it selects one row, and then it is that row's command, which the engine executes;
it is illegal exactly on the four grounds listed; an illegal word is accepted like any other and completes with
`ILLEGAL_CMD` and nothing else. -/
def Obligations.LegalWordsAreExactlyTheRows : Prop :=
  ∀ w,
    ((∃ i, decode w = .legal i) ↔ (opcodeMap.filter (·.selects w)).length = 1) ∧
    (∀ i, decode w = .legal i → ∃ r ∈ opcodeMap, r.selects w = true ∧ i = r.command w) ∧
    ((∃ why, decode w = .illegal why) ↔
      opField w ∉ ([0x01, 0x02, 0x10, 0x11, 0x12, 0x20, 0x30, 0x31, 0x40] : List (BitVec 8)) ∨
      reservedLow w ≠ 0 ∨ reservedHigh w ≠ 0 ∨
      (opField w ≠ 0x10 ∧ opField w ≠ 0x12 ∧ algBits w ≠ 0) ∨
      (opField w ≠ 0x11 ∧ opField w ≠ 0x12 ∧ digitsBits w ≠ 0)) ∧
    (∀ s, s.seq = .idle → (memWrite 0x004 w s).seq = .busy w) ∧
    (∀ s, s.inReset = false → s.seq = .busy w →
      (∀ i, decode w = .legal i → engineTurn s = exec i s) ∧
      (∀ why, decode w = .illegal why →
        engineTurn s = .next { s with errcode := .illegalCmd, done := true, seq := .idle }))

/-- R88, and the rows of R83 without fields: the words the spec writes out decode to their commands. -/
def Obligations.NamedCommandWordsDecode : Prop :=
  decode 0x00006012 = .legal (.hotp .sha1 6) ∧ decode 0x00008012 = .legal (.hotp .sha1 8) ∧
  decode 0x00006112 = .legal (.hotp .sha256 6) ∧ decode 0x00008112 = .legal (.hotp .sha256 8) ∧
  decode 0x00006212 = .legal (.hotp .sha512 6) ∧ decode 0x00008212 = .legal (.hotp .sha512 8) ∧
  decode 0x00000010 = .legal (.hmac .sha1) ∧ decode 0x00000110 = .legal (.hmac .sha256) ∧
  decode 0x00000210 = .legal (.hmac .sha512) ∧ decode 0x00006011 = .legal (.trunc 6) ∧
  decode 0x00008011 = .legal (.trunc 8) ∧ decode 0x00000001 = .legal .ctr2b ∧ decode 0x00000002 = .legal .b2ctr ∧
  decode 0x00000020 = .legal .cmp ∧ decode 0x00000030 = .legal .b32enc ∧ decode 0x00000031 = .legal .b32dec ∧
  decode 0x00000040 = .legal .clear

/-- Every well-formed command's word decodes to it, with every field at every value (R80 to R83). -/
def Obligations.DecodeOfEncode : Prop := ∀ i : Instr, i.WellFormed → decode (encode i) = .legal i

/-- Every legal word is the word of the well-formed command it decodes to: no bit of it is dropped (R80 to R84). -/
def Obligations.EncodeOfDecode : Prop := ∀ w i, decode w = .legal i → i.WellFormed ∧ encode i = w

/-- The map of R20: the register that stands at a register's offset is that register, the offset the table gives it is its
own, and the offsets no register has are the reserved ones of the table. R46: every reserved offset reads 0 and ignores
writes, in every state and at the bus without an error; a write to it while busy sets `OVERRUN`. -/
def Obligations.OffsetsNameTheirRegisters : Prop :=
  (∀ r ∈ ([.id, .cmd, .status, .inten, .keylen, .textlen, .sublen, .codelen, .diglen, .trunc, .ctrHi, .ctrLo] :
      List Reg), regAt (regOffset r) = r) ∧
  (∀ b k, 4 * k < bufferSize b →
    regOffset (bufferReg b k) = bufferBase b + 4 * k ∧ regAt (bufferBase b + 4 * k) = bufferReg b k) ∧
  (∀ off, off < 4096 → off % 4 = 0 → (regAt off = .reserved ↔ reservedOffset off = true)) ∧
  (∀ s off v, off % 4 = 0 → reservedOffset off = true →
    readReg s (regAt off) = 0 ∧
    (s.busy = false → memWrite off v s = s) ∧
    (s.busy = true → memWrite off v s = { s with overrun := true }) ∧
    (s.inReset = false →
      (∃ t, hostAccess (.read .w32 (hostAddress off)) s = .next t ∧ t.block = s.block ∧ t.reply = some (.data 0)) ∧
      (∃ t, hostAccess (.write .w32 (hostAddress off) v) s = .next t ∧ t.block = (memWrite off v s).block ∧
        ∀ o, t.reply ≠ some (.busError o))))

/-! ## Host accesses (20_memory.md, 10_state.md) -/

/-- R233: a `CMD` write while idle sets `SEQ`, `BUSY`, clears `DONE` and `ERRCODE` and changes nothing else, whatever the
word; while busy it only sets `OVERRUN`. -/
def Obligations.CommandWriteAcceptsOrOverruns : Prop :=
  ∀ s w,
    (s.seq = .idle →
      memWrite 0x004 w s = { s with seq := .busy w, done := false, errcode := .ok } ∧
      (memWrite 0x004 w s).busy = true) ∧
    (∀ u, s.seq = .busy u → memWrite 0x004 w s = { s with overrun := true })

/-- R29: while busy a write to any offset but `STATUS` and `INTEN` sets `OVERRUN` and does nothing else; no other write
sets it; it is cleared only by a `STATUS` write with bit 4 set, or reset; no command sets or clears it. -/
def Obligations.OverrunIsStickyAndSetByRefusedWrites : Prop :=
  (∀ s off v, s.busy = true → off ≠ 0x008 → off ≠ 0x00C → memWrite off v s = { s with overrun := true }) ∧
  (∀ s off v, s.busy = false → (memWrite off v s).overrun = true → s.overrun = true) ∧
  (∀ s off v, s.overrun = true → ¬(off = 0x008 ∧ v.getLsbD 4 = true) → (memWrite off v s).overrun = true) ∧
  (∀ s v, (memWrite 0x008 v s).overrun = (s.overrun && !v.getLsbD 4)) ∧
  (∀ i s t, exec i s = .next t → t.overrun = s.overrun) ∧
  (∀ s, (setResetLine true s).overrun = false)

/-- R24, R27: the layout of `STATUS`, bit by bit (`ERR` is `ERRCODE != 0`), its reset value, what a write to it does, busy
or not, and the number each error of the table of R230 shows in bits 11:8. -/
def Obligations.StatusLayoutAndWrite : Prop :=
  (∀ s i, (readReg s (regAt 0x008)).getLsbD i =
    if i = 0 then s.busy
    else if i = 1 then s.done
    else if i = 2 then decide (s.errcode.code ≠ 0)
    else if i = 3 then s.matched
    else if i = 4 then s.overrun
    else if 8 ≤ i ∧ i < 12 then s.errcode.code.getLsbD (i - 8)
    else false) ∧
  readReg State.reset (regAt 0x008) = 0 ∧
  (∀ s v, memWrite 0x008 v s = { s with
    done := if v.getLsbD 1 then false else s.done
    overrun := if v.getLsbD 4 then false else s.overrun }) ∧
  (∀ s e number, (e, number) ∈ ([(.ok, 0), (.illegalCmd, 1), (.badAlg, 2), (.badDigits, 3), (.emptyKey, 4),
      (.keyTooLong, 5), (.badTextLength, 6), (.badChar, 7), (.noncanonical, 8), (.noDigest, 9)] :
      List (ErrCode × BitVec 4)) →
    ((readReg s (regAt 0x008)).extractLsb' 8 4 = number ↔ s.errcode = e))

/-- R31: a write to `INTEN` stores bits 0 and 1 and nothing else, busy or not; it reads back with bits 31:2 zero; no
command writes it; `DONEIE` raises `IRQ` at every completion and `ERRIE` at a completion with an error. -/
def Obligations.IntenLayoutAndWrite : Prop :=
  (∀ s v, memWrite 0x00C v s = { s with doneie := v.getLsbD 0, errie := v.getLsbD 1 }) ∧
  (∀ s v, readReg (memWrite 0x00C v s) (regAt 0x00C) = v &&& 0x3) ∧
  (∀ i s t, exec i s = .next t → t.doneie = s.doneie ∧ t.errie = s.errie ∧
    t.irq = (s.doneie || (s.errie && decide (t.errcode ≠ .ok)))) ∧
  State.reset.doneie = false ∧ State.reset.errie = false

/-- R63: every branch of a write at an aligned offset: refused while busy; `CMD`, `STATUS`, `INTEN`; a RW register stores
the value with its RAZ/WI bits 0 and every other register reads as before; a read-only register or reserved offset
changes nothing. Out of reset a host's aligned 32-bit write access of the window makes exactly this write and is answered,
not with a bus error. -/
def Obligations.HostWriteFollowsTheTable : Prop :=
  ∀ s off v, off < 4096 → off % 4 = 0 →
    (s.busy = true → off ≠ 0x008 → off ≠ 0x00C → memWrite off v s = { s with overrun := true }) ∧
    (s.busy = false → off = 0x004 → memWrite off v s = { s with seq := .busy v, done := false, errcode := .ok }) ∧
    (off = 0x008 → memWrite off v s = { s with
      done := if v.getLsbD 1 then false else s.done
      overrun := if v.getLsbD 4 then false else s.overrun }) ∧
    (off = 0x00C → memWrite off v s = { s with doneie := v.getLsbD 0, errie := v.getLsbD 1 }) ∧
    (s.busy = false → off ≠ 0x004 → off ≠ 0x008 → off ≠ 0x00C →
      (lengthOffset off = true → readReg (memWrite off v s) (regAt off) = v &&& 0xFF) ∧
      (wordOffset off = true → readReg (memWrite off v s) (regAt off) = v) ∧
      (lengthOffset off = false → wordOffset off = false → memWrite off v s = s) ∧
      (∀ off', off' % 4 = 0 → off' ≠ off → readReg (memWrite off v s) (regAt off') = readReg s (regAt off')) ∧
      (memWrite off v s).seq = s.seq ∧ (memWrite off v s).inReset = s.inReset) ∧
    (s.inReset = false → ∃ r, hostAccess (.write .w32 (hostAddress off) v) s =
      .next { memWrite off v s with reply := some r } ∧ ∀ o, r ≠ .busError o)

/-- R40: byte `4k+j` of a buffer stands in bits `[31-8j : 24-8j]` of its register `k`, that is, the register is
`B[4k] << 24 | B[4k+1] << 16 | B[4k+2] << 8 | B[4k+3]`, at offset `B0 + 4 * (j div 4)`; a host write of a register of a RW
buffer writes exactly the four bytes it holds. -/
def Obligations.BuffersPackBigEndian : Prop :=
  (∀ s b k, readReg s (bufferReg b k) =
    (byteAt (bufferBytes b s) (4 * k)).setWidth 32 <<< 24 |||
      (byteAt (bufferBytes b s) (4 * k + 1)).setWidth 32 <<< 16 |||
      (byteAt (bufferBytes b s) (4 * k + 2)).setWidth 32 <<< 8 |||
      (byteAt (bufferBytes b s) (4 * k + 3)).setWidth 32) ∧
  (∀ s b i, i < bufferSize b →
    (readReg s (regAt (bufferBase b + 4 * (i / 4)))).extractLsb' (24 - 8 * (i % 4)) 8 =
      byteAt (bufferBytes b s) i) ∧
  (∀ s b k v, s.busy = false → b.writable = true → 4 * k < bufferSize b → ∀ i,
    byteAt (bufferBytes b (memWrite (bufferBase b + 4 * k) v s)) i =
      if i / 4 = k then v.extractLsb' (24 - 8 * (i % 4)) 8 else byteAt (bufferBytes b s) i)

/-- R62: an aligned 32-bit read of the window completes, changes nothing of the block, and answers the register's value
when idle and, while busy, for the registers R49 lists; for the others it then answers an unspecified value (a free one,
log 5); reserved bits and bits a register does not store read 0. -/
def Obligations.ReadsAnswerAndChangeNothing : Prop :=
  (∀ s off, off < 4096 → off % 4 = 0 → ∃ t, hostAccess (.read .w32 (hostAddress off)) s = .next t ∧
    t.block = s.block ∧ t.schedule = s.schedule ∧
    (s.inReset = false → s.busy = false → t.reply = some (.data (readReg s (regAt off)))) ∧
    (s.inReset = false → s.busy = true →
      regAt off ∈ ([.id, .cmd, .status, .inten, .reserved] : List Reg) →
      t.reply = some (.data (readReg s (regAt off)))) ∧
    (s.inReset = false → s.busy = true →
      regAt off ∉ ([.id, .cmd, .status, .inten, .reserved] : List Reg) →
      t.reply = some (.data (Config.freeRead s.draws)))) ∧
  (∀ s i, i = 5 ∨ i = 6 ∨ i = 7 ∨ 12 ≤ i → (readReg s .status).getLsbD i = false) ∧
  (∀ s i, 2 ≤ i → (readReg s .inten).getLsbD i = false) ∧
  (∀ s r i, r ∈ ([.keylen, .textlen, .sublen, .codelen, .diglen] : List Reg) → 8 ≤ i →
    (readReg s r).getLsbD i = false) ∧
  (∀ s, (readReg s .trunc).getLsbD 31 = false)

/-- R49: while busy, `ID`, `CMD`, `STATUS`, `INTEN` and reserved offsets read as ever; a read of any other register
answers an unspecified value (a free one, for every value of the counter of free values, log 5) and has no effect. The
last clause is the model's choice (log 5) and more than R49 says: two busy states with one counter of free values answer
the same value, whatever their commands and operands are, so here the value tells nothing of them. -/
def Obligations.BusyReadsAreUnspecified : Prop :=
  ∀ s off, off < 4096 → off % 4 = 0 → s.inReset = false → s.busy = true →
    ∃ t, hostAccess (.read .w32 (hostAddress off)) s = .next t ∧ t.block = s.block ∧
      (regAt off ∈ ([.id, .cmd, .status, .inten, .reserved] : List Reg) →
        t.reply = some (.data (readReg s (regAt off)))) ∧
      (regAt off ∉ ([.id, .cmd, .status, .inten, .reserved] : List Reg) →
        t.reply = some (.data (Config.freeRead s.draws)) ∧
        ∀ s' t', s'.draws = s.draws → s'.inReset = false → s'.busy = true →
          hostAccess (.read .w32 (hostAddress off)) s' = .next t' → t'.reply = t.reply)

/-- R22: `ID` reads `0x4F545001` (revision 1 in bits 7:0), busy or idle; a write to it is ignored while idle and only
sets `OVERRUN` while busy; no step changes it. -/
def Obligations.IdIsHardWired : Prop :=
  (∀ s, s.inReset = false → ∃ t, hostAccess (.read .w32 (hostAddress 0)) s = .next t ∧
    t.reply = some (.data 0x4F545001)) ∧
  ((0x4F545001 : Word).extractLsb' 8 24 = 0x4F5450 ∧ (0x4F545001 : Word).extractLsb' 0 8 = 0x01) ∧
  (∀ s v, s.busy = false → memWrite 0x000 v s = s) ∧
  (∀ s v, s.busy = true → memWrite 0x000 v s = { s with overrun := true }) ∧
  (∀ s t, step s = .next t → readReg t (regAt 0) = readReg s (regAt 0))

/-- R61, R232: an access of the window that is not a 32-bit access at a multiple of 4 is answered with a bus error and
changes nothing (`OVERRUN` and `IRQ` included); every other access is answered without one, and a write with `written`,
having written what R63 says out of reset and nothing under reset (R261). That the machine goes on after a bus error (log
3), that an illegal access under reset gets one too (log 7) and the reply `written` (log 6) are the model's choices. -/
def Obligations.BusErrorsHaveNoEffect : Prop :=
  ∀ s a off, accessAddr a = hostAddress off → off < 4096 →
    ((accessWidth a ≠ .w32 ∨ off % 4 ≠ 0) → hostAccess a s = .next { s with reply := some (.busError off) }) ∧
    (accessWidth a = .w32 → off % 4 = 0 → ∃ t, hostAccess a s = .next t ∧ ∀ o, t.reply ≠ some (.busError o)) ∧
    (∀ v, a = .write .w32 (hostAddress off) v → off % 4 = 0 →
      hostAccess a s = .next { (if s.inReset then s else memWrite off v s) with reply := some .written })

/-- The machine stops only on an access addressed outside the window, and never refuses (the model's choice, log 4). -/
def Obligations.OnlyAccessesOutsideTheWindowStop : Prop :=
  (∀ s r, step s = .fault r ↔ ∃ a rest, s.schedule = .access a :: rest ∧
    (accessAddr a < Config.base ∨ Config.base + 4096 ≤ accessAddr a) ∧ r = .outsideWindow (accessAddr a)) ∧
  (∀ s r, step s ≠ .refused r)

/-- No host access changes a result register: `DIGEST`, `DIGLEN`, `CODE`, `CODELEN`, `TRUNC` are read-only (R35, R36,
R37, R43, R44), nor `STATUS.MATCH`, which is read-only (R24) and written by `CMP`, `CLEAR` and reset only (R28). -/
def Obligations.HostCannotWriteResults : Prop :=
  ∀ a s t, hostAccess a s = .next t →
    t.digest = s.digest ∧ t.diglen = s.diglen ∧ t.code = s.code ∧ t.codelen = s.codelen ∧ t.trunc = s.trunc ∧
      t.matched = s.matched

/-! ## The counter codec (40_counter_codec.md) -/

/-- R100: `CTR2B`, word `0x00000001`, writes `BE_8(CTR)` to `MSG`, so `MSG0 = CTR_HI` and `MSG1 = CTR_LO`; it has no
error and changes nothing else. -/
def Obligations.Ctr2bWritesTheCounterBytes : Prop :=
  decode 0x00000001 = .legal .ctr2b ∧
  ∀ s, ∃ t, exec .ctr2b s = .next t ∧ CompletesAs s t .ok msgRegs ∧ t.matched = s.matched ∧
    readReg t (.msg 0) = s.ctrHi ∧ readReg t (.msg 1) = s.ctrLo ∧
    ∀ i, i < 8 → (bufByte t.msg i).toNat =
      (s.ctrHi.toNat * 2 ^ 32 + s.ctrLo.toNat) / 2 ^ (8 * (7 - i)) % 256

/-- R102: `B2CTR`, word `0x00000002`, copies `MSG0` to `CTR_HI` and `MSG1` to `CTR_LO`, the counter whose big-endian bytes
`MSG` is; it has no error and changes nothing else. -/
def Obligations.B2ctrReadsTheCounterBytes : Prop :=
  decode 0x00000002 = .legal .b2ctr ∧
  ∀ s, ∃ t, exec .b2ctr s = .next t ∧ CompletesAs s t .ok ctrRegs ∧ t.matched = s.matched ∧
    t.ctrHi = readReg s (.msg 0) ∧ t.ctrLo = readReg s (.msg 1) ∧
    t.ctrHi.toNat * 2 ^ 32 + t.ctrLo.toNat = fromBE s.msg.toList

/-- R103: `CTR2B` then `B2CTR` leaves the counter as it was, and `B2CTR` then `CTR2B` leaves the message as it was. -/
def Obligations.CodecRoundTrips : Prop :=
  (∀ s, ∃ t u, exec .ctr2b s = .next t ∧ exec .b2ctr t = .next u ∧ u.ctrHi = s.ctrHi ∧ u.ctrLo = s.ctrLo) ∧
  (∀ s, ∃ t u, exec .b2ctr s = .next t ∧ exec .ctr2b t = .next u ∧ u.msg = s.msg) ∧
  (∀ c, c < 2 ^ 64 → fromBE (beBytes 8 c) = c)

/-! ## Hash and HMAC (41_hmac.md) -/

/-- R111, R112: the padded message is `M || 0x80 || Z || BE(8L)` with the least `Z` that fills the last block; it is cut
into whole blocks, and a block into sixteen big-endian words. -/
def Obligations.PaddingIsTheLeastThatFits : Prop :=
  (∀ m : List Byte, ∃ k, padMessage 64 8 m = m ++ [0x80] ++ List.replicate k 0 ++ beBytes 8 (8 * m.length) ∧
    (m.length + 1 + k) % 64 = 56 ∧ (∀ j, (m.length + 1 + j) % 64 = 56 → k ≤ j) ∧
    (padMessage 64 8 m).length % 64 = 0) ∧
  (∀ m : List Byte, ∃ k, padMessage 128 16 m = m ++ [0x80] ++ List.replicate k 0 ++ beBytes 16 (8 * m.length) ∧
    (m.length + 1 + k) % 128 = 112 ∧ (∀ j, (m.length + 1 + j) % 128 = 112 → k ≤ j) ∧
    (padMessage 128 16 m).length % 128 = 0) ∧
  (∀ m : List Byte, (splitBytes 64 (padMessage 64 8 m)).flatten = padMessage 64 8 m ∧
    (∀ b ∈ splitBytes 64 (padMessage 64 8 m), b.length = 64) ∧
    (splitBytes 128 (padMessage 128 16 m)).flatten = padMessage 128 16 m ∧
    (∀ b ∈ splitBytes 128 (padMessage 128 16 m), b.length = 128)) ∧
  (∀ b : List Byte, b.length = 64 → (blockWords 32 b).length = 16 ∧
    ∀ j, j < 16 → ((blockWords 32 b).getD j 0).toNat = fromBE ((b.drop (4 * j)).take 4)) ∧
  (∀ b : List Byte, b.length = 128 → (blockWords 64 b).length = 16 ∧
    ∀ j, j < 16 → ((blockWords 64 b).getD j 0).toNat = fromBE ((b.drop (8 * j)).take 8))

/-- The message schedules of SHA-1 (R117), SHA-256 (R121) and SHA-512 (R125): sixteen words of the block, then the words
each recurrence gives, 80, 64 and 80 in all. -/
def Obligations.SchedulesFollowTheirRecurrences : Prop :=
  (∀ ws : List Word, ws.length = 16 →
    let W := fun t => (hashSchedule sha1NextWord 64 ws).getD t 0
    (hashSchedule sha1NextWord 64 ws).length = 80 ∧ (∀ t, t < 16 → W t = ws.getD t 0) ∧
    ∀ t, 16 ≤ t → t < 80 → W t = (W (t - 3) ^^^ W (t - 8) ^^^ W (t - 14) ^^^ W (t - 16)).rotateLeft 1) ∧
  (∀ ws : List Word, ws.length = 16 →
    let W := fun t => (hashSchedule (sha2NextWord sha256Params) 48 ws).getD t 0
    (hashSchedule (sha2NextWord sha256Params) 48 ws).length = 64 ∧ (∀ t, t < 16 → W t = ws.getD t 0) ∧
    ∀ t, 16 ≤ t → t < 64 → W t =
      ((W (t - 2)).rotateRight 17 ^^^ (W (t - 2)).rotateRight 19 ^^^ (W (t - 2) >>> 10)) + W (t - 7) +
      ((W (t - 15)).rotateRight 7 ^^^ (W (t - 15)).rotateRight 18 ^^^ (W (t - 15) >>> 3)) + W (t - 16)) ∧
  (∀ ws : List (BitVec 64), ws.length = 16 →
    let W := fun t => (hashSchedule (sha2NextWord sha512Params) 64 ws).getD t 0
    (hashSchedule (sha2NextWord sha512Params) 64 ws).length = 80 ∧ (∀ t, t < 16 → W t = ws.getD t 0) ∧
    ∀ t, 16 ≤ t → t < 80 → W t =
      ((W (t - 2)).rotateRight 19 ^^^ (W (t - 2)).rotateRight 61 ^^^ (W (t - 2) >>> 6)) + W (t - 7) +
      ((W (t - 15)).rotateRight 1 ^^^ (W (t - 15)).rotateRight 8 ^^^ (W (t - 15) >>> 7)) + W (t - 16))

/-- R130: for every key the block can hold, HMAC is `H((K0 ^ opad) || H((K0 ^ ipad) || m))` for the one `BL`-byte string
`K0` that is the key, or its hash when it is longer than a block, followed by zeros; a key is never hashed first for
SHA-512; the result has `DL` bytes. -/
def Obligations.HmacIsTheNestedHash : Prop :=
  (∀ (h : HashAlg) (k m k0 : List Byte), k0.length = blockLength h →
    (∀ i, i < blockLength h → byteAt k0 i =
      if blockLength h < k.length then (if i < digestLength h then byteAt (hash h k) i else 0)
      else if i < k.length then byteAt k i else 0) →
    hmac h k m = hash h (k0.map (· ^^^ 0x5C) ++ hash h (k0.map (· ^^^ 0x36) ++ m)) ∧
      (hmac h k m).length = digestLength h) ∧
  (∀ k : List Byte, k.length ≤ 128 → ¬ blockLength .sha512 < k.length) ∧
  (∀ k : List Byte, (blockLength .sha1 < k.length ↔ 65 ≤ k.length) ∧ (blockLength .sha256 < k.length ↔ 65 ≤ k.length))

/-- R140, R141: `HMAC` checks `ALG`, then the key length, and on a failing check changes nothing but `STATUS`; otherwise
it writes the HMAC of `KEY[0..KEYLEN)` and `MSG` to `DIGEST`, zero-filled, and its length to `DIGLEN`, and changes
nothing else. The checks of R140 come in the same order in `HOTP`. -/
def Obligations.HmacChecksThenWritesTheDigest : Prop :=
  (decode 0x00000010 = .legal (.hmac .sha1) ∧ decode 0x00000110 = .legal (.hmac .sha256) ∧
    decode 0x00000210 = .legal (.hmac .sha512) ∧ decode 0x00000310 = .legal (.hmac .reserved)) ∧
  (∀ s, exec (.hmac .reserved) s = .next { s with errcode := .badAlg, done := true, seq := .idle }) ∧
  (∀ s d, exec (.hotp .reserved d) s = .next { s with errcode := .badAlg, done := true, seq := .idle }) ∧
  (∀ s, ∀ p ∈ ([(.sha1, .sha1, 20), (.sha256, .sha256, 32), (.sha512, .sha512, 64)] :
      List (AlgField × HashAlg × Nat)),
    (s.keylen.toNat = 0 →
      exec (.hmac p.1) s = .next { s with errcode := .emptyKey, done := true, seq := .idle } ∧
      ∀ d, 1 ≤ d → d ≤ 9 → exec (.hotp p.1 d) s = .next { s with errcode := .emptyKey, done := true, seq := .idle }) ∧
    (128 < s.keylen.toNat →
      exec (.hmac p.1) s = .next { s with errcode := .keyTooLong, done := true, seq := .idle } ∧
      ∀ d, 1 ≤ d → d ≤ 9 →
        exec (.hotp p.1 d) s = .next { s with errcode := .keyTooLong, done := true, seq := .idle }) ∧
    (1 ≤ s.keylen.toNat → s.keylen.toNat ≤ 128 → ∃ t, exec (.hmac p.1) s = .next t ∧
      CompletesAs s t .ok digestRegs ∧ t.matched = s.matched ∧
      HoldsDigest t (hmac p.2.1 (s.key.toList.take s.keylen.toNat) s.msg.toList) p.2.2))

/-- R142, R167: equal command words and equal operands give equal results. The operands are `KEYLEN`, `KEY[0..KEYLEN)` and
`MSG` for `HMAC`; `DIGLEN` and `DIGEST[0..DIGLEN)` for `TRUNC`; the counter, `KEYLEN` and `KEY[0..KEYLEN)` for `HOTP`: no
other register, and no key byte at or above `KEYLEN`, has any effect. -/
def Obligations.OperandsDetermineResults : Prop :=
  (∀ a s s', s.keylen = s'.keylen → s.secret = s'.secret → s.msg = s'.msg →
    ∃ t t', exec (.hmac a) s = .next t ∧ exec (.hmac a) s' = .next t' ∧ t.errcode = t'.errcode ∧
      (t.errcode = .ok → t.digest = t'.digest ∧ t.diglen = t'.diglen)) ∧
  (∀ d s s', s.diglen = s'.diglen → s.mac = s'.mac →
    ∃ t t', exec (.trunc d) s = .next t ∧ exec (.trunc d) s' = .next t' ∧ t.errcode = t'.errcode ∧
      (t.errcode = .ok → t.trunc = t'.trunc ∧ t.code = t'.code ∧ t.codelen = t'.codelen)) ∧
  (∀ a d s s', s.ctrHi = s'.ctrHi → s.ctrLo = s'.ctrLo → s.keylen = s'.keylen → s.secret = s'.secret →
    ∃ t t', exec (.hotp a d) s = .next t ∧ exec (.hotp a d) s' = .next t' ∧ t.errcode = t'.errcode ∧
      (t.errcode = .ok → t.msg = t'.msg ∧ t.digest = t'.digest ∧ t.diglen = t'.diglen ∧ t.trunc = t'.trunc ∧
        t.code = t'.code ∧ t.codelen = t'.codelen))

/-- R141's example and vectors H1, H2, H3 of 95_test_vectors.md section 2.3: the HMAC of the 8-byte message 1 under the
ASCII key "12345678901234567890", with each of the three hash functions. -/
def Obligations.HmacOfTheSpecsExample : Prop :=
  let key : List Byte := "12345678901234567890".toList.map fun c => BitVec.ofNat 8 c.toNat
  hmac .sha1 key (beBytes 8 1) =
    [0x75, 0xa4, 0x8a, 0x19, 0xd4, 0xcb, 0xe1, 0x00, 0x64, 0x4e, 0x8a, 0xc1, 0x39, 0x7e, 0xea, 0x74, 0x7a, 0x2d,
     0x33, 0xab] ∧
  hmac .sha256 key (beBytes 8 1) =
    [0xec, 0x9d, 0x4f, 0x68, 0x7b, 0x4e, 0xfe, 0x6a, 0xcc, 0x52, 0x10, 0x06, 0x72, 0x66, 0x0b, 0x84, 0xc0, 0xe7,
     0x21, 0x0b, 0xa0, 0x38, 0x21, 0x41, 0xf8, 0xec, 0xb9, 0x07, 0x96, 0xca, 0xb9, 0x12] ∧
  hmac .sha512 key (beBytes 8 1) =
    [0x68, 0xa0, 0xd9, 0xfc, 0x7f, 0x6b, 0xc8, 0xe3, 0x06, 0x0a, 0x4c, 0xa7, 0x99, 0x96, 0x03, 0xb6, 0xc3, 0x5d,
     0x4a, 0xf7, 0xb2, 0x9e, 0x18, 0xc5, 0x4f, 0x4f, 0x91, 0x8c, 0x24, 0x40, 0xb4, 0x7b, 0x6d, 0x8e, 0x2b, 0x2b] ++
    [0x46, 0xdf, 0x25, 0xf1, 0x24, 0x30, 0x68, 0xa9, 0x26, 0x2d, 0x81, 0xc8, 0x87, 0x9e, 0x07, 0xd5, 0x49, 0x91,
     0xa5, 0xec, 0x78, 0x3d, 0xb7, 0x38, 0x4b, 0x0b, 0x91, 0x0d]

/-! ## Truncation (42_truncation.md) -/

/-- R160, R162: `TRUNC` checks `DIGITS`, then `DIGLEN`, and on a failing check changes nothing but `STATUS`; otherwise it
truncates the digest at the offset its last byte gives, writes the 31-bit value, its `d`-digit zero-padded code and `d`,
and changes nothing else. -/
def Obligations.TruncChecksThenWritesTheCode : Prop :=
  (decode 0x00006011 = .legal (.trunc 6) ∧ decode 0x00008011 = .legal (.trunc 8)) ∧
  ∀ s d,
    (d < 1 ∨ 9 < d → exec (.trunc d) s = .next { s with errcode := .badDigits, done := true, seq := .idle }) ∧
    (1 ≤ d → d ≤ 9 → s.diglen.toNat ∉ [20, 32, 64] →
      exec (.trunc d) s = .next { s with errcode := .noDigest, done := true, seq := .idle }) ∧
    (1 ≤ d → d ≤ 9 → s.diglen.toNat ∈ [20, 32, 64] → ∃ t, exec (.trunc d) s = .next t ∧
      CompletesAs s t .ok codeRegs ∧ t.matched = s.matched ∧
      HoldsCode t (truncatedAt (bufByte s.digest) (offsetOf (bufByte s.digest) s.diglen.toNat)) d)

/-- R163: for every legal digest the four truncated bytes lie inside it, the value is below `2^31`, and for `d <= 9` its
reduction modulo `10^d` can take every value below `10^d`. -/
def Obligations.TruncationStaysInsideTheDigest : Prop :=
  (∀ s : State, s.diglen.toNat ∈ [20, 32, 64] →
    offsetOf (bufByte s.digest) s.diglen.toNat ≤ 15 ∧ offsetOf (bufByte s.digest) s.diglen.toNat + 3 ≤ 18 ∧
    18 < s.diglen.toNat ∧
    truncatedAt (bufByte s.digest) (offsetOf (bufByte s.digest) s.diglen.toNat) < 2 ^ 31) ∧
  (∀ (s s' : State) d t t', s.diglen = s'.diglen → s.diglen.toNat ∈ [20, 32, 64] →
    (∀ i, i < s.diglen.toNat → bufByte s.digest i = bufByte s'.digest i) →
    exec (.trunc d) s = .next t → exec (.trunc d) s' = .next t' →
    t.errcode = t'.errcode ∧ (t.errcode = .ok → t.trunc = t'.trunc ∧ t.code = t'.code)) ∧
  (∀ d v, 1 ≤ d → d ≤ 9 → v < 10 ^ d → ∃ (s t : State), exec (.trunc d) s = .next t ∧ t.errcode = .ok ∧
    t.trunc.toNat % 10 ^ d = v)

/-- R164: after a successful `TRUNC` or `HOTP` with `DIGITS = d`, `CODELEN = d` and `CODE[0..d)` are all ASCII digits. -/
def Obligations.CodesAreZeroPaddedDigits : Prop :=
  ∀ d s t, (exec (.trunc d) s = .next t ∨ ∃ a, exec (.hotp a d) s = .next t) → t.errcode = .ok →
    t.codelen.toNat = d ∧ ∀ i, i < d → 0x30 ≤ (bufByte t.code i).toNat ∧ (bufByte t.code i).toNat ≤ 0x39

/-- R165: `HOTP` checks `ALG`, `DIGITS`, then the key length, and on a failing check changes nothing but `STATUS`, not
even `MSG`; otherwise it writes the counter's bytes to `MSG`, their HMAC to `DIGEST`, and the truncation of that mac as
`TRUNC` does, and changes nothing else. -/
def Obligations.HotpChecksThenWritesAll : Prop :=
  (decode 0x00006012 = .legal (.hotp .sha1 6) ∧ decode 0x00008212 = .legal (.hotp .sha512 8)) ∧
  (∀ s d, exec (.hotp .reserved d) s = .next { s with errcode := .badAlg, done := true, seq := .idle }) ∧
  (∀ s d, ∀ p ∈ ([(.sha1, .sha1, 20), (.sha256, .sha256, 32), (.sha512, .sha512, 64)] :
      List (AlgField × HashAlg × Nat)),
    (d < 1 ∨ 9 < d → exec (.hotp p.1 d) s = .next { s with errcode := .badDigits, done := true, seq := .idle }) ∧
    (1 ≤ d → d ≤ 9 →
      (s.keylen.toNat = 0 →
        exec (.hotp p.1 d) s = .next { s with errcode := .emptyKey, done := true, seq := .idle }) ∧
      (128 < s.keylen.toNat →
        exec (.hotp p.1 d) s = .next { s with errcode := .keyTooLong, done := true, seq := .idle }) ∧
      (1 ≤ s.keylen.toNat → s.keylen.toNat ≤ 128 →
        let mac := hmac p.2.1 (s.key.toList.take s.keylen.toNat)
          (beBytes 8 (s.ctrHi.toNat * 2 ^ 32 + s.ctrLo.toNat))
        ∃ t, exec (.hotp p.1 d) s = .next t ∧ CompletesAs s t .ok hotpRegs ∧ t.matched = s.matched ∧
          t.msg.toList = beBytes 8 (s.ctrHi.toNat * 2 ^ 32 + s.ctrLo.toNat) ∧ HoldsDigest t mac p.2.2 ∧
          HoldsCode t (truncatedAt (byteAt mac) (offsetOf (byteAt mac) p.2.2)) d)))

/-- R166: a successful `HOTP` leaves the state the successful sequence `CTR2B`, `HMAC`, `TRUNC` leaves; it reports the
error of the sequence's first failing command, but `BAD_DIGITS` when the sequence's `HMAC` fails on the key and the digits
are bad; and on an error it leaves `MSG` unchanged. -/
def Obligations.HotpIsTheThreeCommands : Prop :=
  ∀ a d s, ∃ t1 t2 t3 t, exec .ctr2b s = .next t1 ∧ exec (.hmac a) t1 = .next t2 ∧ exec (.trunc d) t2 = .next t3 ∧
    exec (.hotp a d) s = .next t ∧ t1.errcode = .ok ∧
    (t.errcode = .ok ↔ t2.errcode = .ok ∧ t3.errcode = .ok) ∧
    (t.errcode = .ok → t = t3) ∧
    (t2.errcode = .ok → t.errcode = t3.errcode) ∧
    (t2.errcode = .badAlg → t.errcode = .badAlg) ∧
    (t2.errcode ≠ .ok → 1 ≤ d ∧ d ≤ 9 → t.errcode = t2.errcode) ∧
    (t2.errcode ≠ .ok → t2.errcode ≠ .badAlg → ¬(1 ≤ d ∧ d ≤ 9) → t.errcode = .badDigits) ∧
    (t.errcode ≠ .ok → t.msg = s.msg)

/-! ## The comparator (43_comparator.md) -/

/-- R180, R183: `CMP`, word `0x00000020`, always completes with `ERRCODE = 0` and changes nothing but `STATUS.MATCH`, which
is 1 exactly when `CODELEN` is 1 to 9, `SUBLEN` equals it, and the compared bytes are equal; the only error a word with
its `OP` can give is `ILLEGAL_CMD`. -/
def Obligations.CmpMatchesEqualCodes : Prop :=
  decode 0x00000020 = .legal .cmp ∧
  (∀ s, ∃ t, exec .cmp s = .next t ∧ CompletesAs s t .ok noReg ∧
    (t.matched = true ↔ 1 ≤ s.codelen.toNat ∧ s.codelen.toNat ≤ 9 ∧ s.sublen = s.codelen ∧
      ∀ i, i < s.codelen.toNat → bufByte s.submit i = bufByte s.code i)) ∧
  (∀ s w, s.inReset = false → s.seq = .busy w → opField w = 0x20 →
    ∃ t, engineTurn s = .next t ∧ (t.errcode = .ok ∨ t.errcode = .illegalCmd))

/-- R182: where the code in `CODE` is one the block wrote (the invariant), a submitted code with a byte that is no digit
at a compared position never matches. -/
def Obligations.NonDigitsNeverMatch : Prop :=
  ∀ s, BlockInv s → (∃ i, i < s.codelen.toNat ∧
      ¬(0x30 ≤ (bufByte s.submit i).toNat ∧ (bufByte s.submit i).toNat ≤ 0x39)) →
    ∃ t, exec .cmp s = .next t ∧ t.matched = false

/-! ## Base32 (44_base32.md) -/

/-- R190, R192: `B32ENC`, word `0x00000030`, checks the key length, and on a failing check changes nothing but `STATUS`;
otherwise it writes the `ceil(8n/5)` characters of the 5-bit groups of `fromBE(KEY[0..n)) << r`, zero-filled, and their
number, and changes nothing else. -/
def Obligations.B32encChecksThenWritesTheText : Prop :=
  decode 0x00000030 = .legal .b32enc ∧
  ∀ s,
    (s.keylen.toNat = 0 → exec .b32enc s = .next { s with errcode := .emptyKey, done := true, seq := .idle }) ∧
    (128 < s.keylen.toNat → exec .b32enc s = .next { s with errcode := .keyTooLong, done := true, seq := .idle }) ∧
    (1 ≤ s.keylen.toNat → s.keylen.toNat ≤ 128 →
      ∃ c t, 8 * s.keylen.toNat ≤ 5 * c ∧ 5 * c < 8 * s.keylen.toNat + 5 ∧ exec .b32enc s = .next t ∧
        CompletesAs s t .ok textRegs ∧ t.matched = s.matched ∧ t.textlen.toNat = c ∧
        (∀ i, i < c → bufByte t.text i = byteAt base32Alphabet
          (fromBE (s.key.toList.take s.keylen.toNat) * 2 ^ (5 * c - 8 * s.keylen.toNat) /
            2 ^ (5 * (c - 1 - i)) % 32)) ∧
        (∀ i, c ≤ i → bufByte t.text i = 0))

/-- R191: character `i` of the encoded text is the one whose five bits, first bit most significant, are bits `5i` to
`5i+4` of the key read as one bit string, with zero bits past its end; there are as many characters as begun groups. -/
def Obligations.CharactersAreFiveBitGroups : Prop :=
  ∀ s t, exec .b32enc s = .next t → t.errcode = .ok →
    (8 * s.keylen.toNat ≤ 5 * t.textlen.toNat ∧ 5 * t.textlen.toNat < 8 * s.keylen.toNat + 5) ∧
    ∀ i, i < t.textlen.toNat → ∃ v, charValue (bufByte t.text i) = some v ∧ v < 32 ∧
      ∀ j, j < 5 → v.testBit (4 - j) = bitOf (s.key.toList.take s.keylen.toNat) (5 * i + j)

/-- R194: every character written is one of the 32, never `=` or a lowercase letter. The length clauses are R193, which the
spec marks as derived from R192: the encoded length by `n mod 5`, never 1, 3 or 6 modulo 8, at most 205. -/
def Obligations.EncodedLengthsAndAlphabet : Prop :=
  ∀ s t, exec .b32enc s = .next t → t.errcode = .ok →
    t.textlen.toNat = 8 * (s.keylen.toNat / 5) + [0, 2, 4, 5, 7].getD (s.keylen.toNat % 5) 0 ∧
    t.textlen.toNat % 8 ∉ [1, 3, 6] ∧ t.textlen.toNat ≤ 205 ∧
    ∀ i, i < t.textlen.toNat → bufByte t.text i ∈ base32Alphabet

/-- R196: the value of every text byte, case-insensitively; so two texts that differ only in the case of letters decode
alike. -/
def Obligations.DecodingIgnoresCase : Prop :=
  (∀ b : Byte, charValue b =
    if 0x41 ≤ b.toNat ∧ b.toNat ≤ 0x5A then some (b.toNat - 0x41)
    else if 0x61 ≤ b.toNat ∧ b.toNat ≤ 0x7A then some (b.toNat - 0x61)
    else if 0x32 ≤ b.toNat ∧ b.toNat ≤ 0x37 then some (b.toNat - 0x32 + 26)
    else none) ∧
  (∀ b v, charValue b = some v → byteAt base32Alphabet v = upperCase b) ∧
  (∀ s s', s.textlen = s'.textlen →
    (∀ i, i < s.textlen.toNat → upperCase (bufByte s.text i) = upperCase (bufByte s'.text i)) →
    ∃ t t', exec .b32dec s = .next t ∧ exec .b32dec s' = .next t' ∧ t.errcode = t'.errcode ∧
      (t.errcode = .ok → t.key = t'.key ∧ t.keylen = t'.keylen))

/-- R200, R201: `B32DEC`, word `0x00000031`, checks the text length, then every character, then the leftover bits, and on
a failing check changes nothing but `STATUS`; otherwise it writes the bytes of the characters' number, zero-filled, and
their count, and changes nothing else. -/
def Obligations.B32decChecksThenWritesTheKey : Prop :=
  decode 0x00000031 = .legal .b32dec ∧
  ∀ s,
    let c := s.textlen.toNat
    let n := 5 * c / 8
    let number := base32Number ((s.text.toList.take c).map fun b => (charValue b).getD 0)
    (c = 0 ∨ 208 < c ∨ c % 8 ∈ [1, 3, 6] ∨ 128 < n →
      exec .b32dec s = .next { s with errcode := .badTextLength, done := true, seq := .idle }) ∧
    (legalTextLength c → (∃ i, i < c ∧ charValue (bufByte s.text i) = none) →
      exec .b32dec s = .next { s with errcode := .badChar, done := true, seq := .idle }) ∧
    (legalTextLength c → (∀ i, i < c → charValue (bufByte s.text i) ≠ none) →
      (number % 2 ^ (5 * c - 8 * n) ≠ 0 →
        exec .b32dec s = .next { s with errcode := .noncanonical, done := true, seq := .idle }) ∧
      (number % 2 ^ (5 * c - 8 * n) = 0 → ∃ t, exec .b32dec s = .next t ∧ CompletesAs s t .ok keyRegs ∧
        t.matched = s.matched ∧ t.keylen.toNat = n ∧
        (∀ i, i < n → (bufByte t.key i).toNat = number / 2 ^ (5 * c - 8 * n) / 2 ^ (8 * (n - 1 - i)) % 256) ∧
        (∀ i, n ≤ i → bufByte t.key i = 0)))

/-- R202: of the uppercase texts, `B32DEC` accepts exactly those `B32ENC` produces from a key of 1 to 128 bytes; the
leftover bits number 1 to 4 exactly when the length is 2, 4, 5 or 7 modulo 8; "MY" is accepted and "MZ" is not. -/
def Obligations.AcceptedTextsAreTheEncodedOnes : Prop :=
  (∀ s, (∀ b ∈ s.chars, b ∈ base32Alphabet) →
    ((∃ t, exec .b32dec s = .next t ∧ t.errcode = .ok) ↔
      ∃ key : List Byte, 1 ≤ key.length ∧ key.length ≤ 128 ∧ base32Encode key = s.chars ∧
        s.textlen.toNat = s.chars.length)) ∧
  (∀ c, legalTextLength c →
    ((1 ≤ 5 * c - 8 * (5 * c / 8) ∧ 5 * c - 8 * (5 * c / 8) ≤ 4) ↔ c % 8 ∈ [2, 4, 5, 7]) ∧
    (5 * c - 8 * (5 * c / 8) = 0 ↔ c % 8 = 0)) ∧
  base32Decode [0x4D, 0x59] = .ok [0x66] ∧ base32Decode [0x4D, 0x5A] = .error .noncanonical

/-- R203: for every key of 1 to 128 bytes, `B32ENC` then `B32DEC` completes without error, leaves `KEYLEN` and
`KEY[0..KEYLEN)` as they were and sets the key bytes above to 0x00. -/
def Obligations.EncodeThenDecodeKeepsTheKey : Prop :=
  ∀ s, 1 ≤ s.keylen.toNat → s.keylen.toNat ≤ 128 →
    ∃ t u, exec .b32enc s = .next t ∧ t.errcode = .ok ∧ exec .b32dec t = .next u ∧ u.errcode = .ok ∧
      u.keylen = s.keylen ∧ ∀ i, bufByte u.key i = if i < s.keylen.toNat then bufByte s.key i else 0

/-- R204: for every text `B32DEC` accepts, `B32ENC` after it leaves `TEXTLEN` as it was and sets the text to its uppercase
form; so `B32DEC` is injective on uppercase text. -/
def Obligations.DecodeThenEncodeGivesUppercase : Prop :=
  (∀ s t, exec .b32dec s = .next t → t.errcode = .ok →
    ∃ u, exec .b32enc t = .next u ∧ u.errcode = .ok ∧ u.textlen = s.textlen ∧
      ∀ i, i < s.textlen.toNat → bufByte u.text i = upperCase (bufByte s.text i)) ∧
  (∀ s s' t t', exec .b32dec s = .next t → exec .b32dec s' = .next t' → t.errcode = .ok → t'.errcode = .ok →
    (∀ b ∈ s.chars, b ∈ base32Alphabet) → (∀ b ∈ s'.chars, b ∈ base32Alphabet) →
    t.keylen = t'.keylen → t.key = t'.key → s.textlen = s'.textlen ∧ s.chars = s'.chars)

/-! ## Clear (45_clear.md) -/

/-- R220: `CLEAR`, word `0x00000040`, has no error, sets every operand and result register and `MATCH` to 0 and leaves
`INTEN` and `OVERRUN`; after it the commands that need operands fail as listed and `CMP` does not match. -/
def Obligations.ClearZeroesTheRegisters : Prop :=
  decode 0x00000040 = .legal .clear ∧
  ∀ s, ∃ t, exec .clear s = .next t ∧ CompletesAs s t .ok (writtenBy .clear) ∧ t.matched = false ∧
    (∀ off, regAt off ≠ .id → regAt off ≠ .inten → regAt off ≠ .status → readReg t (regAt off) = 0) ∧
    (∀ a d, a ≠ .reserved → 1 ≤ d → d ≤ 9 →
      exec (.hmac a) t = .next { t with errcode := .emptyKey, done := true, seq := .idle } ∧
      exec (.hotp a d) t = .next { t with errcode := .emptyKey, done := true, seq := .idle } ∧
      exec (.trunc d) t = .next { t with errcode := .noDigest, done := true, seq := .idle }) ∧
    exec .b32enc t = .next { t with errcode := .emptyKey, done := true, seq := .idle } ∧
    exec .b32dec t = .next { t with errcode := .badTextLength, done := true, seq := .idle } ∧
    (∃ u, exec .cmp t = .next u ∧ u.matched = false)

/-- R221: the state `CLEAR` leaves differs from the reset state only in `DONE` (set), `INTEN` and `OVERRUN` (kept); it can
raise `IRQ`; it is accepted as a command, which sets `BUSY`; and written while busy it is refused. -/
def Obligations.ClearDiffersFromResetExactly : Prop :=
  (∀ s, ∃ t, exec .clear s = .next t ∧ t.irq = (s.doneie) ∧
    t.block = { State.reset.block with
      done := true, doneie := s.doneie, errie := s.errie, overrun := s.overrun, inReset := s.inReset }) ∧
  (∀ s, s.seq = .idle → (memWrite 0x004 0x00000040 s).busy = true) ∧
  (∀ s, s.busy = true → memWrite 0x004 0x00000040 s = { s with overrun := true })

/-! ## Whole-machine rules -/

/-- Every command answers a next state; a success writes only the registers its row of the table of R50 lists, beside
`STATUS` (the spec marks R50 as derived from the commands' rules); R234: an error writes only `STATUS` and `SEQ`, and
`MATCH` and `OVERRUN` keep their values; so does the error of a word that is no command. -/
def Obligations.CommandsWriteOnlyTheirRegisters : Prop :=
  (∀ i s, ∃ t, exec i s = .next t ∧
    (t.errcode = .ok → CompletesAs s t .ok (writtenBy i)) ∧
    (t.errcode ≠ .ok → t = { s with errcode := t.errcode, done := true, seq := .idle })) ∧
  (∀ s w, s.inReset = false → s.seq = .busy w → (∀ i, decode w ≠ .legal i) →
    ∃ t, engineTurn s = .next t ∧ t.errcode ≠ .ok ∧ t = { s with errcode := t.errcode, done := true, seq := .idle })

/-- R28: a step changes `STATUS.MATCH` only by completing `CMP` or `CLEAR`, or by reset; `CMP` sets it to its result,
`CLEAR` and reset to 0, and no error completion changes it. -/
def Obligations.MatchIsWrittenOnlyByCmpClearReset : Prop :=
  (∀ s t, step s = .next t → t.matched ≠ s.matched →
    (∃ w, s.seq = .busy w ∧ (decode w = .legal .cmp ∨ decode w = .legal .clear)) ∨
    (∃ rest, s.schedule = .resetLine true :: rest)) ∧
  (∀ i s t, exec i s = .next t → t.errcode ≠ .ok → t.matched = s.matched) ∧
  (∀ i s t, exec i s = .next t → i ≠ .cmp → i ≠ .clear → t.matched = s.matched) ∧
  (∀ s, ∃ t, exec .cmp s = .next t ∧ t.matched = codeMatches s) ∧
  (∀ s, ∃ t, exec .clear s = .next t ∧ t.matched = false) ∧
  (∀ s, (setResetLine true s).matched = false)

/-- R237, in the model's order of turns (log 1): a step leaves an accepted command accepted or completes it, unless it
asserts reset; and with any number of host accesses of the window still to come and no reset, the command stays accepted
until they are over and then completes, once: no command can hang or wait. -/
def Obligations.AcceptedCommandCompletes : Prop :=
  (∀ s t w, s.seq = .busy w → step s = .next t → t.seq = .busy w ∨ (t.seq = .idle ∧ t.done = true) ∨
    ∃ rest, s.schedule = .resetLine true :: rest) ∧
  ∀ s w, s.inReset = false → s.seq = .busy w →
    (∀ turn ∈ s.schedule, ∃ a, turn = .access a ∧ turn.inWindow = true) →
    (∀ k, k ≤ s.schedule.length → ∃ u, Sys2Proof.core.run k s = .next u ∧ u.seq = .busy w) ∧
    (∃ t, Sys2Proof.core.run (s.schedule.length + 1) s = .next t ∧ t.seq = .idle ∧ t.done = true ∧
      t.schedule = [] ∧ ∀ k, Sys2Proof.core.run k t = .next t)

/-- The invariant holds right after reset. -/
def Obligations.InvariantAtReset : Prop := BlockInv State.reset

/-- Every step keeps the invariant: `DONE` and `ERRCODE` stay clear while busy, the block stays in its reset state under
reset, `DIGLEN` stays 0, 20, 32 or 64 with zeros above the digest, and `CODE` stays the `CODELEN`-digit code of `TRUNC`
with `CODELEN` at most 9. -/
def Obligations.StepKeepsTheInvariant : Prop := ∀ s t, BlockInv s → step s = .next t → BlockInv t

/-- R47, R240: `IRQ` is `DONE and (DONEIE or (ERRIE and ERRCODE != 0))` of the registers; it is cleared by writing 1 to
`DONE`, by the next acceptance, and by clearing the enables (which leaves `DONE`); a refused write, a bus error and reset
never raise it. -/
def Obligations.IrqIsALevelOfTheRegisters : Prop :=
  (∀ s : State, s.irq = ((readReg s .status).getLsbD 1 && ((readReg s .inten).getLsbD 0 ||
    ((readReg s .inten).getLsbD 1 && decide ((readReg s .status).extractLsb' 8 4 ≠ 0))))) ∧
  (∀ s v, v.getLsbD 1 = true → (memWrite 0x008 v s).irq = false) ∧
  (∀ s w, s.busy = false → (memWrite 0x004 w s).irq = false) ∧
  (∀ s, (memWrite 0x00C 0 s).irq = false ∧ (memWrite 0x00C 0 s).done = s.done) ∧
  (∀ s off v, s.busy = true → off ≠ 0x008 → off ≠ 0x00C → (memWrite off v s).irq = s.irq) ∧
  (∀ s a t off, hostAccess a s = .next t → t.reply = some (.busError off) → accessAddr a = hostAddress off →
    legalAccess (accessWidth a) off = false → t.irq = s.irq) ∧
  (∀ s, (setResetLine true s).irq = false)

/-- While a command is held, no host access changes `SEQ` or any register but `STATUS` and `INTEN`, so "the operands a
command reads at completion equal those at acceptance" (R48): this holds over any run of host accesses. -/
def Obligations.OperandsAreFixedWhileBusy : Prop :=
  ∀ k s u, s.inReset = false → s.busy = true → k ≤ s.schedule.length →
    (∀ turn ∈ s.schedule, ∃ a, turn = .access a) → Sys2Proof.core.run k s = .next u →
    u.seq = s.seq ∧ u.matched = s.matched ∧
      ∀ off, regAt off ≠ .status → regAt off ≠ .inten → readReg u (regAt off) = readReg s (regAt off)

/-- A refused write and the running command's completion, in either order, leave the same block: the first sets
`OVERRUN`, the second everything else, "and neither masks the other" (R239). -/
def Obligations.RefusedWriteCommutesWithCompletion : Prop :=
  ∀ s w off v, s.inReset = false → s.seq = .busy w → off ≠ 0x008 → off ≠ 0x00C →
    ∃ t, engineTurn s = .next t ∧ engineTurn (memWrite off v s) = .next { t with overrun := true }

/-- R238: every completion reports exactly one code, the first failing check: `ILLEGAL_CMD` for an illegal word, then the
word's fields, then the register operands in the order of the rules. -/
def Obligations.ErrorsComeInPriorityOrder : Prop :=
  ∀ s w, s.inReset = false → s.seq = .busy w →
    ∃ t, engineTurn s = .next t ∧
      (∀ why, decode w = .illegal why → t.errcode = .illegalCmd) ∧
      (∀ i, decode w = .legal i → t.errcode = firstError i s)

/-- R270: a held command's latency is at least one cycle and the same in two states that hold one word and agree on
`KEYLEN`, `TEXTLEN` and `DIGLEN`, whatever else differs; for `CMP` it is one constant (R181), for `B32ENC` it is the same
in two states that agree on `KEYLEN`, and for `B32DEC` in two that agree on `TEXTLEN` (R205). -/
def Obligations.LatencySeesOnlyTheLengths : Prop :=
  (∀ s : State, (s.latency = none ↔ s.seq = .idle) ∧ ∀ n, s.latency = some n → 1 ≤ n) ∧
  (∀ s s' : State, s.seq = s'.seq → s.keylen = s'.keylen → s.textlen = s'.textlen → s.diglen = s'.diglen →
    s.latency = s'.latency) ∧
  (∀ (s s' : State) w w', s.seq = .busy w → s'.seq = .busy w' → decode w = .legal .cmp → decode w' = .legal .cmp →
    s.latency = s'.latency) ∧
  (∀ (s s' : State) w w', s.seq = .busy w → s'.seq = .busy w' → decode w = .legal .b32enc → decode w' = .legal .b32enc →
    s.keylen = s'.keylen → s.latency = s'.latency) ∧
  (∀ (s s' : State) w w', s.seq = .busy w → s'.seq = .busy w' → decode w = .legal .b32dec → decode w' = .legal .b32dec →
    s.textlen = s'.textlen → s.latency = s'.latency)

/-- The access after an accepted `CMD` write sees `BUSY = 1` unless the command has already completed, and then it sees
`BUSY = 0` and `DONE = 1` (R69). -/
def Obligations.BusyIsSeenUntilCompletion : Prop :=
  ∀ (s : State) w, s.inReset = false → s.seq = .idle → s.schedule = [] →
    (∃ t v, Sys2Proof.core.run 2 { s with schedule := [wrTurn .cmd w, rdTurn .status] } = .next t ∧
      t.reply = some (.data v) ∧ v.getLsbD 0 = true ∧ v.getLsbD 1 = false) ∧
    (∃ t v, Sys2Proof.core.run 3 { s with schedule := [wrTurn .cmd w, .engine, rdTurn .status] } = .next t ∧
      t.reply = some (.data v) ∧ v.getLsbD 0 = false ∧ v.getLsbD 1 = true)

/-- R115 to R125: each hash function starts from its initial hash value, processes the blocks of the padded message in
order, each as the rule's rounds do, and ends by writing its words big-endian; the constants and initial values of the
SHA-2 functions are the root fractions the tables are said to be. (The padding and the words of a block are
`PaddingIsTheLeastThatFits`, R111 and R112.) -/
def Obligations.HashFunctionsProcessTheirBlocks : Prop :=
  (∀ h block, block.length = 64 → Sha1Computes (blockWords 32 block) h (sha1Block h block)) ∧
  (∀ h block, block.length = 64 → Sha2Computes
    (fun x => x.rotateRight 2 ^^^ x.rotateRight 13 ^^^ x.rotateRight 22)
    (fun x => x.rotateRight 6 ^^^ x.rotateRight 11 ^^^ x.rotateRight 25)
    (fun x => x.rotateRight 7 ^^^ x.rotateRight 18 ^^^ (x >>> 3))
    (fun x => x.rotateRight 17 ^^^ x.rotateRight 19 ^^^ (x >>> 10))
    sha256K 64 (blockWords 32 block) h (sha2Block sha256Params h block)) ∧
  (∀ h block, block.length = 128 → Sha2Computes
    (fun x => x.rotateRight 28 ^^^ x.rotateRight 34 ^^^ x.rotateRight 39)
    (fun x => x.rotateRight 14 ^^^ x.rotateRight 18 ^^^ x.rotateRight 41)
    (fun x => x.rotateRight 1 ^^^ x.rotateRight 8 ^^^ (x >>> 7))
    (fun x => x.rotateRight 19 ^^^ x.rotateRight 61 ^^^ (x >>> 6))
    sha512K 80 (blockWords 64 block) h (sha2Block sha512Params h block)) ∧
  (∀ m, ∃ h, h = (splitBytes 64 (padMessage 64 8 m)).foldl sha1Block
      { a := 0x67452301, b := 0xEFCDAB89, c := 0x98BADCFE, d := 0x10325476, e := 0xC3D2E1F0 } ∧
    hash .sha1 m = beBytes 4 h.a.toNat ++ beBytes 4 h.b.toNat ++ beBytes 4 h.c.toNat ++ beBytes 4 h.d.toNat ++
      beBytes 4 h.e.toNat) ∧
  (∀ m, ∃ h, h = (splitBytes 64 (padMessage 64 8 m)).foldl (sha2Block sha256Params)
      { a := 0x6A09E667, b := 0xBB67AE85, c := 0x3C6EF372, d := 0xA54FF53A, e := 0x510E527F, f := 0x9B05688C
        g := 0x1F83D9AB, h := 0x5BE0CD19 } ∧
    hash .sha256 m = beBytes 4 h.a.toNat ++ beBytes 4 h.b.toNat ++ beBytes 4 h.c.toNat ++ beBytes 4 h.d.toNat ++
      beBytes 4 h.e.toNat ++ beBytes 4 h.f.toNat ++ beBytes 4 h.g.toNat ++ beBytes 4 h.h.toNat) ∧
  (∀ m, ∃ h, h = (splitBytes 128 (padMessage 128 16 m)).foldl (sha2Block sha512Params)
      { a := 0x6A09E667F3BCC908, b := 0xBB67AE8584CAA73B, c := 0x3C6EF372FE94F82B, d := 0xA54FF53A5F1D36F1
        e := 0x510E527FADE682D1, f := 0x9B05688C2B3E6C1F, g := 0x1F83D9ABFB41BD6B, h := 0x5BE0CD19137E2179 } ∧
    hash .sha512 m = beBytes 8 h.a.toNat ++ beBytes 8 h.b.toNat ++ beBytes 8 h.c.toNat ++ beBytes 8 h.d.toNat ++
      beBytes 8 h.e.toNat ++ beBytes 8 h.f.toNat ++ beBytes 8 h.g.toNat ++ beBytes 8 h.h.toNat) ∧
  ((primesBelow 410).length = 80 ∧ sha256K.length = 64 ∧ sha512K.length = 80 ∧
    (∀ t, t < 64 → RootFraction 3 32 ((primesBelow 410).getD t 0) (sha256K.getD t 0).toNat) ∧
    (∀ t, t < 80 → RootFraction 3 64 ((primesBelow 410).getD t 0) (sha512K.getD t 0).toNat)) ∧
  ((∀ t, t < 8 → RootFraction 2 32 ((primesBelow 410).getD t 0)
      (([0x6A09E667, 0xBB67AE85, 0x3C6EF372, 0xA54FF53A, 0x510E527F, 0x9B05688C, 0x1F83D9AB, 0x5BE0CD19] :
        List Nat).getD t 0)) ∧
    (∀ t, t < 8 → RootFraction 2 64 ((primesBelow 410).getD t 0)
      (([0x6A09E667F3BCC908, 0xBB67AE8584CAA73B, 0x3C6EF372FE94F82B, 0xA54FF53A5F1D36F1, 0x510E527FADE682D1,
        0x9B05688C2B3E6C1F, 0x1F83D9ABFB41BD6B, 0x5BE0CD19137E2179] : List Nat).getD t 0)))
end

