-- ==== Sys2Proof/Laws/Bytes.lean ====
section
/-! SUPPORT. The lemmas of the byte strings and buffers of Machine/Bytes.lean: lengths, bytes, the two directions of the
big-endian form (00_scope.md R11), and the packing of buffers into registers (10_state.md R40). -/

namespace Sys2Proof.Machine

/-! ## Big-endian byte strings -/

@[simp] theorem length_beBytes (n v : Nat) : (beBytes n v).length = n := by simp [beBytes]

theorem byteAt_beBytes {n i : Nat} (h : i < n) (v : Nat) :
    byteAt (beBytes n v) i = BitVec.ofNat 8 (v >>> (8 * (n - 1 - i))) := by
  simp [byteAt, beBytes, List.getD, h]

theorem byteAt_of_length_le {bs : List Byte} {i : Nat} (h : bs.length ≤ i) : byteAt bs i = 0 := by
  simp [byteAt, List.getD, h]

theorem byteAt_eq_getElem {bs : List Byte} {i : Nat} (h : i < bs.length) : byteAt bs i = bs[i] := by
  simp [byteAt, List.getD, h]

theorem byteAt_append_left {as bs : List Byte} {i : Nat} (h : i < as.length) : byteAt (as ++ bs) i = byteAt as i := by
  simp [byteAt, List.getD, List.getElem?_append_left h]

theorem byteAt_append_right {as bs : List Byte} {i : Nat} (h : as.length ≤ i) :
    byteAt (as ++ bs) i = byteAt bs (i - as.length) := by
  simp [byteAt, List.getD, List.getElem?_append_right h]

theorem byteAt_take {bs : List Byte} {n i : Nat} (h : i < n) : byteAt (bs.take n) i = byteAt bs i := by
  simp [byteAt, List.getD, h]

theorem byteAt_drop (bs : List Byte) (n i : Nat) : byteAt (bs.drop n) i = byteAt bs (n + i) := by
  simp [byteAt, List.getD]

/-- Two byte strings of one length with equal bytes are equal. -/
theorem bytes_ext {as bs : List Byte} (hl : as.length = bs.length) (h : ∀ i < as.length, byteAt as i = byteAt bs i) :
    as = bs := by
  apply List.ext_getElem hl
  intro i h1 h2
  rw [← byteAt_eq_getElem h1, ← byteAt_eq_getElem h2]
  exact h i h1

@[simp] theorem fromBE_nil : fromBE [] = 0 := rfl

theorem fromBE_foldl (bs : List Byte) (a : Nat) :
    bs.foldl (fun acc b => acc * 256 + b.toNat) a = a * 256 ^ bs.length + fromBE bs := by
  induction bs generalizing a with
  | nil => simp
  | cons b bs ih =>
    simp only [fromBE, List.foldl_cons, List.length_cons, Nat.pow_succ]
    rw [ih, ih (0 * 256 + b.toNat)]
    ring

theorem fromBE_cons (b : Byte) (bs : List Byte) : fromBE (b :: bs) = b.toNat * 256 ^ bs.length + fromBE bs := by
  have h := fromBE_foldl bs (0 * 256 + b.toNat)
  simpa [fromBE] using h

theorem fromBE_append (as bs : List Byte) : fromBE (as ++ bs) = fromBE as * 256 ^ bs.length + fromBE bs := by
  have h := fromBE_foldl bs (fromBE as)
  rwa [fromBE, ← List.foldl_append] at h

theorem fromBE_lt (bs : List Byte) : fromBE bs < 256 ^ bs.length := by
  induction bs with
  | nil => simp
  | cons b bs ih =>
    rw [fromBE_cons, List.length_cons, Nat.pow_succ]
    have hb : b.toNat < 256 := b.isLt
    nlinarith

/-- `BE_(n+1)(v)` is the top byte, then `BE_n(v)`. -/
theorem beBytes_succ (n v : Nat) : beBytes (n + 1) v = BitVec.ofNat 8 (v >>> (8 * n)) :: beBytes n v := by
  simp only [beBytes, List.range_succ_eq_map, List.map_cons, List.map_map]
  congr 1
  apply List.map_congr_left
  intro i _
  have : n + 1 - 1 - Nat.succ i = n - 1 - i := by omega
  simp only [Function.comp_apply, this]

/-- `fromBE` undoes `BE_n` up to the width (00_scope.md R11). -/
theorem fromBE_beBytes_mod (n v : Nat) : fromBE (beBytes n v) = v % 256 ^ n := by
  induction n with
  | zero => simp [beBytes, Nat.mod_one]
  | succ n ih =>
    rw [beBytes_succ, fromBE_cons, length_beBytes, ih, BitVec.toNat_ofNat, Nat.shiftRight_eq_div_pow, Nat.pow_mul]
    change v / 256 ^ n % 256 * 256 ^ n + v % 256 ^ n = v % (256 ^ n * 256)
    rw [Nat.mod_mul, Nat.mul_comm, Nat.add_comm]

/-- "`fromBE(s)` is its inverse" (00_scope.md R11). -/
theorem fromBE_beBytes {n v : Nat} (h : v < 256 ^ n) : fromBE (beBytes n v) = v := by
  rw [fromBE_beBytes_mod, Nat.mod_eq_of_lt h]

/-- The bytes of a value do not see what stands above them. -/
theorem beBytes_add_mul (n q v : Nat) : beBytes n (q * 256 ^ n + v) = beBytes n v := by
  simp only [beBytes]
  apply List.map_congr_left
  intro i hi
  have hi : i < n := List.mem_range.mp hi
  apply BitVec.eq_of_toNat_eq
  simp only [BitVec.toNat_ofNat, Nat.shiftRight_eq_div_pow, Nat.pow_mul]
  norm_num
  have hn : 256 ^ n = 256 ^ (n - 1 - i) * (256 ^ i * 256) := by
    rw [← Nat.pow_succ, ← Nat.pow_add]
    congr 1
    omega
  rw [hn, show q * (256 ^ (n - 1 - i) * (256 ^ i * 256)) + v = v + 256 ^ (n - 1 - i) * (q * 256 ^ i * 256) by ring,
    Nat.add_mul_div_left _ _ (by positivity)]
  omega

/-- `BE` undoes `fromBE` (00_scope.md R11). -/
theorem beBytes_fromBE (bs : List Byte) : beBytes bs.length (fromBE bs) = bs := by
  induction bs with
  | nil => rfl
  | cons b bs ih =>
    rw [List.length_cons, beBytes_succ, fromBE_cons, beBytes_add_mul, ih]
    congr 1
    apply BitVec.eq_of_toNat_eq
    have hb : b.toNat < 256 := b.isLt
    have hp : 0 < 256 ^ bs.length := by positivity
    rw [BitVec.toNat_ofNat, Nat.shiftRight_eq_div_pow, Nat.pow_mul]
    norm_num
    rw [Nat.add_comm, Nat.add_mul_div_right _ _ hp, Nat.div_eq_of_lt (fromBE_lt bs)]
    omega

/-! ## Zero-filled buffers -/

@[simp] theorem fitTo_length (n : Nat) (bs : List Byte) : (fitTo n bs).length = n := length_fitTo n bs

theorem byteAt_fitTo (n : Nat) (bs : List Byte) (i : Nat) :
    byteAt (fitTo n bs) i = if i < n then byteAt bs i else 0 := by
  induction n generalizing bs i with
  | zero => simp [fitTo, byteAt]
  | succ n ih =>
    cases bs with
    | nil =>
      cases i with
      | zero => simp [fitTo, byteAt]
      | succ i => simpa [fitTo, byteAt] using ih [] i
    | cons b bs =>
      cases i with
      | zero => simp [fitTo, byteAt]
      | succ i => simpa [fitTo, byteAt] using ih bs i

theorem fitTo_of_length {n : Nat} {bs : List Byte} (h : bs.length = n) : fitTo n bs = bs := by
  apply bytes_ext (by simp [h])
  intro i hi
  rw [byteAt_fitTo, if_pos (by simpa using hi)]

@[simp] theorem zeroFill_toList (n : Nat) (bs : List Byte) : (zeroFill n bs).toList = fitTo n bs := rfl

/-- Byte `i` of a zero-filled buffer. -/
theorem bufByte_zeroFill (n : Nat) (bs : List Byte) (i : Nat) :
    bufByte (zeroFill n bs) i = if i < n then byteAt bs i else 0 := by
  rw [bufByte, zeroFill_toList, byteAt_fitTo]

theorem bufByte_of_le {n i : Nat} (buf : Vector Byte n) (h : n ≤ i) : bufByte buf i = 0 :=
  byteAt_of_length_le (by simpa using h)

theorem bufByte_eq_getElem {n i : Nat} (buf : Vector Byte n) (h : i < n) : bufByte buf i = buf[i] := by
  rw [bufByte, byteAt_eq_getElem (by simpa using h)]
  simp

@[simp] theorem bufByte_replicate (n i : Nat) : bufByte (Vector.replicate n (0 : Byte)) i = 0 := by
  by_cases h : i < n
  · rw [bufByte_eq_getElem _ h]; simp
  · exact bufByte_of_le _ (by omega)

/-- Buffers with equal bytes are equal. -/
theorem buf_ext {n : Nat} {a b : Vector Byte n} (h : ∀ i < n, bufByte a i = bufByte b i) : a = b := by
  apply Vector.ext
  intro i hi
  rw [← bufByte_eq_getElem a hi, ← bufByte_eq_getElem b hi]
  exact h i hi

/-- A buffer is what its own bytes fill. -/
@[simp] theorem zeroFill_of_toList {n : Nat} (buf : Vector Byte n) : zeroFill n buf.toList = buf := by
  apply buf_ext
  intro i hi
  rw [bufByte_zeroFill, if_pos hi, bufByte]

@[simp] theorem zeroFill_nil (n : Nat) : zeroFill n [] = Vector.replicate n (0 : Byte) := by
  apply buf_ext
  intro i hi
  rw [bufByte_zeroFill, bufByte_replicate]
  simp [byteAt]

/-! ## Words and their bytes -/

@[simp] theorem packWord_wordBytes (v : Word) :
    packWord (v.extractLsb' 24 8) (v.extractLsb' 16 8) (v.extractLsb' 8 8) (v.extractLsb' 0 8) = v := by
  apply BitVec.eq_of_getLsbD_eq
  intro i hi
  simp only [packWord, BitVec.getLsbD_append, BitVec.getLsbD_extractLsb']
  split
  · simp; omega
  · split
    · simp only [show i - 8 < 8 by omega, decide_true, Bool.true_and]; congr 1; omega
    · split
      · simp only [show i - 8 - 8 < 8 by omega, decide_true, Bool.true_and]; congr 1; omega
      · simp only [show i - 8 - 8 - 8 < 8 by omega, decide_true, Bool.true_and]; congr 1; omega

/-- The value of a packed word (10_state.md R40). -/
theorem packWord_toNat (a b c d : Byte) :
    (packWord a b c d).toNat = ((a.toNat * 256 + b.toNat) * 256 + c.toNat) * 256 + d.toNat := by
  have shl (x : Nat) (y : Byte) : x <<< 8 ||| y.toNat = x * 256 + y.toNat := by
    rw [← Nat.shiftLeft_add_eq_or_of_lt y.isLt, Nat.shiftLeft_eq]
  simp only [packWord, BitVec.toNat_append, shl]

/-- The bytes of a packed word: its register determines them (10_state.md R40). -/
theorem packWord_inj {a b c d a' b' c' d' : Byte} (h : packWord a b c d = packWord a' b' c' d') :
    a = a' ∧ b = b' ∧ c = c' ∧ d = d' := by
  have h := congrArg BitVec.toNat h
  rw [packWord_toNat, packWord_toNat] at h
  refine ⟨?_, ?_, ?_, ?_⟩ <;> apply BitVec.eq_of_toNat_eq <;> omega

/-- Which byte a write of register `k` leaves at `i` (10_state.md R40). -/
theorem bufByte_setBufWord {n k i : Nat} (buf : Vector Byte n) (v : Word) (hk : 4 * k + 4 ≤ n) :
    bufByte (setBufWord buf k v) i =
      if i / 4 = k then byteAt (wordBytes v) (i % 4) else bufByte buf i := by
  rw [setBufWord, bufByte_zeroFill]
  have hl : (buf.toList.take (4 * k)).length = 4 * k := by simp; omega
  by_cases hi : i < n
  · rw [if_pos hi]
    by_cases h : i < 4 * k
    · rw [if_neg (by omega), List.append_assoc, byteAt_append_left (by omega), byteAt_take h, bufByte]
    · rw [List.append_assoc, byteAt_append_right (by omega), hl]
      by_cases h4 : i < 4 * k + 4
      · rw [if_pos (by omega), byteAt_append_left (by simp [wordBytes]; omega)]
        congr 1
        omega
      · rw [if_neg (by omega), byteAt_append_right (by simp [wordBytes]; omega), byteAt_drop, bufByte]
        congr 1
        simp [wordBytes]
        omega
  · rw [if_neg hi, if_neg (by omega), bufByte_of_le buf (by omega)]

/-- A register of a buffer holds what was last written to it. -/
theorem bufWord_setBufWord_same {n k : Nat} (buf : Vector Byte n) (v : Word) (hk : 4 * k + 4 ≤ n) :
    bufWord (setBufWord buf k v) k = v := by
  simp only [bufWord, bufByte_setBufWord buf v hk]
  rw [if_pos (by omega), if_pos (by omega), if_pos (by omega), if_pos (by omega)]
  rw [show 4 * k % 4 = 0 by omega, show (4 * k + 1) % 4 = 1 by omega, show (4 * k + 2) % 4 = 2 by omega,
    show (4 * k + 3) % 4 = 3 by omega]
  exact packWord_wordBytes v

/-- A write of one register of a buffer leaves its other registers alone. -/
theorem bufWord_setBufWord_ne {n k j : Nat} (buf : Vector Byte n) (v : Word) (hk : 4 * k + 4 ≤ n) (h : j ≠ k) :
    bufWord (setBufWord buf k v) j = bufWord buf j := by
  simp only [bufWord, bufByte_setBufWord buf v hk]
  rw [if_neg (by omega), if_neg (by omega), if_neg (by omega), if_neg (by omega)]

end Sys2Proof.Machine
end

