-- ==== Sys2Proof/Laws/Hash.lean ====
section
/-! SUPPORT. Lengths of padded messages, digests and macs, and the message schedules as lists (41_hmac.md R110 to R130). -/

namespace Sys2Proof.Machine

@[simp] theorem length_padMessage (block lenBytes : Nat) (m : List Byte) :
    (padMessage block lenBytes m).length = m.length + 1 + padZeros block lenBytes m.length + lenBytes := by
  simp [padMessage]
  omega

/-- How many pieces `splitBytes` cuts. -/
@[simp] theorem length_splitBytes (size : Nat) (bs : List Byte) : (splitBytes size bs).length = bs.length / size := by
  simp [splitBytes]

@[simp] theorem length_blockWords (n : Nat) (b : List Byte) : (blockWords n b).length = b.length / (n / 8) := by
  simp [blockWords]

@[simp] theorem length_extendSchedule {n : Nat} (next : List (BitVec n) → BitVec n) (count : Nat)
    (ws : List (BitVec n)) : (extendSchedule next count ws).length = ws.length + count := by
  induction count generalizing ws with
  | zero => rfl
  | succ count ih => rw [extendSchedule, ih, List.length_cons]; omega

@[simp] theorem length_hashSchedule {n : Nat} (next : List (BitVec n) → BitVec n) (count : Nat)
    (ws : List (BitVec n)) : (hashSchedule next count ws).length = ws.length + count := by
  simp [hashSchedule]

@[simp] theorem length_sha1Digest (h : Sha1Words) : (sha1Digest h).length = 20 := by simp [sha1Digest]

@[simp] theorem length_sha1 (m : List Byte) : (sha1 m).length = 20 := length_sha1Digest _

@[simp] theorem length_sha2Digest {n : Nat} (h : Sha2Words n) : (sha2Digest h).length = 8 * (n / 8) := by
  simp only [sha2Digest, List.length_append, length_beBytes]
  omega

@[simp] theorem length_sha256 (m : List Byte) : (sha256 m).length = 32 := length_sha2Digest _

@[simp] theorem length_sha512 (m : List Byte) : (sha512 m).length = 64 := length_sha2Digest _

/-- A digest has `DL` bytes (30_encoding.md R81). -/
@[simp] theorem length_hash (h : HashAlg) (m : List Byte) : (hash h m).length = digestLength h := by
  cases h <;> simp [hash, digestLength]

/-- "The result has `DL` bytes" (41_hmac.md R130). -/
@[simp] theorem length_hmac (h : HashAlg) (k m : List Byte) : (hmac h k m).length = digestLength h := by
  simp [hmac]

@[simp] theorem length_hmacKey (h : HashAlg) (k : List Byte) : (hmacKey h k).length = blockLength h := by
  unfold hmacKey
  split <;> simp

/-- A digest length is 20, 32 or 64 (30_encoding.md R81). -/
theorem digestLength_mem (h : HashAlg) : digestLength h ∈ [20, 32, 64] := by cases h <;> decide

theorem digestLength_le (h : HashAlg) : digestLength h ≤ 64 := by cases h <;> decide

@[simp] theorem toNat_digestLength (h : HashAlg) : (BitVec.ofNat 8 (digestLength h)).toNat = digestLength h := by
  cases h <;> rfl

/-! ## Blocks (41_hmac.md R111, R112) -/

/-- A byte string of whole pieces is cut into pieces of their size, and nothing is lost. -/
theorem splitBytes_spec {size : Nat} {bs : List Byte} (hs : 0 < size) (h : bs.length % size = 0) :
    (splitBytes size bs).flatten = bs ∧ ∀ b ∈ splitBytes size bs, b.length = size := by
  have hq : bs.length = bs.length / size * size := (Nat.div_mul_cancel (Nat.dvd_of_mod_eq_zero h)).symm
  constructor
  · have go : ∀ q (bs : List Byte), bs.length = q * size →
        ((List.range q).map fun i => (bs.drop (i * size)).take size).flatten = bs := by
      intro q
      induction q with
      | zero => intro bs h; simpa using (by simpa using h : bs = []).symm
      | succ q ih =>
        intro bs h
        have next := ih (bs.drop size) (by rw [List.length_drop, h, Nat.succ_mul]; omega)
        simp only [List.drop_drop] at next
        rw [List.range_succ_eq_map, List.map_cons, List.flatten_cons, List.map_map]
        simp only [Function.comp_def, Nat.succ_mul, Nat.zero_mul, List.drop_zero]
        simp only [Nat.add_comm size] at next
        rw [next, List.take_append_drop]
    exact go _ bs hq
  · intro b hb
    simp only [splitBytes, List.mem_map, List.mem_range] at hb
    obtain ⟨i, hi, rfl⟩ := hb
    have hle : (i + 1) * size ≤ bs.length / size * size := Nat.mul_le_mul_right _ hi
    rw [List.length_take, List.length_drop]
    rw [Nat.succ_mul] at hle
    omega

/-! ## Schedules (41_hmac.md R117, R121, R125) -/

/-- Every word beyond a block's own is `next` of the words before it, newest first. -/
theorem hashSchedule_reverse {n : Nat} (next : List (BitVec n) → BitVec n) (count : Nat) (ws : List (BitVec n)) :
    (hashSchedule next count ws.reverse).take ws.length = ws.reverse ∧
    ∀ t, ws.length ≤ t → t < ws.length + count → (hashSchedule next count ws.reverse).getD t 0 =
      next ((hashSchedule next count ws.reverse).take t).reverse := by
  induction count generalizing ws with
  | zero => exact ⟨by simp [hashSchedule, extendSchedule], fun t h1 h2 => by omega⟩
  | succ count ih =>
    obtain ⟨a, b⟩ := ih (next ws :: ws)
    have e : hashSchedule next count (next ws :: ws).reverse = hashSchedule next (count + 1) ws.reverse := by
      simp [hashSchedule, extendSchedule]
    rw [e] at a b
    have a' : List.take ws.length (hashSchedule next (count + 1) ws.reverse) = ws.reverse := by
      have := congrArg (List.take ws.length) a
      rw [List.take_take] at this
      simpa using this
    refine ⟨a', fun t h1 h2 => ?_⟩
    rcases Nat.eq_or_lt_of_le h1 with h | h
    · subst h
      rw [a', List.reverse_reverse]
      have cut : (hashSchedule next (count + 1) ws.reverse).getD ws.length 0 =
          (List.take (ws.length + 1) (hashSchedule next (count + 1) ws.reverse)).getD ws.length 0 := by
        simp [List.getD]
      rw [cut, show ws.length + 1 = (next ws :: ws).length from rfl, a]
      simp [List.getD]
    · exact b t h (by simp only [List.length_cons]; omega)

/-- The first words of a schedule are the block's, each later one is `next` of the words before it, newest first. -/
theorem hashSchedule_spec {n : Nat} (next : List (BitVec n) → BitVec n) (count : Nat) (ws : List (BitVec n)) :
    (∀ t, t < ws.length → (hashSchedule next count ws).getD t 0 = ws.getD t 0) ∧
    ∀ t, ws.length ≤ t → t < ws.length + count →
      (hashSchedule next count ws).getD t 0 = next ((hashSchedule next count ws).take t).reverse := by
  obtain ⟨a, b⟩ := hashSchedule_reverse next count ws.reverse
  simp only [List.reverse_reverse, List.length_reverse] at a b
  refine ⟨fun t ht => ?_, b⟩
  have cut : (List.take ws.length (hashSchedule next count ws)).getD t 0 = (hashSchedule next count ws).getD t 0 := by
    simp only [List.getD, List.getElem?_take, if_pos ht]
  rw [← cut, a]

/-- `W[t-j]` of the words before `W[t]`. -/
theorem wordBack_take_reverse {n : Nat} {l : List (BitVec n)} {t j : Nat} (ht : t ≤ l.length) (h1 : 1 ≤ j) (h : j ≤ t) :
    wordBack (l.take t).reverse j = l.getD (t - j) 0 := by
  simp only [wordBack, List.getD]
  congr 1
  rw [List.getElem?_reverse (by simp; omega), List.getElem?_take, List.length_take, if_pos (by omega)]
  congr 1
  omega

/-! ## Rounds (41_hmac.md R117, R121, R125) -/

/-- The SHA-1 rounds over a schedule are its rounds one after another: `a` to `e` before round `t` are those after the
first `t` words. -/
theorem sha1Rounds_take_succ (v : Sha1Words) {ws : List Word} {t : Nat} (h : t < ws.length) :
    sha1Rounds 0 (ws.take (t + 1)) v = sha1Round (sha1Rounds 0 (ws.take t) v) t (ws.getD t 0) := by
  have go : ∀ (ws : List Word) (t k : Nat) (v : Sha1Words), t < ws.length →
      sha1Rounds k (ws.take (t + 1)) v = sha1Round (sha1Rounds k (ws.take t) v) (k + t) (ws.getD t 0) := by
    intro ws
    induction ws with
    | nil => intro t k v h; simp at h
    | cons w ws ih =>
      intro t k v h
      cases t with
      | zero => rfl
      | succ t =>
        have e := ih t (k + 1) (sha1Round v k w) (by simpa using h)
        rw [show k + 1 + t = k + (t + 1) by omega] at e
        simpa [sha1Rounds] using e
  simpa using go ws t 0 v h

/-- The SHA-2 rounds over constants and a schedule of one length are its rounds one after another. -/
theorem sha2Rounds_take_succ {n : Nat} (p : Sha2Params n) (v : Sha2Words n) {ks ws : List (BitVec n)} {t : Nat}
    (hk : t < ks.length) (hw : t < ws.length) :
    sha2Rounds p (ks.take (t + 1)) (ws.take (t + 1)) v =
      sha2Round p (sha2Rounds p (ks.take t) (ws.take t) v) (ks.getD t 0) (ws.getD t 0) := by
  induction t generalizing ks ws v with
  | zero =>
    cases ks with
    | nil => simp at hk
    | cons k ks =>
      cases ws with
      | nil => simp at hw
      | cons w ws => simp [sha2Rounds]
  | succ t ih =>
    cases ks with
    | nil => simp at hk
    | cons k ks =>
      cases ws with
      | nil => simp at hw
      | cons w ws =>
        simpa [sha2Rounds] using ih (sha2Round p v k w) (ks := ks) (ws := ws) (by simpa using hk) (by simpa using hw)

end Sys2Proof.Machine
end

