-- ==== Sys2Proof/Laws/State.lean ====
section
/-! SUPPORT. One lemma for each field of State and each update of it: what the field holds afterwards. All are true by
`rfl` and tagged `@[simp]`, so that no later proof unfolds a record update. -/

namespace Sys2Proof.Machine

/-! ## accept: acceptance (60_exceptions.md R233) -/

@[simp] theorem accept_seq (w : Word) (s : State) : (accept w s).seq = .busy w := rfl
@[simp] theorem accept_done (w : Word) (s : State) : (accept w s).done = false := rfl
@[simp] theorem accept_matched (w : Word) (s : State) : (accept w s).matched = s.matched := rfl
@[simp] theorem accept_overrun (w : Word) (s : State) : (accept w s).overrun = s.overrun := rfl
@[simp] theorem accept_errcode (w : Word) (s : State) : (accept w s).errcode = .ok := rfl
@[simp] theorem accept_doneie (w : Word) (s : State) : (accept w s).doneie = s.doneie := rfl
@[simp] theorem accept_errie (w : Word) (s : State) : (accept w s).errie = s.errie := rfl
@[simp] theorem accept_keylen (w : Word) (s : State) : (accept w s).keylen = s.keylen := rfl
@[simp] theorem accept_textlen (w : Word) (s : State) : (accept w s).textlen = s.textlen := rfl
@[simp] theorem accept_sublen (w : Word) (s : State) : (accept w s).sublen = s.sublen := rfl
@[simp] theorem accept_codelen (w : Word) (s : State) : (accept w s).codelen = s.codelen := rfl
@[simp] theorem accept_diglen (w : Word) (s : State) : (accept w s).diglen = s.diglen := rfl
@[simp] theorem accept_trunc (w : Word) (s : State) : (accept w s).trunc = s.trunc := rfl
@[simp] theorem accept_ctrHi (w : Word) (s : State) : (accept w s).ctrHi = s.ctrHi := rfl
@[simp] theorem accept_ctrLo (w : Word) (s : State) : (accept w s).ctrLo = s.ctrLo := rfl
@[simp] theorem accept_msg (w : Word) (s : State) : (accept w s).msg = s.msg := rfl
@[simp] theorem accept_code (w : Word) (s : State) : (accept w s).code = s.code := rfl
@[simp] theorem accept_submit (w : Word) (s : State) : (accept w s).submit = s.submit := rfl
@[simp] theorem accept_digest (w : Word) (s : State) : (accept w s).digest = s.digest := rfl
@[simp] theorem accept_key (w : Word) (s : State) : (accept w s).key = s.key := rfl
@[simp] theorem accept_text (w : Word) (s : State) : (accept w s).text = s.text := rfl
@[simp] theorem accept_inReset (w : Word) (s : State) : (accept w s).inReset = s.inReset := rfl
@[simp] theorem accept_schedule (w : Word) (s : State) : (accept w s).schedule = s.schedule := rfl
@[simp] theorem accept_reply (w : Word) (s : State) : (accept w s).reply = s.reply := rfl
@[simp] theorem accept_draws (w : Word) (s : State) : (accept w s).draws = s.draws := rfl

/-! ## setOverrun: a refused write (10_state.md R29) -/

@[simp] theorem setOverrun_seq (s : State) : (setOverrun s).seq = s.seq := rfl
@[simp] theorem setOverrun_done (s : State) : (setOverrun s).done = s.done := rfl
@[simp] theorem setOverrun_matched (s : State) : (setOverrun s).matched = s.matched := rfl
@[simp] theorem setOverrun_overrun (s : State) : (setOverrun s).overrun = true := rfl
@[simp] theorem setOverrun_errcode (s : State) : (setOverrun s).errcode = s.errcode := rfl
@[simp] theorem setOverrun_doneie (s : State) : (setOverrun s).doneie = s.doneie := rfl
@[simp] theorem setOverrun_errie (s : State) : (setOverrun s).errie = s.errie := rfl
@[simp] theorem setOverrun_keylen (s : State) : (setOverrun s).keylen = s.keylen := rfl
@[simp] theorem setOverrun_textlen (s : State) : (setOverrun s).textlen = s.textlen := rfl
@[simp] theorem setOverrun_sublen (s : State) : (setOverrun s).sublen = s.sublen := rfl
@[simp] theorem setOverrun_codelen (s : State) : (setOverrun s).codelen = s.codelen := rfl
@[simp] theorem setOverrun_diglen (s : State) : (setOverrun s).diglen = s.diglen := rfl
@[simp] theorem setOverrun_trunc (s : State) : (setOverrun s).trunc = s.trunc := rfl
@[simp] theorem setOverrun_ctrHi (s : State) : (setOverrun s).ctrHi = s.ctrHi := rfl
@[simp] theorem setOverrun_ctrLo (s : State) : (setOverrun s).ctrLo = s.ctrLo := rfl
@[simp] theorem setOverrun_msg (s : State) : (setOverrun s).msg = s.msg := rfl
@[simp] theorem setOverrun_code (s : State) : (setOverrun s).code = s.code := rfl
@[simp] theorem setOverrun_submit (s : State) : (setOverrun s).submit = s.submit := rfl
@[simp] theorem setOverrun_digest (s : State) : (setOverrun s).digest = s.digest := rfl
@[simp] theorem setOverrun_key (s : State) : (setOverrun s).key = s.key := rfl
@[simp] theorem setOverrun_text (s : State) : (setOverrun s).text = s.text := rfl
@[simp] theorem setOverrun_inReset (s : State) : (setOverrun s).inReset = s.inReset := rfl
@[simp] theorem setOverrun_schedule (s : State) : (setOverrun s).schedule = s.schedule := rfl
@[simp] theorem setOverrun_reply (s : State) : (setOverrun s).reply = s.reply := rfl
@[simp] theorem setOverrun_draws (s : State) : (setOverrun s).draws = s.draws := rfl

/-! ## raiseError: an error completion (60_exceptions.md R234) -/

@[simp] theorem raiseError_seq (e : ErrCode) (s : State) : (raiseError e s).seq = .idle := rfl
@[simp] theorem raiseError_done (e : ErrCode) (s : State) : (raiseError e s).done = true := rfl
@[simp] theorem raiseError_matched (e : ErrCode) (s : State) : (raiseError e s).matched = s.matched := rfl
@[simp] theorem raiseError_overrun (e : ErrCode) (s : State) : (raiseError e s).overrun = s.overrun := rfl
@[simp] theorem raiseError_errcode (e : ErrCode) (s : State) : (raiseError e s).errcode = e := rfl
@[simp] theorem raiseError_doneie (e : ErrCode) (s : State) : (raiseError e s).doneie = s.doneie := rfl
@[simp] theorem raiseError_errie (e : ErrCode) (s : State) : (raiseError e s).errie = s.errie := rfl
@[simp] theorem raiseError_keylen (e : ErrCode) (s : State) : (raiseError e s).keylen = s.keylen := rfl
@[simp] theorem raiseError_textlen (e : ErrCode) (s : State) : (raiseError e s).textlen = s.textlen := rfl
@[simp] theorem raiseError_sublen (e : ErrCode) (s : State) : (raiseError e s).sublen = s.sublen := rfl
@[simp] theorem raiseError_codelen (e : ErrCode) (s : State) : (raiseError e s).codelen = s.codelen := rfl
@[simp] theorem raiseError_diglen (e : ErrCode) (s : State) : (raiseError e s).diglen = s.diglen := rfl
@[simp] theorem raiseError_trunc (e : ErrCode) (s : State) : (raiseError e s).trunc = s.trunc := rfl
@[simp] theorem raiseError_ctrHi (e : ErrCode) (s : State) : (raiseError e s).ctrHi = s.ctrHi := rfl
@[simp] theorem raiseError_ctrLo (e : ErrCode) (s : State) : (raiseError e s).ctrLo = s.ctrLo := rfl
@[simp] theorem raiseError_msg (e : ErrCode) (s : State) : (raiseError e s).msg = s.msg := rfl
@[simp] theorem raiseError_code (e : ErrCode) (s : State) : (raiseError e s).code = s.code := rfl
@[simp] theorem raiseError_submit (e : ErrCode) (s : State) : (raiseError e s).submit = s.submit := rfl
@[simp] theorem raiseError_digest (e : ErrCode) (s : State) : (raiseError e s).digest = s.digest := rfl
@[simp] theorem raiseError_key (e : ErrCode) (s : State) : (raiseError e s).key = s.key := rfl
@[simp] theorem raiseError_text (e : ErrCode) (s : State) : (raiseError e s).text = s.text := rfl
@[simp] theorem raiseError_inReset (e : ErrCode) (s : State) : (raiseError e s).inReset = s.inReset := rfl
@[simp] theorem raiseError_schedule (e : ErrCode) (s : State) : (raiseError e s).schedule = s.schedule := rfl
@[simp] theorem raiseError_reply (e : ErrCode) (s : State) : (raiseError e s).reply = s.reply := rfl
@[simp] theorem raiseError_draws (e : ErrCode) (s : State) : (raiseError e s).draws = s.draws := rfl

/-! ## complete: a successful completion (60_exceptions.md R236) -/

@[simp] theorem complete_seq (s : State) : (complete s).seq = .idle := rfl
@[simp] theorem complete_done (s : State) : (complete s).done = true := rfl
@[simp] theorem complete_matched (s : State) : (complete s).matched = s.matched := rfl
@[simp] theorem complete_overrun (s : State) : (complete s).overrun = s.overrun := rfl
@[simp] theorem complete_errcode (s : State) : (complete s).errcode = .ok := rfl
@[simp] theorem complete_doneie (s : State) : (complete s).doneie = s.doneie := rfl
@[simp] theorem complete_errie (s : State) : (complete s).errie = s.errie := rfl
@[simp] theorem complete_keylen (s : State) : (complete s).keylen = s.keylen := rfl
@[simp] theorem complete_textlen (s : State) : (complete s).textlen = s.textlen := rfl
@[simp] theorem complete_sublen (s : State) : (complete s).sublen = s.sublen := rfl
@[simp] theorem complete_codelen (s : State) : (complete s).codelen = s.codelen := rfl
@[simp] theorem complete_diglen (s : State) : (complete s).diglen = s.diglen := rfl
@[simp] theorem complete_trunc (s : State) : (complete s).trunc = s.trunc := rfl
@[simp] theorem complete_ctrHi (s : State) : (complete s).ctrHi = s.ctrHi := rfl
@[simp] theorem complete_ctrLo (s : State) : (complete s).ctrLo = s.ctrLo := rfl
@[simp] theorem complete_msg (s : State) : (complete s).msg = s.msg := rfl
@[simp] theorem complete_code (s : State) : (complete s).code = s.code := rfl
@[simp] theorem complete_submit (s : State) : (complete s).submit = s.submit := rfl
@[simp] theorem complete_digest (s : State) : (complete s).digest = s.digest := rfl
@[simp] theorem complete_key (s : State) : (complete s).key = s.key := rfl
@[simp] theorem complete_text (s : State) : (complete s).text = s.text := rfl
@[simp] theorem complete_inReset (s : State) : (complete s).inReset = s.inReset := rfl
@[simp] theorem complete_schedule (s : State) : (complete s).schedule = s.schedule := rfl
@[simp] theorem complete_reply (s : State) : (complete s).reply = s.reply := rfl
@[simp] theorem complete_draws (s : State) : (complete s).draws = s.draws := rfl

/-! ## writeStatus: a write to `STATUS` (10_state.md R24) -/

@[simp] theorem writeStatus_seq (v : Word) (s : State) : (writeStatus v s).seq = s.seq := rfl
@[simp] theorem writeStatus_done (v : Word) (s : State) : (writeStatus v s).done = (s.done && !v.getLsbD 1) := rfl
@[simp] theorem writeStatus_matched (v : Word) (s : State) : (writeStatus v s).matched = s.matched := rfl
@[simp] theorem writeStatus_overrun (v : Word) (s : State) : (writeStatus v s).overrun = (s.overrun && !v.getLsbD 4) := rfl
@[simp] theorem writeStatus_errcode (v : Word) (s : State) : (writeStatus v s).errcode = s.errcode := rfl
@[simp] theorem writeStatus_doneie (v : Word) (s : State) : (writeStatus v s).doneie = s.doneie := rfl
@[simp] theorem writeStatus_errie (v : Word) (s : State) : (writeStatus v s).errie = s.errie := rfl
@[simp] theorem writeStatus_keylen (v : Word) (s : State) : (writeStatus v s).keylen = s.keylen := rfl
@[simp] theorem writeStatus_textlen (v : Word) (s : State) : (writeStatus v s).textlen = s.textlen := rfl
@[simp] theorem writeStatus_sublen (v : Word) (s : State) : (writeStatus v s).sublen = s.sublen := rfl
@[simp] theorem writeStatus_codelen (v : Word) (s : State) : (writeStatus v s).codelen = s.codelen := rfl
@[simp] theorem writeStatus_diglen (v : Word) (s : State) : (writeStatus v s).diglen = s.diglen := rfl
@[simp] theorem writeStatus_trunc (v : Word) (s : State) : (writeStatus v s).trunc = s.trunc := rfl
@[simp] theorem writeStatus_ctrHi (v : Word) (s : State) : (writeStatus v s).ctrHi = s.ctrHi := rfl
@[simp] theorem writeStatus_ctrLo (v : Word) (s : State) : (writeStatus v s).ctrLo = s.ctrLo := rfl
@[simp] theorem writeStatus_msg (v : Word) (s : State) : (writeStatus v s).msg = s.msg := rfl
@[simp] theorem writeStatus_code (v : Word) (s : State) : (writeStatus v s).code = s.code := rfl
@[simp] theorem writeStatus_submit (v : Word) (s : State) : (writeStatus v s).submit = s.submit := rfl
@[simp] theorem writeStatus_digest (v : Word) (s : State) : (writeStatus v s).digest = s.digest := rfl
@[simp] theorem writeStatus_key (v : Word) (s : State) : (writeStatus v s).key = s.key := rfl
@[simp] theorem writeStatus_text (v : Word) (s : State) : (writeStatus v s).text = s.text := rfl
@[simp] theorem writeStatus_inReset (v : Word) (s : State) : (writeStatus v s).inReset = s.inReset := rfl
@[simp] theorem writeStatus_schedule (v : Word) (s : State) : (writeStatus v s).schedule = s.schedule := rfl
@[simp] theorem writeStatus_reply (v : Word) (s : State) : (writeStatus v s).reply = s.reply := rfl
@[simp] theorem writeStatus_draws (v : Word) (s : State) : (writeStatus v s).draws = s.draws := rfl

/-! ## writeInten: a write to `INTEN` (10_state.md R31) -/

@[simp] theorem writeInten_seq (v : Word) (s : State) : (writeInten v s).seq = s.seq := rfl
@[simp] theorem writeInten_done (v : Word) (s : State) : (writeInten v s).done = s.done := rfl
@[simp] theorem writeInten_matched (v : Word) (s : State) : (writeInten v s).matched = s.matched := rfl
@[simp] theorem writeInten_overrun (v : Word) (s : State) : (writeInten v s).overrun = s.overrun := rfl
@[simp] theorem writeInten_errcode (v : Word) (s : State) : (writeInten v s).errcode = s.errcode := rfl
@[simp] theorem writeInten_doneie (v : Word) (s : State) : (writeInten v s).doneie = v.getLsbD 0 := rfl
@[simp] theorem writeInten_errie (v : Word) (s : State) : (writeInten v s).errie = v.getLsbD 1 := rfl
@[simp] theorem writeInten_keylen (v : Word) (s : State) : (writeInten v s).keylen = s.keylen := rfl
@[simp] theorem writeInten_textlen (v : Word) (s : State) : (writeInten v s).textlen = s.textlen := rfl
@[simp] theorem writeInten_sublen (v : Word) (s : State) : (writeInten v s).sublen = s.sublen := rfl
@[simp] theorem writeInten_codelen (v : Word) (s : State) : (writeInten v s).codelen = s.codelen := rfl
@[simp] theorem writeInten_diglen (v : Word) (s : State) : (writeInten v s).diglen = s.diglen := rfl
@[simp] theorem writeInten_trunc (v : Word) (s : State) : (writeInten v s).trunc = s.trunc := rfl
@[simp] theorem writeInten_ctrHi (v : Word) (s : State) : (writeInten v s).ctrHi = s.ctrHi := rfl
@[simp] theorem writeInten_ctrLo (v : Word) (s : State) : (writeInten v s).ctrLo = s.ctrLo := rfl
@[simp] theorem writeInten_msg (v : Word) (s : State) : (writeInten v s).msg = s.msg := rfl
@[simp] theorem writeInten_code (v : Word) (s : State) : (writeInten v s).code = s.code := rfl
@[simp] theorem writeInten_submit (v : Word) (s : State) : (writeInten v s).submit = s.submit := rfl
@[simp] theorem writeInten_digest (v : Word) (s : State) : (writeInten v s).digest = s.digest := rfl
@[simp] theorem writeInten_key (v : Word) (s : State) : (writeInten v s).key = s.key := rfl
@[simp] theorem writeInten_text (v : Word) (s : State) : (writeInten v s).text = s.text := rfl
@[simp] theorem writeInten_inReset (v : Word) (s : State) : (writeInten v s).inReset = s.inReset := rfl
@[simp] theorem writeInten_schedule (v : Word) (s : State) : (writeInten v s).schedule = s.schedule := rfl
@[simp] theorem writeInten_reply (v : Word) (s : State) : (writeInten v s).reply = s.reply := rfl
@[simp] theorem writeInten_draws (v : Word) (s : State) : (writeInten v s).draws = s.draws := rfl

/-! ## writeMessage: the writes of `CTR2B` (40_counter_codec.md R100) -/

@[simp] theorem writeMessage_seq (c : BitVec 64) (s : State) : (writeMessage c s).seq = s.seq := rfl
@[simp] theorem writeMessage_done (c : BitVec 64) (s : State) : (writeMessage c s).done = s.done := rfl
@[simp] theorem writeMessage_matched (c : BitVec 64) (s : State) : (writeMessage c s).matched = s.matched := rfl
@[simp] theorem writeMessage_overrun (c : BitVec 64) (s : State) : (writeMessage c s).overrun = s.overrun := rfl
@[simp] theorem writeMessage_errcode (c : BitVec 64) (s : State) : (writeMessage c s).errcode = s.errcode := rfl
@[simp] theorem writeMessage_doneie (c : BitVec 64) (s : State) : (writeMessage c s).doneie = s.doneie := rfl
@[simp] theorem writeMessage_errie (c : BitVec 64) (s : State) : (writeMessage c s).errie = s.errie := rfl
@[simp] theorem writeMessage_keylen (c : BitVec 64) (s : State) : (writeMessage c s).keylen = s.keylen := rfl
@[simp] theorem writeMessage_textlen (c : BitVec 64) (s : State) : (writeMessage c s).textlen = s.textlen := rfl
@[simp] theorem writeMessage_sublen (c : BitVec 64) (s : State) : (writeMessage c s).sublen = s.sublen := rfl
@[simp] theorem writeMessage_codelen (c : BitVec 64) (s : State) : (writeMessage c s).codelen = s.codelen := rfl
@[simp] theorem writeMessage_diglen (c : BitVec 64) (s : State) : (writeMessage c s).diglen = s.diglen := rfl
@[simp] theorem writeMessage_trunc (c : BitVec 64) (s : State) : (writeMessage c s).trunc = s.trunc := rfl
@[simp] theorem writeMessage_ctrHi (c : BitVec 64) (s : State) : (writeMessage c s).ctrHi = s.ctrHi := rfl
@[simp] theorem writeMessage_ctrLo (c : BitVec 64) (s : State) : (writeMessage c s).ctrLo = s.ctrLo := rfl
@[simp] theorem writeMessage_msg (c : BitVec 64) (s : State) : (writeMessage c s).msg = zeroFill 8 (beBytes 8 c.toNat) := rfl
@[simp] theorem writeMessage_code (c : BitVec 64) (s : State) : (writeMessage c s).code = s.code := rfl
@[simp] theorem writeMessage_submit (c : BitVec 64) (s : State) : (writeMessage c s).submit = s.submit := rfl
@[simp] theorem writeMessage_digest (c : BitVec 64) (s : State) : (writeMessage c s).digest = s.digest := rfl
@[simp] theorem writeMessage_key (c : BitVec 64) (s : State) : (writeMessage c s).key = s.key := rfl
@[simp] theorem writeMessage_text (c : BitVec 64) (s : State) : (writeMessage c s).text = s.text := rfl
@[simp] theorem writeMessage_inReset (c : BitVec 64) (s : State) : (writeMessage c s).inReset = s.inReset := rfl
@[simp] theorem writeMessage_schedule (c : BitVec 64) (s : State) : (writeMessage c s).schedule = s.schedule := rfl
@[simp] theorem writeMessage_reply (c : BitVec 64) (s : State) : (writeMessage c s).reply = s.reply := rfl
@[simp] theorem writeMessage_draws (c : BitVec 64) (s : State) : (writeMessage c s).draws = s.draws := rfl

/-! ## writeCounter: the writes of `B2CTR` (40_counter_codec.md R102) -/

@[simp] theorem writeCounter_seq (c : BitVec 64) (s : State) : (writeCounter c s).seq = s.seq := rfl
@[simp] theorem writeCounter_done (c : BitVec 64) (s : State) : (writeCounter c s).done = s.done := rfl
@[simp] theorem writeCounter_matched (c : BitVec 64) (s : State) : (writeCounter c s).matched = s.matched := rfl
@[simp] theorem writeCounter_overrun (c : BitVec 64) (s : State) : (writeCounter c s).overrun = s.overrun := rfl
@[simp] theorem writeCounter_errcode (c : BitVec 64) (s : State) : (writeCounter c s).errcode = s.errcode := rfl
@[simp] theorem writeCounter_doneie (c : BitVec 64) (s : State) : (writeCounter c s).doneie = s.doneie := rfl
@[simp] theorem writeCounter_errie (c : BitVec 64) (s : State) : (writeCounter c s).errie = s.errie := rfl
@[simp] theorem writeCounter_keylen (c : BitVec 64) (s : State) : (writeCounter c s).keylen = s.keylen := rfl
@[simp] theorem writeCounter_textlen (c : BitVec 64) (s : State) : (writeCounter c s).textlen = s.textlen := rfl
@[simp] theorem writeCounter_sublen (c : BitVec 64) (s : State) : (writeCounter c s).sublen = s.sublen := rfl
@[simp] theorem writeCounter_codelen (c : BitVec 64) (s : State) : (writeCounter c s).codelen = s.codelen := rfl
@[simp] theorem writeCounter_diglen (c : BitVec 64) (s : State) : (writeCounter c s).diglen = s.diglen := rfl
@[simp] theorem writeCounter_trunc (c : BitVec 64) (s : State) : (writeCounter c s).trunc = s.trunc := rfl
@[simp] theorem writeCounter_ctrHi (c : BitVec 64) (s : State) : (writeCounter c s).ctrHi = c.extractLsb' 32 32 := rfl
@[simp] theorem writeCounter_ctrLo (c : BitVec 64) (s : State) : (writeCounter c s).ctrLo = c.extractLsb' 0 32 := rfl
@[simp] theorem writeCounter_msg (c : BitVec 64) (s : State) : (writeCounter c s).msg = s.msg := rfl
@[simp] theorem writeCounter_code (c : BitVec 64) (s : State) : (writeCounter c s).code = s.code := rfl
@[simp] theorem writeCounter_submit (c : BitVec 64) (s : State) : (writeCounter c s).submit = s.submit := rfl
@[simp] theorem writeCounter_digest (c : BitVec 64) (s : State) : (writeCounter c s).digest = s.digest := rfl
@[simp] theorem writeCounter_key (c : BitVec 64) (s : State) : (writeCounter c s).key = s.key := rfl
@[simp] theorem writeCounter_text (c : BitVec 64) (s : State) : (writeCounter c s).text = s.text := rfl
@[simp] theorem writeCounter_inReset (c : BitVec 64) (s : State) : (writeCounter c s).inReset = s.inReset := rfl
@[simp] theorem writeCounter_schedule (c : BitVec 64) (s : State) : (writeCounter c s).schedule = s.schedule := rfl
@[simp] theorem writeCounter_reply (c : BitVec 64) (s : State) : (writeCounter c s).reply = s.reply := rfl
@[simp] theorem writeCounter_draws (c : BitVec 64) (s : State) : (writeCounter c s).draws = s.draws := rfl

/-! ## writeDigest: the writes of `HMAC` (41_hmac.md R141) -/

@[simp] theorem writeDigest_seq (h : HashAlg) (mac : List Byte) (s : State) : (writeDigest h mac s).seq = s.seq := rfl
@[simp] theorem writeDigest_done (h : HashAlg) (mac : List Byte) (s : State) : (writeDigest h mac s).done = s.done := rfl
@[simp] theorem writeDigest_matched (h : HashAlg) (mac : List Byte) (s : State) : (writeDigest h mac s).matched = s.matched := rfl
@[simp] theorem writeDigest_overrun (h : HashAlg) (mac : List Byte) (s : State) : (writeDigest h mac s).overrun = s.overrun := rfl
@[simp] theorem writeDigest_errcode (h : HashAlg) (mac : List Byte) (s : State) : (writeDigest h mac s).errcode = s.errcode := rfl
@[simp] theorem writeDigest_doneie (h : HashAlg) (mac : List Byte) (s : State) : (writeDigest h mac s).doneie = s.doneie := rfl
@[simp] theorem writeDigest_errie (h : HashAlg) (mac : List Byte) (s : State) : (writeDigest h mac s).errie = s.errie := rfl
@[simp] theorem writeDigest_keylen (h : HashAlg) (mac : List Byte) (s : State) : (writeDigest h mac s).keylen = s.keylen := rfl
@[simp] theorem writeDigest_textlen (h : HashAlg) (mac : List Byte) (s : State) : (writeDigest h mac s).textlen = s.textlen := rfl
@[simp] theorem writeDigest_sublen (h : HashAlg) (mac : List Byte) (s : State) : (writeDigest h mac s).sublen = s.sublen := rfl
@[simp] theorem writeDigest_codelen (h : HashAlg) (mac : List Byte) (s : State) : (writeDigest h mac s).codelen = s.codelen := rfl
@[simp] theorem writeDigest_diglen (h : HashAlg) (mac : List Byte) (s : State) : (writeDigest h mac s).diglen = BitVec.ofNat 8 (digestLength h) := rfl
@[simp] theorem writeDigest_trunc (h : HashAlg) (mac : List Byte) (s : State) : (writeDigest h mac s).trunc = s.trunc := rfl
@[simp] theorem writeDigest_ctrHi (h : HashAlg) (mac : List Byte) (s : State) : (writeDigest h mac s).ctrHi = s.ctrHi := rfl
@[simp] theorem writeDigest_ctrLo (h : HashAlg) (mac : List Byte) (s : State) : (writeDigest h mac s).ctrLo = s.ctrLo := rfl
@[simp] theorem writeDigest_msg (h : HashAlg) (mac : List Byte) (s : State) : (writeDigest h mac s).msg = s.msg := rfl
@[simp] theorem writeDigest_code (h : HashAlg) (mac : List Byte) (s : State) : (writeDigest h mac s).code = s.code := rfl
@[simp] theorem writeDigest_submit (h : HashAlg) (mac : List Byte) (s : State) : (writeDigest h mac s).submit = s.submit := rfl
@[simp] theorem writeDigest_digest (h : HashAlg) (mac : List Byte) (s : State) : (writeDigest h mac s).digest = zeroFill 64 mac := rfl
@[simp] theorem writeDigest_key (h : HashAlg) (mac : List Byte) (s : State) : (writeDigest h mac s).key = s.key := rfl
@[simp] theorem writeDigest_text (h : HashAlg) (mac : List Byte) (s : State) : (writeDigest h mac s).text = s.text := rfl
@[simp] theorem writeDigest_inReset (h : HashAlg) (mac : List Byte) (s : State) : (writeDigest h mac s).inReset = s.inReset := rfl
@[simp] theorem writeDigest_schedule (h : HashAlg) (mac : List Byte) (s : State) : (writeDigest h mac s).schedule = s.schedule := rfl
@[simp] theorem writeDigest_reply (h : HashAlg) (mac : List Byte) (s : State) : (writeDigest h mac s).reply = s.reply := rfl
@[simp] theorem writeDigest_draws (h : HashAlg) (mac : List Byte) (s : State) : (writeDigest h mac s).draws = s.draws := rfl

/-! ## writeCode: the writes of `TRUNC` (42_truncation.md R160) -/

@[simp] theorem writeCode_seq (t : BitVec 31) (d : Nat) (s : State) : (writeCode t d s).seq = s.seq := rfl
@[simp] theorem writeCode_done (t : BitVec 31) (d : Nat) (s : State) : (writeCode t d s).done = s.done := rfl
@[simp] theorem writeCode_matched (t : BitVec 31) (d : Nat) (s : State) : (writeCode t d s).matched = s.matched := rfl
@[simp] theorem writeCode_overrun (t : BitVec 31) (d : Nat) (s : State) : (writeCode t d s).overrun = s.overrun := rfl
@[simp] theorem writeCode_errcode (t : BitVec 31) (d : Nat) (s : State) : (writeCode t d s).errcode = s.errcode := rfl
@[simp] theorem writeCode_doneie (t : BitVec 31) (d : Nat) (s : State) : (writeCode t d s).doneie = s.doneie := rfl
@[simp] theorem writeCode_errie (t : BitVec 31) (d : Nat) (s : State) : (writeCode t d s).errie = s.errie := rfl
@[simp] theorem writeCode_keylen (t : BitVec 31) (d : Nat) (s : State) : (writeCode t d s).keylen = s.keylen := rfl
@[simp] theorem writeCode_textlen (t : BitVec 31) (d : Nat) (s : State) : (writeCode t d s).textlen = s.textlen := rfl
@[simp] theorem writeCode_sublen (t : BitVec 31) (d : Nat) (s : State) : (writeCode t d s).sublen = s.sublen := rfl
@[simp] theorem writeCode_codelen (t : BitVec 31) (d : Nat) (s : State) : (writeCode t d s).codelen = BitVec.ofNat 8 d := rfl
@[simp] theorem writeCode_diglen (t : BitVec 31) (d : Nat) (s : State) : (writeCode t d s).diglen = s.diglen := rfl
@[simp] theorem writeCode_trunc (t : BitVec 31) (d : Nat) (s : State) : (writeCode t d s).trunc = t := rfl
@[simp] theorem writeCode_ctrHi (t : BitVec 31) (d : Nat) (s : State) : (writeCode t d s).ctrHi = s.ctrHi := rfl
@[simp] theorem writeCode_ctrLo (t : BitVec 31) (d : Nat) (s : State) : (writeCode t d s).ctrLo = s.ctrLo := rfl
@[simp] theorem writeCode_msg (t : BitVec 31) (d : Nat) (s : State) : (writeCode t d s).msg = s.msg := rfl
@[simp] theorem writeCode_code (t : BitVec 31) (d : Nat) (s : State) : (writeCode t d s).code = renderCode t d := rfl
@[simp] theorem writeCode_submit (t : BitVec 31) (d : Nat) (s : State) : (writeCode t d s).submit = s.submit := rfl
@[simp] theorem writeCode_digest (t : BitVec 31) (d : Nat) (s : State) : (writeCode t d s).digest = s.digest := rfl
@[simp] theorem writeCode_key (t : BitVec 31) (d : Nat) (s : State) : (writeCode t d s).key = s.key := rfl
@[simp] theorem writeCode_text (t : BitVec 31) (d : Nat) (s : State) : (writeCode t d s).text = s.text := rfl
@[simp] theorem writeCode_inReset (t : BitVec 31) (d : Nat) (s : State) : (writeCode t d s).inReset = s.inReset := rfl
@[simp] theorem writeCode_schedule (t : BitVec 31) (d : Nat) (s : State) : (writeCode t d s).schedule = s.schedule := rfl
@[simp] theorem writeCode_reply (t : BitVec 31) (d : Nat) (s : State) : (writeCode t d s).reply = s.reply := rfl
@[simp] theorem writeCode_draws (t : BitVec 31) (d : Nat) (s : State) : (writeCode t d s).draws = s.draws := rfl

/-! ## clearRegisters: the writes of `CLEAR` (45_clear.md R220) -/

@[simp] theorem clearRegisters_seq (s : State) : (clearRegisters s).seq = s.seq := rfl
@[simp] theorem clearRegisters_done (s : State) : (clearRegisters s).done = s.done := rfl
@[simp] theorem clearRegisters_matched (s : State) : (clearRegisters s).matched = false := rfl
@[simp] theorem clearRegisters_overrun (s : State) : (clearRegisters s).overrun = s.overrun := rfl
@[simp] theorem clearRegisters_errcode (s : State) : (clearRegisters s).errcode = s.errcode := rfl
@[simp] theorem clearRegisters_doneie (s : State) : (clearRegisters s).doneie = s.doneie := rfl
@[simp] theorem clearRegisters_errie (s : State) : (clearRegisters s).errie = s.errie := rfl
@[simp] theorem clearRegisters_keylen (s : State) : (clearRegisters s).keylen = 0 := rfl
@[simp] theorem clearRegisters_textlen (s : State) : (clearRegisters s).textlen = 0 := rfl
@[simp] theorem clearRegisters_sublen (s : State) : (clearRegisters s).sublen = 0 := rfl
@[simp] theorem clearRegisters_codelen (s : State) : (clearRegisters s).codelen = 0 := rfl
@[simp] theorem clearRegisters_diglen (s : State) : (clearRegisters s).diglen = 0 := rfl
@[simp] theorem clearRegisters_trunc (s : State) : (clearRegisters s).trunc = 0 := rfl
@[simp] theorem clearRegisters_ctrHi (s : State) : (clearRegisters s).ctrHi = 0 := rfl
@[simp] theorem clearRegisters_ctrLo (s : State) : (clearRegisters s).ctrLo = 0 := rfl
@[simp] theorem clearRegisters_msg (s : State) : (clearRegisters s).msg = Vector.replicate 8 0 := rfl
@[simp] theorem clearRegisters_code (s : State) : (clearRegisters s).code = Vector.replicate 12 0 := rfl
@[simp] theorem clearRegisters_submit (s : State) : (clearRegisters s).submit = Vector.replicate 12 0 := rfl
@[simp] theorem clearRegisters_digest (s : State) : (clearRegisters s).digest = Vector.replicate 64 0 := rfl
@[simp] theorem clearRegisters_key (s : State) : (clearRegisters s).key = Vector.replicate 128 0 := rfl
@[simp] theorem clearRegisters_text (s : State) : (clearRegisters s).text = Vector.replicate 208 0 := rfl
@[simp] theorem clearRegisters_inReset (s : State) : (clearRegisters s).inReset = s.inReset := rfl
@[simp] theorem clearRegisters_schedule (s : State) : (clearRegisters s).schedule = s.schedule := rfl
@[simp] theorem clearRegisters_reply (s : State) : (clearRegisters s).reply = s.reply := rfl
@[simp] theorem clearRegisters_draws (s : State) : (clearRegisters s).draws = s.draws := rfl

/-! ## resetBlock: reset (70_reset_and_hazards.md R260) -/

@[simp] theorem resetBlock_seq (s : State) : (resetBlock s).seq = State.reset.seq := rfl
@[simp] theorem resetBlock_done (s : State) : (resetBlock s).done = State.reset.done := rfl
@[simp] theorem resetBlock_matched (s : State) : (resetBlock s).matched = State.reset.matched := rfl
@[simp] theorem resetBlock_overrun (s : State) : (resetBlock s).overrun = State.reset.overrun := rfl
@[simp] theorem resetBlock_errcode (s : State) : (resetBlock s).errcode = State.reset.errcode := rfl
@[simp] theorem resetBlock_doneie (s : State) : (resetBlock s).doneie = State.reset.doneie := rfl
@[simp] theorem resetBlock_errie (s : State) : (resetBlock s).errie = State.reset.errie := rfl
@[simp] theorem resetBlock_keylen (s : State) : (resetBlock s).keylen = State.reset.keylen := rfl
@[simp] theorem resetBlock_textlen (s : State) : (resetBlock s).textlen = State.reset.textlen := rfl
@[simp] theorem resetBlock_sublen (s : State) : (resetBlock s).sublen = State.reset.sublen := rfl
@[simp] theorem resetBlock_codelen (s : State) : (resetBlock s).codelen = State.reset.codelen := rfl
@[simp] theorem resetBlock_diglen (s : State) : (resetBlock s).diglen = State.reset.diglen := rfl
@[simp] theorem resetBlock_trunc (s : State) : (resetBlock s).trunc = State.reset.trunc := rfl
@[simp] theorem resetBlock_ctrHi (s : State) : (resetBlock s).ctrHi = State.reset.ctrHi := rfl
@[simp] theorem resetBlock_ctrLo (s : State) : (resetBlock s).ctrLo = State.reset.ctrLo := rfl
@[simp] theorem resetBlock_msg (s : State) : (resetBlock s).msg = State.reset.msg := rfl
@[simp] theorem resetBlock_code (s : State) : (resetBlock s).code = State.reset.code := rfl
@[simp] theorem resetBlock_submit (s : State) : (resetBlock s).submit = State.reset.submit := rfl
@[simp] theorem resetBlock_digest (s : State) : (resetBlock s).digest = State.reset.digest := rfl
@[simp] theorem resetBlock_key (s : State) : (resetBlock s).key = State.reset.key := rfl
@[simp] theorem resetBlock_text (s : State) : (resetBlock s).text = State.reset.text := rfl
@[simp] theorem resetBlock_inReset (s : State) : (resetBlock s).inReset = s.inReset := rfl
@[simp] theorem resetBlock_schedule (s : State) : (resetBlock s).schedule = s.schedule := rfl
@[simp] theorem resetBlock_reply (s : State) : (resetBlock s).reply = s.reply := rfl
@[simp] theorem resetBlock_draws (s : State) : (resetBlock s).draws = s.draws := rfl

/-! ## block: the block without the host side -/

@[simp] theorem block_seq (s : State) : (s.block).seq = s.seq := rfl
@[simp] theorem block_done (s : State) : (s.block).done = s.done := rfl
@[simp] theorem block_matched (s : State) : (s.block).matched = s.matched := rfl
@[simp] theorem block_overrun (s : State) : (s.block).overrun = s.overrun := rfl
@[simp] theorem block_errcode (s : State) : (s.block).errcode = s.errcode := rfl
@[simp] theorem block_doneie (s : State) : (s.block).doneie = s.doneie := rfl
@[simp] theorem block_errie (s : State) : (s.block).errie = s.errie := rfl
@[simp] theorem block_keylen (s : State) : (s.block).keylen = s.keylen := rfl
@[simp] theorem block_textlen (s : State) : (s.block).textlen = s.textlen := rfl
@[simp] theorem block_sublen (s : State) : (s.block).sublen = s.sublen := rfl
@[simp] theorem block_codelen (s : State) : (s.block).codelen = s.codelen := rfl
@[simp] theorem block_diglen (s : State) : (s.block).diglen = s.diglen := rfl
@[simp] theorem block_trunc (s : State) : (s.block).trunc = s.trunc := rfl
@[simp] theorem block_ctrHi (s : State) : (s.block).ctrHi = s.ctrHi := rfl
@[simp] theorem block_ctrLo (s : State) : (s.block).ctrLo = s.ctrLo := rfl
@[simp] theorem block_msg (s : State) : (s.block).msg = s.msg := rfl
@[simp] theorem block_code (s : State) : (s.block).code = s.code := rfl
@[simp] theorem block_submit (s : State) : (s.block).submit = s.submit := rfl
@[simp] theorem block_digest (s : State) : (s.block).digest = s.digest := rfl
@[simp] theorem block_key (s : State) : (s.block).key = s.key := rfl
@[simp] theorem block_text (s : State) : (s.block).text = s.text := rfl
@[simp] theorem block_inReset (s : State) : (s.block).inReset = s.inReset := rfl
@[simp] theorem block_schedule (s : State) : (s.block).schedule = [] := rfl
@[simp] theorem block_reply (s : State) : (s.block).reply = none := rfl
@[simp] theorem block_draws (s : State) : (s.block).draws = 0 := rfl

end Sys2Proof.Machine
end

