-- ==== Sys2Proof/Laws/Exec.lean ====
section
/-! SUPPORT. What a completion can do, said once: `finish` and the checks, and each command's meaning as its checks and
its writes. Proofs about a command cite its equation here and the field lemmas of Laws/State.lean. -/

namespace Sys2Proof.Machine

@[simp] theorem finish_ok (s w : State) : finish s (.ok w) = .next (complete w) := rfl

@[simp] theorem finish_error (s : State) (e : ErrCode) : finish s (.error e) = .next (raiseError e s) := rfl

/-- A completion is a next state: the error of a failing check, or the writes. -/
theorem finish_cases {s t : State} {r : Except ErrCode State} (h : finish s r = .next t) :
    (∃ e, r = .error e ∧ t = raiseError e s) ∨ (∃ w, r = .ok w ∧ t = complete w) := by
  cases r with
  | error e => exact .inl ⟨e, rfl, by simpa using h.symm⟩
  | ok w => exact .inr ⟨w, rfl, by simpa using h.symm⟩

theorem finish_next (s : State) (r : Except ErrCode State) : ∃ t, finish s r = .next t := by
  cases r <;> exact ⟨_, rfl⟩

/-! ## The checks (60_exceptions.md R238) -/

theorem checkDigits_ok {d : Nat} (h1 : 1 ≤ d) (h9 : d ≤ 9) : checkDigits d = .ok () :=
  if_neg (by simp only [Config.digitsMin, Config.digitsMax]; omega)

theorem checkDigits_bad {d : Nat} (h : d < 1 ∨ 9 < d) : checkDigits d = .error .badDigits :=
  if_pos (by simp only [Config.digitsMin, Config.digitsMax]; omega)

theorem checkKey_ok {s : State} (h1 : 1 ≤ s.keylen.toNat) (h2 : s.keylen.toNat ≤ 128) : checkKey s = .ok () := by
  unfold checkKey
  rw [if_neg (by omega), if_neg (by simp only [Config.keyMax]; omega)]

theorem checkKey_empty {s : State} (h : s.keylen.toNat = 0) : checkKey s = .error .emptyKey := if_pos h

theorem checkKey_long {s : State} (h : 128 < s.keylen.toNat) : checkKey s = .error .keyTooLong := by
  unfold checkKey
  rw [if_neg (by omega), if_pos (by simpa only [Config.keyMax] using h)]

/-- The three outcomes of the key check, by the length. -/
theorem checkKey_cases (s : State) :
    (s.keylen.toNat = 0 ∧ checkKey s = .error .emptyKey) ∨
    (128 < s.keylen.toNat ∧ checkKey s = .error .keyTooLong) ∨
    (1 ≤ s.keylen.toNat ∧ s.keylen.toNat ≤ 128 ∧ checkKey s = .ok ()) := by
  rcases Nat.eq_zero_or_pos s.keylen.toNat with h | h
  · exact .inl ⟨h, checkKey_empty h⟩
  · rcases Nat.lt_or_ge 128 s.keylen.toNat with h' | h'
    · exact .inr (.inl ⟨h', checkKey_long h'⟩)
    · exact .inr (.inr ⟨h, h', checkKey_ok h h'⟩)

theorem checkDigest_ok {s : State} (h : s.diglen.toNat ∈ [20, 32, 64]) : checkDigest s = .ok () := if_pos h

theorem checkDigest_none {s : State} (h : s.diglen.toNat ∉ [20, 32, 64]) : checkDigest s = .error .noDigest :=
  if_neg h

/-- The text-length check passes exactly on the legal lengths (44_base32.md R200). -/
theorem checkTextLength_ok {s : State} (h : legalTextLength s.textlen.toNat) : checkTextLength s = .ok () := by
  obtain ⟨h1, h2, h3, h4, h5, h6⟩ := h
  unfold checkTextLength
  rw [if_neg (by simp only [Config.textMax]; omega), if_neg (by simp; omega),
    if_neg (by simp only [Config.keyMax, decodedLength]; omega)]

theorem checkTextLength_bad {s : State} (h : ¬ legalTextLength s.textlen.toNat) :
    checkTextLength s = .error .badTextLength := by
  unfold checkTextLength
  split
  · rfl
  · split
    · rfl
    · split
      · rfl
      · rename_i h1 h2 h3
        simp only [Config.textMax, Config.keyMax, decodedLength, List.mem_cons, List.not_mem_nil, or_false] at h1 h2 h3
        exact absurd ⟨by omega, by omega, by omega, by omega, by omega, by omega⟩ h

/-! ## The meanings as their checks and writes -/

theorem exec_ctr2b (s : State) : exec .ctr2b s = .next (complete (writeMessage s.counter s)) := rfl

theorem exec_b2ctr (s : State) :
    exec .b2ctr s = .next (complete (writeCounter (BitVec.ofNat 64 (fromBE s.message)) s)) := rfl

theorem exec_cmp (s : State) : exec .cmp s = .next (complete { s with matched := codeMatches s }) := rfl

theorem exec_clear (s : State) : exec .clear s = .next (complete (clearRegisters s)) := rfl

theorem exec_hmac_reserved (s : State) : exec (.hmac .reserved) s = .next (raiseError .badAlg s) := rfl

theorem exec_hmac_key {a : AlgField} {h : HashAlg} {s : State} {e : ErrCode} (ha : hashOf a = some h)
    (hk : checkKey s = .error e) : exec (.hmac a) s = .next (raiseError e s) := by
  change execHmac a s = _
  simp [execHmac, checkAlg, ha, hk, Except.bind, bind]

theorem exec_hmac_ok {a : AlgField} {h : HashAlg} {s : State} (ha : hashOf a = some h) (hk : checkKey s = .ok ()) :
    exec (.hmac a) s = .next (complete (writeDigest h (hmac h s.secret s.message) s)) := by
  change execHmac a s = _
  simp [execHmac, checkAlg, ha, hk, Except.bind, bind, pure, Except.pure]

theorem exec_trunc_digits {d : Nat} {s : State} (hd : checkDigits d = .error .badDigits) :
    exec (.trunc d) s = .next (raiseError .badDigits s) := by
  change execTrunc d s = _
  simp [execTrunc, hd, Except.bind, bind]

theorem exec_trunc_none {d : Nat} {s : State} (hd : checkDigits d = .ok ()) (hs : checkDigest s = .error .noDigest) :
    exec (.trunc d) s = .next (raiseError .noDigest s) := by
  change execTrunc d s = _
  simp [execTrunc, hd, hs, Except.bind, bind]

theorem exec_trunc_ok {d : Nat} {s : State} (hd : checkDigits d = .ok ()) (hs : checkDigest s = .ok ()) :
    exec (.trunc d) s = .next (complete (writeCode (truncate s.mac) d s)) := by
  change execTrunc d s = _
  simp [execTrunc, hd, hs, Except.bind, bind, pure, Except.pure]

theorem exec_hotp_reserved (d : Nat) (s : State) : exec (.hotp .reserved d) s = .next (raiseError .badAlg s) := rfl

theorem exec_hotp_digits {a : AlgField} {h : HashAlg} {d : Nat} {s : State} (ha : hashOf a = some h)
    (hd : checkDigits d = .error .badDigits) : exec (.hotp a d) s = .next (raiseError .badDigits s) := by
  change execHotp a d s = _
  simp [execHotp, checkAlg, ha, hd, Except.bind, bind]

theorem exec_hotp_key {a : AlgField} {h : HashAlg} {d : Nat} {s : State} {e : ErrCode} (ha : hashOf a = some h)
    (hd : checkDigits d = .ok ()) (hk : checkKey s = .error e) : exec (.hotp a d) s = .next (raiseError e s) := by
  change execHotp a d s = _
  simp [execHotp, checkAlg, ha, hd, hk, Except.bind, bind]

theorem exec_hotp_ok {a : AlgField} {h : HashAlg} {d : Nat} {s : State} (ha : hashOf a = some h)
    (hd : checkDigits d = .ok ()) (hk : checkKey s = .ok ()) :
    exec (.hotp a d) s = .next (complete (writeCode (truncate (hmac h s.secret (beBytes 8 s.counter.toNat))) d
      (writeDigest h (hmac h s.secret (beBytes 8 s.counter.toNat)) (writeMessage s.counter s)))) := by
  change execHotp a d s = _
  simp [execHotp, checkAlg, ha, hd, hk, Except.bind, bind, pure, Except.pure]

theorem exec_b32enc_key {s : State} {e : ErrCode} (hk : checkKey s = .error e) :
    exec .b32enc s = .next (raiseError e s) := by
  change execB32enc s = _
  simp [execB32enc, hk, Except.bind, bind]

theorem exec_b32enc_ok {s : State} (hk : checkKey s = .ok ()) :
    exec .b32enc s = .next (complete { s with
      text := zeroFill 208 (base32Encode s.secret)
      textlen := BitVec.ofNat 8 (encodedLength s.keylen.toNat) }) := by
  change execB32enc s = _
  simp [execB32enc, hk, Except.bind, bind, pure, Except.pure]

theorem exec_b32dec_length {s : State} {e : ErrCode} (hl : checkTextLength s = .error e) :
    exec .b32dec s = .next (raiseError e s) := by
  change execB32dec s = _
  simp [execB32dec, hl, Except.bind, bind]

theorem exec_b32dec_chars {s : State} {e : ErrCode} (hl : checkTextLength s = .ok ())
    (hc : base32Decode s.chars = .error e) : exec .b32dec s = .next (raiseError e s) := by
  change execB32dec s = _
  simp [execB32dec, hl, hc, Except.bind, bind]

theorem exec_b32dec_ok {s : State} {bytes : List Byte} (hl : checkTextLength s = .ok ())
    (hc : base32Decode s.chars = .ok bytes) :
    exec .b32dec s = .next (complete { s with
      key := zeroFill 128 bytes
      keylen := BitVec.ofNat 8 (decodedLength s.textlen.toNat) }) := by
  change execB32dec s = _
  simp [execB32dec, hl, hc, Except.bind, bind, pure, Except.pure]

/-- The hash function of every `ALG` but the reserved one (30_encoding.md R81). -/
theorem hashOf_cases (a : AlgField) : (a = .reserved ∧ hashOf a = none) ∨ ∃ h, hashOf a = some h := by
  cases a
  · exact .inr ⟨_, rfl⟩
  · exact .inr ⟨_, rfl⟩
  · exact .inr ⟨_, rfl⟩
  · exact .inl ⟨rfl, rfl⟩

/-- The writes a command makes at a successful completion (10_state.md R50), as one function of the command: whatever a
command does when no check fails is one of these. -/
inductive Writes (s : State) : Instr → State → Prop
  | ctr2b : Writes s .ctr2b (writeMessage s.counter s)
  | b2ctr : Writes s .b2ctr (writeCounter (BitVec.ofNat 64 (fromBE s.message)) s)
  | hmac (a : AlgField) (h : HashAlg) (ha : hashOf a = some h) (hk : 1 ≤ s.keylen.toNat ∧ s.keylen.toNat ≤ 128) :
      Writes s (.hmac a) (writeDigest h (hmac h s.secret s.message) s)
  | trunc (d : Nat) (hd : 1 ≤ d ∧ d ≤ 9) (hs : s.diglen.toNat ∈ [20, 32, 64]) :
      Writes s (.trunc d) (writeCode (truncate s.mac) d s)
  | hotp (a : AlgField) (d : Nat) (h : HashAlg) (ha : hashOf a = some h) (hd : 1 ≤ d ∧ d ≤ 9)
      (hk : 1 ≤ s.keylen.toNat ∧ s.keylen.toNat ≤ 128) :
      Writes s (.hotp a d) (writeCode (truncate (Machine.hmac h s.secret (beBytes 8 s.counter.toNat))) d
        (writeDigest h (Machine.hmac h s.secret (beBytes 8 s.counter.toNat)) (writeMessage s.counter s)))
  | cmp : Writes s .cmp { s with matched := codeMatches s }
  | b32enc (hk : 1 ≤ s.keylen.toNat ∧ s.keylen.toNat ≤ 128) :
      Writes s .b32enc { s with
        text := zeroFill 208 (base32Encode s.secret)
        textlen := BitVec.ofNat 8 (encodedLength s.keylen.toNat) }
  | b32dec (bytes : List Byte) (hl : legalTextLength s.textlen.toNat) (hc : base32Decode s.chars = .ok bytes) :
      Writes s .b32dec { s with
        key := zeroFill 128 bytes
        keylen := BitVec.ofNat 8 (decodedLength s.textlen.toNat) }
  | clear : Writes s .clear (clearRegisters s)

/-- Everything `exec` can do: a completion with an error, which is never `OK`, or one with the command's writes. -/
theorem exec_cases (i : Instr) (s : State) :
    (∃ e, e ≠ .ok ∧ exec i s = .next (raiseError e s)) ∨ (∃ w, Writes s i w ∧ exec i s = .next (complete w)) := by
  cases i with
  | ctr2b => exact .inr ⟨_, .ctr2b, rfl⟩
  | b2ctr => exact .inr ⟨_, .b2ctr, rfl⟩
  | cmp => exact .inr ⟨_, .cmp, rfl⟩
  | clear => exact .inr ⟨_, .clear, rfl⟩
  | hmac a =>
    rcases hashOf_cases a with ⟨rfl, -⟩ | ⟨h, ha⟩
    · exact .inl ⟨.badAlg, by decide, rfl⟩
    · rcases checkKey_cases s with ⟨-, hk⟩ | ⟨-, hk⟩ | ⟨h1, h2, hk⟩
      · exact .inl ⟨_, by decide, exec_hmac_key ha hk⟩
      · exact .inl ⟨_, by decide, exec_hmac_key ha hk⟩
      · exact .inr ⟨_, .hmac a h ha ⟨h1, h2⟩, exec_hmac_ok ha hk⟩
  | trunc d =>
    by_cases hd : d < 1 ∨ 9 < d
    · exact .inl ⟨_, by decide, exec_trunc_digits (checkDigits_bad hd)⟩
    · have hd' := checkDigits_ok (d := d) (by omega) (by omega)
      by_cases hs : s.diglen.toNat ∈ [20, 32, 64]
      · exact .inr ⟨_, .trunc d ⟨by omega, by omega⟩ hs, exec_trunc_ok hd' (checkDigest_ok hs)⟩
      · exact .inl ⟨_, by decide, exec_trunc_none hd' (checkDigest_none hs)⟩
  | hotp a d =>
    rcases hashOf_cases a with ⟨rfl, -⟩ | ⟨h, ha⟩
    · exact .inl ⟨.badAlg, by decide, rfl⟩
    · by_cases hd : d < 1 ∨ 9 < d
      · exact .inl ⟨_, by decide, exec_hotp_digits ha (checkDigits_bad hd)⟩
      · have hd' := checkDigits_ok (d := d) (by omega) (by omega)
        rcases checkKey_cases s with ⟨-, hk⟩ | ⟨-, hk⟩ | ⟨h1, h2, hk⟩
        · exact .inl ⟨_, by decide, exec_hotp_key ha hd' hk⟩
        · exact .inl ⟨_, by decide, exec_hotp_key ha hd' hk⟩
        · exact .inr ⟨_, .hotp a d h ha ⟨by omega, by omega⟩ ⟨h1, h2⟩, exec_hotp_ok ha hd' hk⟩
  | b32enc =>
    rcases checkKey_cases s with ⟨-, hk⟩ | ⟨-, hk⟩ | ⟨h1, h2, hk⟩
    · exact .inl ⟨_, by decide, exec_b32enc_key hk⟩
    · exact .inl ⟨_, by decide, exec_b32enc_key hk⟩
    · exact .inr ⟨_, .b32enc ⟨h1, h2⟩, exec_b32enc_ok hk⟩
  | b32dec =>
    by_cases hl : legalTextLength s.textlen.toNat
    · cases hc : base32Decode s.chars with
      | error e =>
        refine .inl ⟨e, ?_, exec_b32dec_chars (checkTextLength_ok hl) hc⟩
        rintro rfl
        simp only [base32Decode] at hc
        split at hc
        · simp at hc
        · split at hc <;> simp at hc
      | ok bytes => exact .inr ⟨_, .b32dec bytes hl hc, exec_b32dec_ok (checkTextLength_ok hl) hc⟩
    · exact .inl ⟨_, by decide, exec_b32dec_length (checkTextLength_bad hl)⟩

/-! ## What the writes leave alone, register by register (10_state.md R50) -/

/-- A completion changes no register but `STATUS` beside its writes (60_exceptions.md R236). -/
theorem readReg_complete (w : State) {r : Reg} (h : r ≠ .status) : readReg (complete w) r = readReg w r := by
  cases r with
  | status => exact absurd rfl h
  | _ => rfl

/-- An error completion changes no register but `STATUS` (60_exceptions.md R234). -/
theorem readReg_raiseError (e : ErrCode) (s : State) {r : Reg} (h : r ≠ .status) :
    readReg (raiseError e s) r = readReg s r := by
  cases r with
  | status => exact absurd rfl h
  | _ => rfl

theorem readReg_writeMessage (c : BitVec 64) (s : State) {r : Reg} (h : msgRegs r = false) :
    readReg (writeMessage c s) r = readReg s r := by
  cases r with
  | msg _ => exact absurd h (by simp [msgRegs])
  | _ => rfl

theorem readReg_writeCounter (c : BitVec 64) (s : State) {r : Reg} (h : ctrRegs r = false) :
    readReg (writeCounter c s) r = readReg s r := by
  cases r with
  | ctrHi => exact absurd h (by simp [ctrRegs])
  | ctrLo => exact absurd h (by simp [ctrRegs])
  | _ => rfl

theorem readReg_writeDigest (a : HashAlg) (mac : List Byte) (s : State) {r : Reg} (h : digestRegs r = false) :
    readReg (writeDigest a mac s) r = readReg s r := by
  cases r with
  | diglen => exact absurd h (by simp [digestRegs])
  | digest _ => exact absurd h (by simp [digestRegs])
  | _ => rfl

theorem readReg_writeCode (t : BitVec 31) (d : Nat) (s : State) {r : Reg} (h : codeRegs r = false) :
    readReg (writeCode t d s) r = readReg s r := by
  cases r with
  | codelen => exact absurd h (by simp [codeRegs])
  | trunc => exact absurd h (by simp [codeRegs])
  | code _ => exact absurd h (by simp [codeRegs])
  | _ => rfl

theorem readReg_text_written (text : Vector Byte 208) (len : Byte) (s : State) {r : Reg} (h : textRegs r = false) :
    readReg { s with text := text, textlen := len } r = readReg s r := by
  cases r with
  | textlen => exact absurd h (by simp [textRegs])
  | text _ => exact absurd h (by simp [textRegs])
  | _ => rfl

theorem readReg_key_written (key : Vector Byte 128) (len : Byte) (s : State) {r : Reg} (h : keyRegs r = false) :
    readReg { s with key := key, keylen := len } r = readReg s r := by
  cases r with
  | keylen => exact absurd h (by simp [keyRegs])
  | key _ => exact absurd h (by simp [keyRegs])
  | _ => rfl

/-- A command that answers `t` without an error made its writes. -/
theorem exec_ok {i : Instr} {s t : State} (h : exec i s = .next t) (hok : t.errcode = .ok) :
    ∃ w, Writes s i w ∧ t = complete w := by
  rcases exec_cases i s with ⟨e, he, h'⟩ | ⟨w, hw, h'⟩
  · rw [h] at h'
    injection h' with h'
    rw [h', raiseError_errcode] at hok
    exact absurd hok he
  · rw [h] at h'
    injection h' with h'
    exact ⟨w, hw, h'⟩

/-- A command that answers `t` with an error changed nothing but `ERRCODE`, `DONE` and `SEQ` (60_exceptions.md R234). -/
theorem exec_failed {i : Instr} {s t : State} (h : exec i s = .next t) (hbad : t.errcode ≠ .ok) :
    t = raiseError t.errcode s := by
  rcases exec_cases i s with ⟨e, he, h'⟩ | ⟨w, hw, h'⟩
  · rw [h] at h'
    injection h' with h'
    rw [h', raiseError_errcode]
  · rw [h] at h'
    injection h' with h'
    rw [h'] at hbad
    exact absurd rfl hbad

end Sys2Proof.Machine
end

