-- ==== Sys2Proof/Laws/Base32.lean ====
section
/-! SUPPORT. The arithmetic of base32: characters and their values, groups of five bits, and that decoding undoes encoding
(44_base32.md R190 to R204). -/

namespace Sys2Proof.Machine

/-! ## Characters (44_base32.md R190, R196) -/

theorem charValue_lt {b : Byte} {v : Nat} (h : charValue b = some v) : v < 32 := by
  unfold charValue at h
  split at h
  · injection h; omega
  · split at h
    · injection h; omega
    · split at h
      · injection h; omega
      · cases h

/-- The value of a text byte counted as the decoding loop counts it: 0 for an invalid one (44_base32.md R201). -/
theorem charValue_getD_lt (b : Byte) : (charValue b).getD 0 < 32 := by
  cases h : charValue b with
  | none => simp
  | some v => simpa using charValue_lt h

theorem charValue_alpha {v : Nat} (h : v < 32) : charValue (alpha v) = some v := by
  have : ∀ w : Fin 32, charValue (alpha w.val) = some w.val := by decide
  exact this ⟨v, h⟩

theorem base32Alphabet_eq : base32Alphabet = (List.range 32).map alpha := by decide

theorem mem_base32Alphabet {b : Byte} : b ∈ base32Alphabet ↔ ∃ v < 32, alpha v = b := by
  simp [base32Alphabet_eq]

theorem alpha_eq_byteAt {v : Nat} (h : v < 32) : alpha v = byteAt base32Alphabet v := by
  simp [base32Alphabet_eq, byteAt, List.getD, h]

theorem alpha_mem {v : Nat} (h : v < 32) : alpha v ∈ base32Alphabet := mem_base32Alphabet.mpr ⟨v, h, rfl⟩

/-- Encoding a character's value gives its uppercase form (44_base32.md R204). -/
theorem alpha_charValue {b : Byte} {v : Nat} (h : charValue b = some v) : alpha v = upperCase b := by
  apply BitVec.eq_of_toNat_eq
  unfold charValue at h
  unfold alpha upperCase
  split at h
  · injection h
    rw [if_pos (by omega), if_neg (by omega), BitVec.toNat_ofNat]; omega
  · split at h
    · injection h
      rw [if_pos (by omega), if_pos (by omega), BitVec.toNat_ofNat, BitVec.toNat_sub]
      simp only [BitVec.reduceToNat]; omega
    · split at h
      · injection h
        rw [if_neg (by omega), if_neg (by omega), BitVec.toNat_ofNat]; omega
      · cases h

theorem charValue_of_mem {b : Byte} (h : b ∈ base32Alphabet) : ∃ v, charValue b = some v := by
  obtain ⟨v, hv, rfl⟩ := mem_base32Alphabet.mp h
  exact ⟨v, charValue_alpha hv⟩

theorem upperCase_of_mem {b : Byte} (h : b ∈ base32Alphabet) : upperCase b = b := by
  obtain ⟨v, hv, rfl⟩ := mem_base32Alphabet.mp h
  exact (alpha_charValue (charValue_alpha hv)).symm

/-- Letters of the two cases have one value (44_base32.md R196). -/
theorem charValue_upperCase (b : Byte) : charValue (upperCase b) = charValue b := by
  unfold upperCase
  split
  · rename_i h
    have hs : (b - 0x20).toNat = b.toNat - 0x20 := by
      rw [BitVec.toNat_sub]
      simp only [BitVec.reduceToNat]; omega
    unfold charValue
    rw [hs, if_pos (by omega), if_neg (by omega), if_pos (by omega)]
    congr 1
  · rfl

/-! ## Numbers in base 32 -/

@[simp] theorem base32Number_nil : base32Number [] = 0 := rfl

theorem base32Number_append (as bs : List Nat) :
    base32Number (as ++ bs) = base32Number as * 32 ^ bs.length + base32Number bs := by
  have h : ∀ (bs : List Nat) (a : Nat),
      bs.foldl (fun acc v => acc * 32 + v) a = a * 32 ^ bs.length + base32Number bs := by
    intro bs
    induction bs with
    | nil => intro a; simp
    | cons b bs ih =>
      intro a
      have h0 : base32Number (b :: bs) = (0 * 32 + b) * 32 ^ bs.length + base32Number bs := ih _
      rw [List.foldl_cons, ih, h0, List.length_cons, Nat.pow_succ]; ring
  rw [base32Number, List.foldl_append]
  exact h bs _

theorem base32Number_cons (v : Nat) (vs : List Nat) :
    base32Number (v :: vs) = v * 32 ^ vs.length + base32Number vs := by
  have h := base32Number_append [v] vs
  simpa [base32Number] using h

theorem base32Number_lt {vs : List Nat} (h : ∀ v ∈ vs, v < 32) : base32Number vs < 32 ^ vs.length := by
  induction vs with
  | nil => simp
  | cons v vs ih =>
    have h1 := ih fun w hw => h w (List.mem_cons_of_mem _ hw)
    have h2 := Nat.mul_le_mul_right (32 ^ vs.length) (Nat.le_of_lt_succ (h v (by simp)))
    rw [base32Number_cons, List.length_cons, Nat.pow_succ]; omega

/-- The digits of a number in base 32, most significant first. -/
def digits32 (c acc : Nat) : List Nat := (List.range c).map fun i => acc / 32 ^ (c - 1 - i) % 32

@[simp] theorem length_digits32 (c acc : Nat) : (digits32 c acc).length = c := by simp [digits32]

theorem digits32_lt {c acc v : Nat} (h : v ∈ digits32 c acc) : v < 32 := by
  simp only [digits32, List.mem_map] at h
  obtain ⟨i, -, rfl⟩ := h
  exact Nat.mod_lt _ (by decide)

theorem digits32_succ (c acc : Nat) : digits32 (c + 1) acc = acc / 32 ^ c % 32 :: digits32 c acc := by
  simp only [digits32, List.range_succ_eq_map, List.map_cons, List.map_map]
  congr 1
  apply List.map_congr_left
  intro i _
  simp only [Function.comp]
  congr 3; omega

theorem base32Number_digits32 (c acc : Nat) : base32Number (digits32 c acc) = acc % 32 ^ c := by
  induction c with
  | zero => simp [digits32, Nat.mod_one]
  | succ c ih =>
    rw [digits32_succ, base32Number_cons, ih, length_digits32, Nat.pow_succ, Nat.mod_mul]; ring

theorem digits32_add_mul (c q acc : Nat) : digits32 c (q * 32 ^ c + acc) = digits32 c acc := by
  simp only [digits32]
  apply List.map_congr_left
  intro i hi
  have hi : i < c := List.mem_range.mp hi
  have e : q * 32 ^ c = q * 32 ^ i * 32 * 32 ^ (c - 1 - i) := by
    rw [Nat.mul_assoc, Nat.mul_assoc, ← Nat.pow_succ', ← Nat.pow_add]
    congr 2; omega
  rw [e, Nat.add_comm, Nat.add_mul_div_right _ _ (Nat.pow_pos (by decide)), Nat.add_mul_mod_self_right]

theorem digits32_base32Number {vs : List Nat} (h : ∀ v ∈ vs, v < 32) : digits32 vs.length (base32Number vs) = vs := by
  induction vs with
  | nil => rfl
  | cons v vs ih =>
    have hv := h v (by simp)
    have hl := base32Number_lt fun w hw => h w (List.mem_cons_of_mem _ hw)
    rw [List.length_cons, digits32_succ, base32Number_cons, digits32_add_mul,
      ih fun w hw => h w (List.mem_cons_of_mem _ hw), Nat.add_comm,
      Nat.add_mul_div_right _ _ (Nat.pow_pos (by decide)), Nat.div_eq_of_lt hl, Nat.zero_add, Nat.mod_eq_of_lt hv]

/-! ## Lengths (44_base32.md R192, R193, R200) -/

/-- The groups of `n` bytes cover them, with fewer than five bits beyond. -/
theorem encodedLength_spec (n : Nat) : 8 * n ≤ 5 * encodedLength n ∧ 5 * encodedLength n < 8 * n + 5 := by
  unfold encodedLength; omega

/-- The text of `n` bytes decodes to `n` bytes. -/
@[simp] theorem decodedLength_encodedLength (n : Nat) : decodedLength (encodedLength n) = n := by
  unfold decodedLength encodedLength; omega

/-- A legal text has the length that encoding its bytes gives. -/
theorem encodedLength_decodedLength {c : Nat} (h : legalTextLength c) : encodedLength (decodedLength c) = c := by
  unfold encodedLength decodedLength
  obtain ⟨h1, h2, h3, h4, h5, h6⟩ := h
  rcases (by omega : c % 8 = 0 ∨ c % 8 = 2 ∨ c % 8 = 4 ∨ c % 8 = 5 ∨ c % 8 = 7) with h | h | h | h | h <;> omega

theorem legalTextLength_encodedLength {n : Nat} (h1 : 1 ≤ n) (h2 : n ≤ 128) : legalTextLength (encodedLength n) := by
  unfold encodedLength
  refine ⟨?_, ?_, ?_, ?_, ?_, ?_⟩ <;> omega

theorem decodedLength_pos {c : Nat} (h : legalTextLength c) : 1 ≤ decodedLength c ∧ decodedLength c ≤ 128 := by
  unfold decodedLength
  obtain ⟨h1, h2, h3, h4, h5, h6⟩ := h
  exact ⟨by rcases (by omega : c = 1 ∨ 2 ≤ c) with h | h <;> omega, h6⟩

/-! ## Encoding (44_base32.md R191, R192) -/

/-- The encoded text, as the digits in base 32 of the bytes' number moved up by the leftover bits. -/
theorem base32Encode_eq (key : List Byte) :
    base32Encode key = (digits32 (encodedLength key.length)
      (fromBE key * 2 ^ leftoverBits (encodedLength key.length) key.length)).map alpha := by
  simp only [base32Encode, digits32, List.map_map]
  apply List.map_congr_left
  intro i _
  simp only [Function.comp]
  rw [Nat.shiftLeft_eq, Nat.shiftRight_eq_div_pow, Nat.pow_mul, show 0x1F = 2 ^ 5 - 1 from rfl, Nat.and_two_pow_sub_one_eq_mod]

@[simp] theorem length_base32Encode (key : List Byte) : (base32Encode key).length = encodedLength key.length := by
  simp [base32Encode_eq]

theorem byteAt_base32Encode (key : List Byte) {i : Nat} (h : i < encodedLength key.length) :
    byteAt (base32Encode key) i = alpha (fromBE key * 2 ^ leftoverBits (encodedLength key.length) key.length /
      32 ^ (encodedLength key.length - 1 - i) % 32) := by
  rw [byteAt_eq_getElem (by simpa using h)]
  simp [base32Encode_eq, digits32]

/-- Every character written is one of the 32 (44_base32.md R194). -/
theorem mem_base32Encode {key : List Byte} {b : Byte} (h : b ∈ base32Encode key) : b ∈ base32Alphabet := by
  rw [base32Encode_eq, List.mem_map] at h
  obtain ⟨v, hv, rfl⟩ := h
  exact alpha_mem (digits32_lt hv)

/-! ## Decoding (44_base32.md R201, R202) -/

/-- The decoding loop: is some character invalid, and the number of the values, an invalid one counted as 0. -/
theorem decodeChars_eq (chars : List Byte) :
    decodeChars chars =
      (chars.any (fun b => (charValue b).isNone), base32Number (chars.map fun b => (charValue b).getD 0)) := by
  have h : ∀ (l : List Byte) (bad : Bool) (vs : List Nat), l.foldl decodeStep (bad, base32Number vs) =
      (bad || l.any (fun b => (charValue b).isNone), base32Number (vs ++ l.map fun b => (charValue b).getD 0)) := by
    intro l
    induction l with
    | nil => intro bad vs; simp
    | cons b l ih =>
      intro bad vs
      have step : decodeStep (bad, base32Number vs) b =
          (bad || (charValue b).isNone, base32Number (vs ++ [(charValue b).getD 0])) := by
        have shl (x v : Nat) (hv : v < 32) : x <<< 5 ||| v = x * 32 + v := by
          rw [← Nat.shiftLeft_add_eq_or_of_lt (show v < 2 ^ 5 from hv), Nat.shiftLeft_eq]
        rw [base32Number_append]
        cases hc : charValue b with
        | none => simp [decodeStep, hc, base32Number, Nat.shiftLeft_eq]
        | some v => simp [decodeStep, hc, base32Number, shl _ _ (charValue_lt hc)]
      rw [List.foldl_cons, step, ih]
      simp [Bool.or_assoc]
  have := h chars false []
  simpa [decodeChars] using this

/-- The three outcomes of decoding, in the order of the checks (44_base32.md R201). -/
theorem base32Decode_eq (chars : List Byte) :
    base32Decode chars =
      if chars.any (fun b => (charValue b).isNone) then .error .badChar
      else if base32Number (chars.map fun b => (charValue b).getD 0) %
          2 ^ leftoverBits chars.length (decodedLength chars.length) ≠ 0 then .error .noncanonical
      else .ok (beBytes (decodedLength chars.length) (base32Number (chars.map fun b => (charValue b).getD 0) /
        2 ^ leftoverBits chars.length (decodedLength chars.length))) := by
  simp only [base32Decode, decodeChars_eq, Nat.and_two_pow_sub_one_eq_mod, Nat.shiftRight_eq_div_pow]

/-- A text is decoded without an error exactly when every character is valid and the leftover bits are 0. -/
theorem base32Decode_ok {chars bytes : List Byte} (h : base32Decode chars = .ok bytes) :
    (∀ b ∈ chars, ∃ v, charValue b = some v) ∧
    base32Number (chars.map fun b => (charValue b).getD 0) %
      2 ^ leftoverBits chars.length (decodedLength chars.length) = 0 ∧
    bytes = beBytes (decodedLength chars.length) (base32Number (chars.map fun b => (charValue b).getD 0) /
      2 ^ leftoverBits chars.length (decodedLength chars.length)) := by
  rw [base32Decode_eq] at h
  split at h
  · cases h
  · rename_i hv
    split at h
    · cases h
    · rename_i hn
      injection h with h
      refine ⟨fun b hb => ?_, not_not.mp hn, h.symm⟩
      cases hc : charValue b with
      | some v => exact ⟨v, rfl⟩
      | none => exact absurd (List.any_eq_true.mpr ⟨b, hb, by simp [hc]⟩) hv

theorem length_of_base32Decode {chars bytes : List Byte} (h : base32Decode chars = .ok bytes) :
    bytes.length = decodedLength chars.length := by
  rw [(base32Decode_ok h).2.2, length_beBytes]

/-! ## Round trips (44_base32.md R203, R204) -/

/-- Decoding undoes encoding (44_base32.md R203). -/
theorem base32Decode_base32Encode (key : List Byte) : base32Decode (base32Encode key) = .ok key := by
  obtain ⟨h1, h2⟩ := encodedLength_spec key.length
  have hvals : (base32Encode key).map (fun b => (charValue b).getD 0) = digits32 (encodedLength key.length)
      (fromBE key * 2 ^ leftoverBits (encodedLength key.length) key.length) := by
    rw [base32Encode_eq, List.map_map]
    conv_rhs => rw [← List.map_id (digits32 _ _)]
    apply List.map_congr_left
    intro v hv
    simp [charValue_alpha (digits32_lt hv)]
  have hbound : fromBE key * 2 ^ leftoverBits (encodedLength key.length) key.length < 32 ^ encodedLength key.length := by
    have e : 32 ^ encodedLength key.length =
        256 ^ key.length * 2 ^ leftoverBits (encodedLength key.length) key.length := by
      rw [show (32 : Nat) = 2 ^ 5 from rfl, show (256 : Nat) = 2 ^ 8 from rfl, ← Nat.pow_mul, ← Nat.pow_mul,
        ← Nat.pow_add]
      congr 1
      unfold leftoverBits; omega
    rw [e]
    exact Nat.mul_lt_mul_of_pos_right (fromBE_lt key) (Nat.pow_pos (by decide))
  have hany : ¬ (base32Encode key).any (fun b => (charValue b).isNone) = true := by
    intro h
    obtain ⟨b, hb, hn⟩ := List.any_eq_true.mp h
    obtain ⟨v, hv⟩ := charValue_of_mem (mem_base32Encode hb)
    simp [hv] at hn
  rw [base32Decode_eq, if_neg hany, hvals, base32Number_digits32, Nat.mod_eq_of_lt hbound, length_base32Encode,
    decodedLength_encodedLength, if_neg (by simp), Nat.mul_div_cancel _ (Nat.pow_pos (by decide)), beBytes_fromBE]

/-- Encoding undoes decoding, up to the case of letters (44_base32.md R204). -/
theorem base32Encode_of_decode {chars bytes : List Byte} (hl : legalTextLength chars.length)
    (h : base32Decode chars = .ok bytes) : base32Encode bytes = chars.map upperCase := by
  obtain ⟨hv, hn, hb⟩ := base32Decode_ok h
  have hlen := length_of_base32Decode h
  have hc : encodedLength bytes.length = chars.length := by rw [hlen, encodedLength_decodedLength hl]
  have hlt : ∀ v ∈ chars.map fun b => (charValue b).getD 0, v < 32 := by
    intro v hv
    obtain ⟨b, -, rfl⟩ := List.mem_map.mp hv
    exact charValue_getD_lt b
  have hnum := base32Number_lt hlt
  rw [List.length_map] at hnum
  have e : 32 ^ chars.length = 256 ^ decodedLength chars.length *
      2 ^ leftoverBits chars.length (decodedLength chars.length) := by
    rw [show (32 : Nat) = 2 ^ 5 from rfl, show (256 : Nat) = 2 ^ 8 from rfl, ← Nat.pow_mul, ← Nat.pow_mul, ← Nat.pow_add]
    congr 1
    unfold leftoverBits decodedLength; omega
  have hfrom : fromBE bytes * 2 ^ leftoverBits chars.length (decodedLength chars.length) =
      base32Number (chars.map fun b => (charValue b).getD 0) := by
    rw [hb, fromBE_beBytes (Nat.div_lt_of_lt_mul (by rw [Nat.mul_comm, ← e]; exact hnum))]
    exact Nat.div_mul_cancel (Nat.dvd_of_mod_eq_zero hn)
  have hd := digits32_base32Number hlt
  rw [List.length_map] at hd
  rw [base32Encode_eq, hc, hlen, hfrom, hd, List.map_map]
  apply List.map_congr_left
  intro b hb
  obtain ⟨v, hv⟩ := hv b hb
  simp [hv, alpha_charValue hv]

end Sys2Proof.Machine
end

