-- ==== Sys2Proof/Laws/Decode.lean ====
section
/-! SUPPORT. Command words by their fields: a word is the concatenation of its five fields (30_encoding.md R80), and a row
of the opcode map is selected exactly by values of those fields (R83). Later proofs about decoding cite these and never
look at a mask. -/

namespace Sys2Proof

theorem bitVec_append_inj {w v : Nat} {a a' : BitVec w} {b b' : BitVec v} :
    a ++ b = a' ++ b' ↔ a = a' ∧ b = b' := by
  constructor
  · intro h
    have h := congrArg BitVec.toNat h
    rw [BitVec.toNat_append, BitVec.toNat_append, ← Nat.shiftLeft_add_eq_or_of_lt b.isLt,
      ← Nat.shiftLeft_add_eq_or_of_lt b'.isLt, Nat.shiftLeft_eq, Nat.shiftLeft_eq] at h
    have hp : 0 < 2 ^ v := by positivity
    have ha : (a.toNat * 2 ^ v + b.toNat) / 2 ^ v = (a'.toNat * 2 ^ v + b'.toNat) / 2 ^ v := by rw [h]
    have hb : (a.toNat * 2 ^ v + b.toNat) % 2 ^ v = (a'.toNat * 2 ^ v + b'.toNat) % 2 ^ v := by rw [h]
    rw [Nat.add_comm, Nat.add_mul_div_right _ _ hp, Nat.div_eq_of_lt b.isLt, Nat.add_comm _ b'.toNat,
      Nat.add_mul_div_right _ _ hp, Nat.div_eq_of_lt b'.isLt, Nat.zero_add, Nat.zero_add] at ha
    rw [Nat.add_comm, Nat.add_mul_mod_self_right, Nat.mod_eq_of_lt b.isLt, Nat.add_comm _ b'.toNat,
      Nat.add_mul_mod_self_right, Nat.mod_eq_of_lt b'.isLt] at hb
    exact ⟨BitVec.eq_of_toNat_eq ha, BitVec.eq_of_toNat_eq hb⟩
  · rintro ⟨rfl, rfl⟩
    rfl

/-- The word with the given fields (30_encoding.md R80). -/
def wordOfFields (rh : BitVec 16) (d : BitVec 4) (rl : BitVec 2) (a : BitVec 2) (op : BitVec 8) : Word :=
  rh ++ d ++ rl ++ a ++ op

/-- A word is its five fields (30_encoding.md R80). -/
theorem wordOfFields_fields (w : Word) :
    wordOfFields (reservedHigh w) (digitsBits w) (reservedLow w) (algBits w) (opField w) = w := by
  apply BitVec.eq_of_getLsbD_eq
  intro i hi
  simp only [wordOfFields, reservedHigh, digitsBits, reservedLow, algBits, opField, BitVec.getLsbD_append,
    BitVec.getLsbD_extractLsb']
  rcases Nat.lt_or_ge i 8 with h | h
  · simp [h]
  · rcases Nat.lt_or_ge i 10 with h' | h'
    · simp [show ¬ i < 8 by omega, show i - 8 < 2 by omega, show 8 + (i - 8) = i by omega]
    · rcases Nat.lt_or_ge i 12 with h'' | h''
      · simp [show ¬ i < 8 by omega, show ¬ i - 8 < 2 by omega, show i - 8 - 2 < 2 by omega,
          show 10 + (i - 8 - 2) = i by omega]
      · rcases Nat.lt_or_ge i 16 with h3 | h3
        · simp [show ¬ i < 8 by omega, show ¬ i - 8 < 2 by omega, show ¬ i - 8 - 2 < 2 by omega,
            show i - 8 - 2 - 2 < 4 by omega, show 12 + (i - 8 - 2 - 2) = i by omega]
        · simp [show ¬ i < 8 by omega, show ¬ i - 8 < 2 by omega, show ¬ i - 8 - 2 < 2 by omega,
            show ¬ i - 8 - 2 - 2 < 4 by omega, show i - 8 - 2 - 2 - 4 < 16 by omega,
            show 16 + (i - 8 - 2 - 2 - 4) = i by omega]

theorem wordOfFields_inj {rh rh' : BitVec 16} {d d' : BitVec 4} {rl rl' a a' : BitVec 2} {op op' : BitVec 8} :
    wordOfFields rh d rl a op = wordOfFields rh' d' rl' a' op' ↔
      rh = rh' ∧ d = d' ∧ rl = rl' ∧ a = a' ∧ op = op' := by
  unfold wordOfFields
  rw [bitVec_append_inj, bitVec_append_inj, bitVec_append_inj, bitVec_append_inj, and_assoc, and_assoc, and_assoc]

theorem wordOfFields_and (rh rh' : BitVec 16) (d d' : BitVec 4) (rl rl' a a' : BitVec 2) (op op' : BitVec 8) :
    wordOfFields rh d rl a op &&& wordOfFields rh' d' rl' a' op' =
      wordOfFields (rh &&& rh') (d &&& d') (rl &&& rl') (a &&& a') (op &&& op') := by
  unfold wordOfFields
  rw [BitVec.and_append, BitVec.and_append, BitVec.and_append, BitVec.and_append]

/-- Two words with equal fields are equal. -/
theorem word_ext_fields {v w : Word} (hh : reservedHigh v = reservedHigh w) (hd : digitsBits v = digitsBits w)
    (hl : reservedLow v = reservedLow w) (ha : algBits v = algBits w) (ho : opField v = opField w) : v = w := by
  rw [← wordOfFields_fields v, ← wordOfFields_fields w, hh, hd, hl, ha, ho]

/-- A row is selected field by field: the pattern and the mask, cut into fields, decide. -/
theorem selects_fields (r : OpcodeRow) (w : Word) :
    r.selects w = true ↔
      reservedHigh w &&& reservedHigh r.mask = reservedHigh r.pattern ∧
      digitsBits w &&& digitsBits r.mask = digitsBits r.pattern ∧
      reservedLow w &&& reservedLow r.mask = reservedLow r.pattern ∧
      algBits w &&& algBits r.mask = algBits r.pattern ∧
      opField w &&& opField r.mask = opField r.pattern := by
  rw [OpcodeRow.selects, beq_iff_eq, ← wordOfFields_inj, ← wordOfFields_and, wordOfFields_fields,
    wordOfFields_fields, wordOfFields_fields]

/-! ## The fields of the words the encoder writes -/

theorem commandWord_fields (op : BitVec 8) (a : BitVec 2) (d : Nat) :
    commandWord op a d = wordOfFields 0 (BitVec.ofNat 4 d) 0 a op := by
  apply BitVec.eq_of_getLsbD_eq
  intro i hi
  simp only [commandWord, wordOfFields, BitVec.getLsbD_append, BitVec.getLsbD_or, BitVec.getLsbD_setWidth,
    BitVec.getLsbD_shiftLeft]
  rcases Nat.lt_or_ge i 8 with h | h
  · simp [hi, h, show i < 12 by omega]
  · rcases Nat.lt_or_ge i 10 with h' | h'
    · simp [hi, show ¬ i < 8 by omega, show i - 8 < 2 by omega, show i < 12 by omega, show i - 8 < 32 by omega,
        BitVec.getLsbD_of_ge op i (by omega)]
    · rcases Nat.lt_or_ge i 12 with h'' | h''
      · simp [hi, show ¬ i < 8 by omega, show ¬ i - 8 < 2 by omega, show i - 8 - 2 < 2 by omega, show i < 12 by omega,
          BitVec.getLsbD_of_ge op i (by omega), BitVec.getLsbD_of_ge a (i - 8) (by omega)]
      · rcases Nat.lt_or_ge i 16 with h3 | h3
        · simp only [show i - 8 - 2 - 2 = i - 12 by omega]
          simp [hi, show ¬ i < 8 by omega, show ¬ i - 8 < 2 by omega, show ¬ i - 8 - 2 < 2 by omega,
            show i - 12 < 4 by omega, show ¬ i < 12 by omega, show i - 12 < 32 by omega,
            BitVec.getLsbD_of_ge op i (by omega), BitVec.getLsbD_of_ge a (i - 8) (by omega)]
        · simp [hi, show ¬ i < 8 by omega, show ¬ i - 8 < 2 by omega, show ¬ i - 8 - 2 < 2 by omega,
            show ¬ i - 8 - 2 - 2 < 4 by omega, show ¬ i < 12 by omega,
            BitVec.getLsbD_of_ge (BitVec.ofNat 4 d) (i - 12) (by omega),
            BitVec.getLsbD_of_ge op i (by omega), BitVec.getLsbD_of_ge a (i - 8) (by omega)]

theorem fields_wordOfFields (rh : BitVec 16) (d : BitVec 4) (rl a : BitVec 2) (op : BitVec 8) :
    reservedHigh (wordOfFields rh d rl a op) = rh ∧ digitsBits (wordOfFields rh d rl a op) = d ∧
      reservedLow (wordOfFields rh d rl a op) = rl ∧ algBits (wordOfFields rh d rl a op) = a ∧
      opField (wordOfFields rh d rl a op) = op :=
  wordOfFields_inj.mp (wordOfFields_fields _)

@[simp] theorem reservedHigh_commandWord (op : BitVec 8) (a : BitVec 2) (d : Nat) :
    reservedHigh (commandWord op a d) = 0 := by
  rw [commandWord_fields, (fields_wordOfFields _ _ _ _ _).1]

@[simp] theorem digitsBits_commandWord (op : BitVec 8) (a : BitVec 2) (d : Nat) :
    digitsBits (commandWord op a d) = BitVec.ofNat 4 d := by
  rw [commandWord_fields, (fields_wordOfFields _ _ _ _ _).2.1]

@[simp] theorem reservedLow_commandWord (op : BitVec 8) (a : BitVec 2) (d : Nat) :
    reservedLow (commandWord op a d) = 0 := by
  rw [commandWord_fields, (fields_wordOfFields _ _ _ _ _).2.2.1]

@[simp] theorem algBits_commandWord (op : BitVec 8) (a : BitVec 2) (d : Nat) :
    algBits (commandWord op a d) = a := by
  rw [commandWord_fields, (fields_wordOfFields _ _ _ _ _).2.2.2.1]

@[simp] theorem opField_commandWord (op : BitVec 8) (a : BitVec 2) (d : Nat) :
    opField (commandWord op a d) = op := by
  rw [commandWord_fields, (fields_wordOfFields _ _ _ _ _).2.2.2.2]

/-- The `ALG` selection and its bits are each other's inverse (30_encoding.md R81). -/
@[simp] theorem algOfBits_bits (a : AlgField) : algOfBits a.bits = a := by cases a <;> rfl

@[simp] theorem bits_algOfBits (b : BitVec 2) : (algOfBits b).bits = b := by revert b; decide

/-! ## Which words select which row (30_encoding.md R83) -/

/-- No reserved bit of the word is set (30_encoding.md R80). -/
abbrev reservedZero (w : Word) : Prop := reservedHigh w = 0 ∧ reservedLow w = 0

/-- A row whose mask covers every bit is selected by its pattern alone. -/
theorem selects_full (r : OpcodeRow) (w : Word) (hm : r.mask = 0xFFFFFFFF)
    (hp : r.pattern = wordOfFields 0 0 0 0 (opField r.pattern)) :
    r.selects w = true ↔ reservedZero w ∧ opField w = opField r.pattern ∧ algBits w = 0 ∧ digitsBits w = 0 := by
  obtain ⟨h1, h2, h3, h4, -⟩ := fields_wordOfFields 0 0 0 0 (opField r.pattern)
  rw [← hp] at h1 h2 h3 h4
  rw [selects_fields, hm, h1, h2, h3, h4]
  rw [show reservedHigh 0xFFFFFFFF = BitVec.allOnes 16 by decide,
    show digitsBits 0xFFFFFFFF = BitVec.allOnes 4 by decide, show reservedLow 0xFFFFFFFF = BitVec.allOnes 2 by decide,
    show algBits 0xFFFFFFFF = BitVec.allOnes 2 by decide, show opField 0xFFFFFFFF = BitVec.allOnes 8 by decide]
  simp only [BitVec.and_allOnes, reservedZero]
  tauto

theorem selects_hmac (n : String) (f : Word → Instr) (w : Word) :
    OpcodeRow.selects ⟨n, 0x00000010, 0xFFFFFCFF, f⟩ w = true ↔
      reservedZero w ∧ opField w = 0x10 ∧ digitsBits w = 0 := by
  rw [selects_fields]
  dsimp only
  rw [show reservedHigh 0xFFFFFCFF = BitVec.allOnes 16 by decide,
    show digitsBits 0xFFFFFCFF = BitVec.allOnes 4 by decide, show reservedLow 0xFFFFFCFF = BitVec.allOnes 2 by decide,
    show algBits 0xFFFFFCFF = 0#2 by decide, show opField 0xFFFFFCFF = BitVec.allOnes 8 by decide,
    show reservedHigh 0x00000010 = 0 by decide, show digitsBits 0x00000010 = 0 by decide,
    show reservedLow 0x00000010 = 0 by decide, show algBits 0x00000010 = 0#2 by decide,
    show opField 0x00000010 = 0x10 by decide]
  simp only [BitVec.and_allOnes, BitVec.and_zero, reservedZero]
  tauto

theorem selects_trunc (n : String) (f : Word → Instr) (w : Word) :
    OpcodeRow.selects ⟨n, 0x00000011, 0xFFFF0FFF, f⟩ w = true ↔
      reservedZero w ∧ opField w = 0x11 ∧ algBits w = 0 := by
  rw [selects_fields]
  dsimp only
  rw [show reservedHigh 0xFFFF0FFF = BitVec.allOnes 16 by decide,
    show digitsBits 0xFFFF0FFF = 0#4 by decide, show reservedLow 0xFFFF0FFF = BitVec.allOnes 2 by decide,
    show algBits 0xFFFF0FFF = BitVec.allOnes 2 by decide, show opField 0xFFFF0FFF = BitVec.allOnes 8 by decide,
    show reservedHigh 0x00000011 = 0 by decide, show digitsBits 0x00000011 = 0#4 by decide,
    show reservedLow 0x00000011 = 0 by decide, show algBits 0x00000011 = 0 by decide,
    show opField 0x00000011 = 0x11 by decide]
  simp only [BitVec.and_allOnes, BitVec.and_zero, reservedZero]
  tauto

theorem selects_hotp (n : String) (f : Word → Instr) (w : Word) :
    OpcodeRow.selects ⟨n, 0x00000012, 0xFFFF0CFF, f⟩ w = true ↔ reservedZero w ∧ opField w = 0x12 := by
  rw [selects_fields]
  dsimp only
  rw [show reservedHigh 0xFFFF0CFF = BitVec.allOnes 16 by decide,
    show digitsBits 0xFFFF0CFF = 0#4 by decide, show reservedLow 0xFFFF0CFF = BitVec.allOnes 2 by decide,
    show algBits 0xFFFF0CFF = 0#2 by decide, show opField 0xFFFF0CFF = BitVec.allOnes 8 by decide,
    show reservedHigh 0x00000012 = 0 by decide, show digitsBits 0x00000012 = 0#4 by decide,
    show reservedLow 0x00000012 = 0 by decide, show algBits 0x00000012 = 0#2 by decide,
    show opField 0x00000012 = 0x12 by decide]
  simp only [BitVec.and_allOnes, BitVec.and_zero, reservedZero]
  tauto

/-- Decoding over a list of rows; `decode` is this over the opcode map. -/
def decodeIn (rows : List OpcodeRow) (w : Word) : Decoded :=
  match rows.find? (·.selects w) with
  | some r => .legal (r.command w)
  | none => .illegal (illegalGround w)

theorem decode_eq_decodeIn (w : Word) : decode w = decodeIn opcodeMap w := rfl

/-- One row at a time. -/
theorem decodeIn_cons {r : OpcodeRow} {rows : List OpcodeRow} {w : Word} {P : Prop} [Decidable P]
    (h : r.selects w = true ↔ P) :
    decodeIn (r :: rows) w = if P then .legal (r.command w) else decodeIn rows w := by
  by_cases hP : P
  · simp only [if_pos hP, decodeIn, List.find?_cons, h.mpr hP]
  · have hf : r.selects w = false := by simpa using fun h' => hP (h.mp h')
    simp only [if_neg hP, decodeIn, List.find?_cons, hf]

/-- What a word decodes to, by its fields (30_encoding.md R83, R84). -/
theorem decode_eq (w : Word) :
    decode w =
      if reservedZero w ∧ opField w = 0x01 ∧ algBits w = 0 ∧ digitsBits w = 0 then .legal .ctr2b
      else if reservedZero w ∧ opField w = 0x02 ∧ algBits w = 0 ∧ digitsBits w = 0 then .legal .b2ctr
      else if reservedZero w ∧ opField w = 0x10 ∧ digitsBits w = 0 then .legal (.hmac (algOf w))
      else if reservedZero w ∧ opField w = 0x11 ∧ algBits w = 0 then .legal (.trunc (digitsOf w))
      else if reservedZero w ∧ opField w = 0x12 then .legal (.hotp (algOf w) (digitsOf w))
      else if reservedZero w ∧ opField w = 0x20 ∧ algBits w = 0 ∧ digitsBits w = 0 then .legal .cmp
      else if reservedZero w ∧ opField w = 0x30 ∧ algBits w = 0 ∧ digitsBits w = 0 then .legal .b32enc
      else if reservedZero w ∧ opField w = 0x31 ∧ algBits w = 0 ∧ digitsBits w = 0 then .legal .b32dec
      else if reservedZero w ∧ opField w = 0x40 ∧ algBits w = 0 ∧ digitsBits w = 0 then .legal .clear
      else .illegal (illegalGround w) := by
  rw [decode_eq_decodeIn, opcodeMap, decodeIn_cons (selects_full _ w rfl (by decide)),
    decodeIn_cons (selects_full _ w rfl (by decide)), decodeIn_cons (selects_hmac _ _ w),
    decodeIn_cons (selects_trunc _ _ w), decodeIn_cons (selects_hotp _ _ w),
    decodeIn_cons (selects_full _ w rfl (by decide)), decodeIn_cons (selects_full _ w rfl (by decide)),
    decodeIn_cons (selects_full _ w rfl (by decide)), decodeIn_cons (selects_full _ w rfl (by decide))]
  rfl

end Sys2Proof
end

