-- ==== Sys2Proof/Laws/PerInstr.lean ====
section
/-! SUPPORT. Facts about every instruction as syntax, one lemma a constructor. -/

namespace Sys2Proof.Laws.EncodedFields

open Sys2Proof

/-- The word of a command has no reserved bit set, an `OP` of the opcode map, and a zero in every field its row does not
use (30_encoding.md R80, R83, R84), whatever its operands are. -/
def Statement (i : Instr) : Prop :=
  reservedZero (encode i) ∧ opField (encode i) ∈ knownOps ∧
    (opField (encode i) ∉ opsUsingAlg → algBits (encode i) = 0) ∧
    (opField (encode i) ≠ 0x11 → opField (encode i) ≠ 0x12 → digitsBits (encode i) = 0)

theorem ctr2b : Statement .ctr2b := by simp [Statement, reservedZero, encode, knownOps]

theorem b2ctr : Statement .b2ctr := by simp [Statement, reservedZero, encode, knownOps]

theorem hmac (alg : AlgField) : Statement (.hmac alg) := by simp [Statement, reservedZero, encode, knownOps, opsUsingAlg]

theorem trunc (digits : Nat) : Statement (.trunc digits) := by simp [Statement, reservedZero, encode, knownOps]

theorem hotp (alg : AlgField) (digits : Nat) : Statement (.hotp alg digits) := by
  simp [Statement, reservedZero, encode, knownOps, opsUsingAlg]

theorem cmp : Statement .cmp := by simp [Statement, reservedZero, encode, knownOps]

theorem b32enc : Statement .b32enc := by simp [Statement, reservedZero, encode, knownOps]

theorem b32dec : Statement .b32dec := by simp [Statement, reservedZero, encode, knownOps]

theorem clear : Statement .clear := by simp [Statement, reservedZero, encode, knownOps]

end Sys2Proof.Laws.EncodedFields
end

