-- ==== Sys2Proof/Laws/Step.lean ====
section
/-! SUPPORT. What an access, the engine's turn and a step can do, said once each; and reading a register back after a
write (20_memory.md R62, R63). -/

namespace Sys2Proof.Machine

/-! ## The window -/

/-- `BASE + offset` names that offset (20_memory.md R60). -/
@[simp] theorem windowOffset_hostAddress {off : Nat} (h : off < 4096) : windowOffset (hostAddress off) = some off := by
  unfold windowOffset hostAddress Config.windowBytes
  rw [if_pos (by omega)]
  congr 1
  omega

theorem windowOffset_eq_none_iff (addr : Nat) :
    windowOffset addr = none ↔ addr < Config.base ∨ Config.base + 4096 ≤ addr := by
  unfold windowOffset Config.windowBytes
  split
  · simp; omega
  · simp; omega

theorem windowOffset_lt {addr off : Nat} (h : windowOffset addr = some off) : off < 4096 := by
  unfold windowOffset Config.windowBytes at h
  split at h
  · injection h with h; omega
  · cases h

/-! ## Reads -/

/-- "A read never changes any state of the block" (20_memory.md R62). -/
@[simp] theorem block_memRead (off : Nat) (s : State) : (memRead off s).block = s.block := by
  unfold memRead
  split <;> rfl

@[simp] theorem memRead_schedule (off : Nat) (s : State) : (memRead off s).schedule = s.schedule := by
  unfold memRead
  split <;> rfl

/-- A read answers some value. -/
theorem memRead_reply (off : Nat) (s : State) : ∃ v, (memRead off s).reply = some (.data v) := by
  unfold memRead
  split <;> exact ⟨_, rfl⟩

theorem memRead_value {off : Nat} {s : State} (h : readHasValue s (regAt off) = true) :
    memRead off s = { s with reply := some (.data (readReg s (regAt off))) } := if_pos h

theorem memRead_free {off : Nat} {s : State} (h : readHasValue s (regAt off) = false) :
    memRead off s = { s with reply := some (.data (Config.freeRead s.draws)), draws := s.draws + 1 } :=
  if_neg (by simp [h])

/-- The registers R49 lists are those a busy read answers. -/
theorem readableWhileBusy_iff (r : Reg) :
    r.readableWhileBusy = true ↔ r ∈ ([.id, .cmd, .status, .inten, .reserved] : List Reg) := by
  cases r <;> simp [Reg.readableWhileBusy]

/-! ## Writes -/

theorem busy_eq_false_iff (s : State) : s.busy = false ↔ s.seq = .idle := by
  unfold State.busy
  cases s.seq <;> simp [Seq.isBusy]

theorem busy_eq_true_iff (s : State) : s.busy = true ↔ ∃ w, s.seq = .busy w := by
  unfold State.busy
  cases s.seq <;> simp [Seq.isBusy]

theorem busy_of_seq {s : State} {w : Word} (h : s.seq = .busy w) : s.busy = true :=
  (busy_eq_true_iff s).mpr ⟨w, h⟩

/-- A property of both branches holds of the choice; with it the register map is walked one line at a time. -/
theorem reg_ite {c : Prop} [Decidable c] {P : Reg → Prop} {a b : Reg} (ha : c → P a) (hb : ¬c → P b) :
    P (if c then a else b) := by
  split
  · exact ha ‹_›
  · exact hb ‹_›

/-- What holds of every line of the register map (10_state.md R20) holds of the register at any offset. -/
theorem regAt_elim {P : Reg → Prop} (off : Nat) (hid : off = 0x000 → P .id) (hcmd : off = 0x004 → P .cmd)
    (hstatus : off = 0x008 → P .status) (hinten : off = 0x00C → P .inten) (hkeylen : off = 0x010 → P .keylen)
    (htextlen : off = 0x014 → P .textlen) (hsublen : off = 0x018 → P .sublen) (hcodelen : off = 0x01C → P .codelen)
    (hdiglen : off = 0x020 → P .diglen) (htrunc : off = 0x024 → P .trunc) (hctrHi : off = 0x028 → P .ctrHi)
    (hctrLo : off = 0x02C → P .ctrLo)
    (hmsg : 0x030 ≤ off ∧ off ≤ 0x034 → P (.msg ((off - 0x030) / 4)))
    (hcode : 0x040 ≤ off ∧ off ≤ 0x048 → P (.code ((off - 0x040) / 4)))
    (hsubmit : 0x050 ≤ off ∧ off ≤ 0x058 → P (.submit ((off - 0x050) / 4)))
    (hdigest : 0x080 ≤ off ∧ off ≤ 0x0BC → P (.digest ((off - 0x080) / 4)))
    (hkey : 0x100 ≤ off ∧ off ≤ 0x17C → P (.key ((off - 0x100) / 4)))
    (htext : 0x200 ≤ off ∧ off ≤ 0x2CC → P (.text ((off - 0x200) / 4)))
    (hreserved : P .reserved) : P (regAt off) := by
  unfold regAt
  exact reg_ite hid fun _ => reg_ite hcmd fun _ => reg_ite hstatus fun _ => reg_ite hinten fun _ =>
    reg_ite hkeylen fun _ => reg_ite htextlen fun _ => reg_ite hsublen fun _ => reg_ite hcodelen fun _ =>
    reg_ite hdiglen fun _ => reg_ite htrunc fun _ => reg_ite hctrHi fun _ => reg_ite hctrLo fun _ =>
    reg_ite hmsg fun _ => reg_ite hcode fun _ => reg_ite hsubmit fun _ => reg_ite hdigest fun _ =>
    reg_ite hkey fun _ => reg_ite htext fun _ => hreserved

/-- An aligned offset that is not reserved is its register's own offset (10_state.md R20). -/
theorem regOffset_regAt {off : Nat} (h4 : off % 4 = 0) : regAt off = .reserved ∨ regOffset (regAt off) = off := by
  refine regAt_elim (P := fun r => r = .reserved ∨ regOffset r = off) off ?_ ?_ ?_ ?_ ?_ ?_ ?_ ?_ ?_ ?_ ?_ ?_ ?_ ?_ ?_ ?_
    ?_ ?_ (.inl rfl) <;> (intro h; refine .inr ?_; simp only [regOffset]; omega)

theorem reservedOffset_iff (off : Nat) : reservedOffset off = true ↔
    (0x038 ≤ off ∧ off ≤ 0x03C) ∨ off = 0x04C ∨ (0x05C ≤ off ∧ off ≤ 0x07C) ∨ (0x0C0 ≤ off ∧ off ≤ 0x0FC) ∨
      (0x180 ≤ off ∧ off ≤ 0x1FC) ∨ (0x2D0 ≤ off ∧ off ≤ 0xFFC) := by
  simp only [reservedOffset, Bool.or_eq_true, decide_eq_true_eq, beq_iff_eq, or_assoc]

/-- The aligned offsets without a register are the reserved ones of the table (10_state.md R20). -/
theorem regAt_eq_reserved_iff {off : Nat} (hlt : off < 4096) (h4 : off % 4 = 0) :
    regAt off = .reserved ↔ reservedOffset off = true := by
  constructor
  · intro h
    by_contra hne
    rw [reservedOffset_iff] at hne
    revert h
    unfold regAt
    iterate 18 refine reg_ite (P := (· ≠ .reserved)) (fun _ => nofun) fun _ => ?_
    omega
  · intro h
    rw [reservedOffset_iff] at h
    unfold regAt
    iterate 18 rw [if_neg (by omega)]

/-- The register numbers the map answers lie in their buffers (10_state.md R20). -/
def Reg.inRange : Reg → Prop
  | .msg k => k < 2
  | .code k => k < 3
  | .submit k => k < 3
  | .digest k => k < 16
  | .key k => k < 32
  | .text k => k < 52
  | .id | .cmd | .status | .inten | .keylen | .textlen | .sublen | .codelen | .diglen | .trunc | .ctrHi | .ctrLo
  | .reserved => True

theorem regAt_inRange (off : Nat) : (regAt off).inRange := by
  refine regAt_elim (P := Reg.inRange) off ?_ ?_ ?_ ?_ ?_ ?_ ?_ ?_ ?_ ?_ ?_ ?_ ?_ ?_ ?_ ?_ ?_ ?_ trivial <;>
    (intro h; simp only [Reg.inRange]; try omega)

/-- `STATUS` stands at 0x008 and nowhere else. -/
theorem regAt_eq_status_iff (off : Nat) : regAt off = .status ↔ off = 0x008 := by
  constructor
  · refine regAt_elim (P := fun r => r = .status → off = 0x008) off ?_ ?_ ?_ ?_ ?_ ?_ ?_ ?_ ?_ ?_ ?_ ?_ ?_ ?_ ?_ ?_ ?_ ?_
      nofun <;> first | exact fun h _ => h | exact fun _ => nofun
  · rintro rfl; rfl

theorem regAt_eq_inten_iff (off : Nat) : regAt off = .inten ↔ off = 0x00C := by
  constructor
  · refine regAt_elim (P := fun r => r = .inten → off = 0x00C) off ?_ ?_ ?_ ?_ ?_ ?_ ?_ ?_ ?_ ?_ ?_ ?_ ?_ ?_ ?_ ?_ ?_ ?_
      nofun <;> first | exact fun h _ => h | exact fun _ => nofun
  · rintro rfl; rfl

theorem regAt_eq_cmd_iff (off : Nat) : regAt off = .cmd ↔ off = 0x004 := by
  constructor
  · refine regAt_elim (P := fun r => r = .cmd → off = 0x004) off ?_ ?_ ?_ ?_ ?_ ?_ ?_ ?_ ?_ ?_ ?_ ?_ ?_ ?_ ?_ ?_ ?_ ?_
      nofun <;> first | exact fun h _ => h | exact fun _ => nofun
  · rintro rfl; rfl

theorem regAt_eq_id_iff (off : Nat) : regAt off = .id ↔ off = 0x000 := by
  constructor
  · refine regAt_elim (P := fun r => r = .id → off = 0x000) off ?_ ?_ ?_ ?_ ?_ ?_ ?_ ?_ ?_ ?_ ?_ ?_ ?_ ?_ ?_ ?_ ?_ ?_
      nofun <;> first | exact fun h _ => h | exact fun _ => nofun
  · rintro rfl; rfl

theorem writableWhileBusy_iff (r : Reg) : r.writableWhileBusy = true ↔ r = .status ∨ r = .inten := by
  cases r <;> simp [Reg.writableWhileBusy]

/-- A refused write (10_state.md R29). -/
theorem memWrite_refused {off : Nat} {s : State} (v : Word) (hb : s.busy = true) (h8 : off ≠ 0x008) (hC : off ≠ 0x00C) :
    memWrite off v s = setOverrun s := by
  unfold memWrite
  rw [if_pos]
  have : (regAt off).writableWhileBusy = false := by
    rw [← Bool.not_eq_true, writableWhileBusy_iff, regAt_eq_status_iff, regAt_eq_inten_iff]
    tauto
  simp [hb, this]

theorem memWrite_status (v : Word) (s : State) : memWrite 0x008 v s = writeStatus v s := by
  unfold memWrite
  rw [(regAt_eq_status_iff 0x008).mpr rfl, if_neg (by simp [Reg.writableWhileBusy])]

theorem memWrite_inten (v : Word) (s : State) : memWrite 0x00C v s = writeInten v s := by
  unfold memWrite
  rw [(regAt_eq_inten_iff 0x00C).mpr rfl, if_neg (by simp [Reg.writableWhileBusy])]

theorem memWrite_cmd_idle (v : Word) {s : State} (h : s.seq = .idle) : memWrite 0x004 v s = accept v s := by
  unfold memWrite
  rw [(regAt_eq_cmd_iff 0x004).mpr rfl, if_neg (by simp [(busy_eq_false_iff s).mpr h])]
  simp [submitCommand, h]

/-- A write of another register while idle (20_memory.md R63). -/
theorem memWrite_idle {off : Nat} {s : State} (v : Word) (hb : s.busy = false) (h4 : off ≠ 0x004) (h8 : off ≠ 0x008)
    (hC : off ≠ 0x00C) : memWrite off v s = writeReg (regAt off) v s := by
  unfold memWrite
  rw [if_neg (by simp [hb])]
  have h1 := mt (regAt_eq_cmd_iff off).mp h4
  have h2 := mt (regAt_eq_status_iff off).mp h8
  have h3 := mt (regAt_eq_inten_iff off).mp hC
  cases h : regAt off <;> simp_all

/-- Everything a write can do, by the branches of 20_memory.md R63. -/
theorem memWrite_cases (off : Nat) (v : Word) (s : State) :
    (s.busy = true ∧ off ≠ 0x008 ∧ off ≠ 0x00C ∧ memWrite off v s = setOverrun s) ∨
    (s.seq = .idle ∧ off = 0x004 ∧ memWrite off v s = accept v s) ∨
    (off = 0x008 ∧ memWrite off v s = writeStatus v s) ∨
    (off = 0x00C ∧ memWrite off v s = writeInten v s) ∨
    (s.seq = .idle ∧ off ≠ 0x004 ∧ off ≠ 0x008 ∧ off ≠ 0x00C ∧ memWrite off v s = writeReg (regAt off) v s) := by
  by_cases h8 : off = 0x008
  · subst h8; exact .inr (.inr (.inl ⟨rfl, memWrite_status v s⟩))
  by_cases hC : off = 0x00C
  · subst hC; exact .inr (.inr (.inr (.inl ⟨rfl, memWrite_inten v s⟩)))
  cases hb : s.busy with
  | true => exact .inl ⟨rfl, h8, hC, memWrite_refused v hb h8 hC⟩
  | false =>
    have hi := (busy_eq_false_iff s).mp hb
    by_cases h4 : off = 0x004
    · subst h4; exact .inr (.inl ⟨hi, rfl, memWrite_cmd_idle v hi⟩)
    · exact .inr (.inr (.inr (.inr ⟨hi, h4, h8, hC, memWrite_idle v hb h4 h8 hC⟩)))

/-- What `writeReg` never touches: everything but the RW operand registers (10_state.md R50, 20_memory.md R63). -/
theorem writeReg_frame (r : Reg) (v : Word) (s : State) :
    (writeReg r v s).seq = s.seq ∧ (writeReg r v s).done = s.done ∧ (writeReg r v s).matched = s.matched ∧
      (writeReg r v s).overrun = s.overrun ∧ (writeReg r v s).errcode = s.errcode ∧
      (writeReg r v s).doneie = s.doneie ∧ (writeReg r v s).errie = s.errie ∧
      (writeReg r v s).codelen = s.codelen ∧ (writeReg r v s).diglen = s.diglen ∧ (writeReg r v s).trunc = s.trunc ∧
      (writeReg r v s).code = s.code ∧ (writeReg r v s).digest = s.digest ∧ (writeReg r v s).inReset = s.inReset ∧
      (writeReg r v s).schedule = s.schedule ∧ (writeReg r v s).reply = s.reply ∧ (writeReg r v s).draws = s.draws := by
  cases r <;> refine ⟨rfl, rfl, rfl, rfl, rfl, rfl, rfl, rfl, rfl, rfl, rfl, rfl, rfl, rfl, rfl, rfl⟩

/-- A write of one register leaves every other register's value (10_state.md R20, 20_memory.md R63). -/
theorem readReg_writeReg_ne {r r' : Reg} (v : Word) (s : State) (h : r.inRange) (hne : r' ≠ r) :
    readReg (writeReg r v s) r' = readReg s r' := by
  cases r with
  | keylen =>
    cases r' with
    | keylen => exact absurd rfl hne
    | _ => rfl
  | textlen =>
    cases r' with
    | textlen => exact absurd rfl hne
    | _ => rfl
  | sublen =>
    cases r' with
    | sublen => exact absurd rfl hne
    | _ => rfl
  | ctrHi =>
    cases r' with
    | ctrHi => exact absurd rfl hne
    | _ => rfl
  | ctrLo =>
    cases r' with
    | ctrLo => exact absurd rfl hne
    | _ => rfl
  | msg k =>
    cases r' with
    | msg j => exact bufWord_setBufWord_ne _ _ (by simp only [Reg.inRange] at h; omega) fun hj => hne (by rw [hj])
    | _ => rfl
  | submit k =>
    cases r' with
    | submit j => exact bufWord_setBufWord_ne _ _ (by simp only [Reg.inRange] at h; omega) fun hj => hne (by rw [hj])
    | _ => rfl
  | key k =>
    cases r' with
    | key j => exact bufWord_setBufWord_ne _ _ (by simp only [Reg.inRange] at h; omega) fun hj => hne (by rw [hj])
    | _ => rfl
  | text k =>
    cases r' with
    | text j => exact bufWord_setBufWord_ne _ _ (by simp only [Reg.inRange] at h; omega) fun hj => hne (by rw [hj])
    | _ => rfl
  | id | cmd | status | inten | codelen | diglen | trunc | code _ | digest _ | reserved => rfl

theorem wordOffset_iff (off : Nat) : wordOffset off = true ↔
    (0x028 ≤ off ∧ off ≤ 0x034) ∨ (0x050 ≤ off ∧ off ≤ 0x058) ∨ (0x100 ≤ off ∧ off ≤ 0x17C) ∨
      (0x200 ≤ off ∧ off ≤ 0x2CC) := by
  simp only [wordOffset, Bool.or_eq_true, decide_eq_true_eq, or_assoc]

/-- A whole register reads back what was written to it. -/
theorem readReg_writeReg_same {r : Reg} (v : Word) (s : State) (h : r.inRange)
    (hw : wordOffset (regOffset r) = true) : readReg (writeReg r v s) r = v := by
  cases r with
  | ctrHi | ctrLo => rfl
  | msg k | submit k | key k | text k => exact bufWord_setBufWord_same _ _ (by simp only [Reg.inRange] at h; omega)
  | code k | digest k =>
    rw [wordOffset_iff] at hw
    simp only [regOffset, Reg.inRange] at hw h
    omega
  | id | cmd | status | inten | keylen | textlen | sublen | codelen | diglen | trunc | reserved =>
    simp [wordOffset, regOffset] at hw

/-- Two aligned offsets with one register are one offset, or reserved. -/
theorem regAt_inj {off off' : Nat} (h : off % 4 = 0) (h' : off' % 4 = 0) (he : regAt off' = regAt off)
    (hr : regAt off ≠ .reserved) : off' = off := by
  have h1 := (regOffset_regAt h).resolve_left hr
  have h2 := (regOffset_regAt h').resolve_left (he ▸ hr)
  rw [← h1, ← h2, he]

/-- Register `k` of a buffer, at the offset the register map gives it (10_state.md R20, R40). -/
theorem regAt_buffer {b : Buffer} {k : Nat} (h : 4 * k < bufferSize b) : regAt (bufferBase b + 4 * k) = bufferReg b k := by
  have walk (B : Buffer) (n : Nat) (hn : ∀ k, k < n → regAt (bufferBase B + 4 * k) = bufferReg B k)
      (hs : bufferSize B = 4 * n) (hk : 4 * k < bufferSize B) : regAt (bufferBase B + 4 * k) = bufferReg B k :=
    hn k (by omega)
  cases b with
  | msg => exact walk .msg 2 (by decide) rfl h
  | code => exact walk .code 3 (by decide) rfl h
  | submit => exact walk .submit 3 (by decide) rfl h
  | digest => exact walk .digest 16 (by decide) rfl h
  | key => exact walk .key 32 (by decide) rfl h
  | text => exact walk .text 52 (by decide) rfl h

/-! ## Accesses -/

/-- Everything an access of the window can do: a bus error, a read, a write, or (under reset) a write without effect. -/
theorem hostAccess_cases {a : HostAccess} {s t : State} (h : hostAccess a s = .next t) :
    ∃ off, windowOffset (accessAddr a) = some off ∧
      ((legalAccess (accessWidth a) off = false ∧ t = { s with reply := some (.busError off) }) ∨
       (legalAccess (accessWidth a) off = true ∧ t = memRead off s) ∨
       (legalAccess (accessWidth a) off = true ∧ s.inReset = true ∧ t = { s with reply := some .written }) ∨
       (legalAccess (accessWidth a) off = true ∧ s.inReset = false ∧
         ∃ v, t = { memWrite off v s with reply := some .written })) := by
  unfold hostAccess at h
  split at h
  · cases h
  · rename_i off hoff
    refine ⟨off, hoff, ?_⟩
    split at h
    · rename_i hl
      split at h
      · injection h with h
        exact .inr (.inl ⟨hl, h.symm⟩)
      · injection h with h
        cases hr : s.inReset with
        | true => exact .inr (.inr (.inl ⟨hl, rfl, by rw [← h, busWrite, if_pos hr, hr]⟩))
        | false => exact .inr (.inr (.inr ⟨hl, rfl, _, by rw [← h, busWrite, if_neg (by simp [hr])]⟩))
    · rename_i hl
      injection h with h
      exact .inl ⟨by simpa using hl, h.symm⟩

/-- An aligned 32-bit read of the window. -/
theorem hostAccess_read {off : Nat} (s : State) (h : off < 4096) (h4 : off % 4 = 0) :
    hostAccess (.read .w32 (hostAddress off)) s = .next (memRead off s) := by
  unfold hostAccess
  rw [show accessAddr (.read .w32 (hostAddress off)) = hostAddress off from rfl, windowOffset_hostAddress h]
  simp [accessWidth, legalAccess, h4]

/-- An aligned 32-bit write of the window. -/
theorem hostAccess_write {off : Nat} (v : Word) (s : State) (h : off < 4096) (h4 : off % 4 = 0) :
    hostAccess (.write .w32 (hostAddress off) v) s = .next (busWrite off v s) := by
  unfold hostAccess
  rw [show accessAddr (.write .w32 (hostAddress off) v) = hostAddress off from rfl, windowOffset_hostAddress h]
  simp [accessWidth, legalAccess, h4]

/-! ## The engine and the step -/

theorem engineTurn_inReset {s : State} (h : s.inReset = true) : engineTurn s = .next s := if_pos h

theorem engineTurn_idle {s : State} (h : s.seq = .idle) : engineTurn s = .next s := by
  unfold engineTurn
  split
  · rfl
  · rw [h]

theorem engineTurn_busy {s : State} {w : Word} (hr : s.inReset = false) (h : s.seq = .busy w) :
    engineTurn s = completeWord w s := by
  unfold engineTurn
  rw [if_neg (by simp [hr]), h]

theorem completeWord_legal {w : Word} {i : Instr} (h : decode w = .legal i) (s : State) :
    completeWord w s = exec i s := by
  unfold completeWord
  rw [h]

theorem completeWord_illegal {w : Word} {why : IllegalWord} (h : decode w = .illegal why) (s : State) :
    completeWord w s = .next (raiseError .illegalCmd s) := by
  unfold completeWord
  rw [h]

/-- Everything the engine's turn can do. -/
theorem engineTurn_cases (s : State) :
    engineTurn s = .next s ∨
    (∃ w, s.inReset = false ∧ s.seq = .busy w ∧
      ((∃ why, decode w = .illegal why ∧ engineTurn s = .next (raiseError .illegalCmd s)) ∨
       (∃ i, decode w = .legal i ∧ engineTurn s = exec i s))) := by
  cases hr : s.inReset with
  | true => exact .inl (engineTurn_inReset hr)
  | false =>
    cases hs : s.seq with
    | idle => exact .inl (engineTurn_idle hs)
    | busy w =>
      refine .inr ⟨w, rfl, rfl, ?_⟩
      rw [engineTurn_busy hr hs]
      cases hd : decode w with
      | legal i => exact .inr ⟨i, rfl, completeWord_legal hd s⟩
      | illegal why => exact .inl ⟨why, rfl, completeWord_illegal hd s⟩

theorem exec_next (i : Instr) (s : State) : ∃ t, exec i s = .next t := by
  rcases exec_cases i s with ⟨_, _, h⟩ | ⟨_, _, h⟩ <;> exact ⟨_, h⟩

theorem engineTurn_next (s : State) : ∃ t, engineTurn s = .next t := by
  rcases engineTurn_cases s with h | ⟨_, _, _, ⟨_, _, h⟩ | ⟨i, _, h⟩⟩
  · exact ⟨_, h⟩
  · exact ⟨_, h⟩
  · rw [h]; exact exec_next i s

theorem step_nil {s : State} (h : s.schedule = []) : step s = engineTurn s := by unfold step; rw [h]

theorem step_engine {s : State} {rest : List Turn} (h : s.schedule = .engine :: rest) :
    step s = engineTurn { s with schedule := rest } := by unfold step; rw [h]

theorem step_access {s : State} {a : HostAccess} {rest : List Turn} (h : s.schedule = .access a :: rest) :
    step s = hostAccess a { s with schedule := rest } := by unfold step; rw [h]

theorem step_resetLine {s : State} {b : Bool} {rest : List Turn} (h : s.schedule = .resetLine b :: rest) :
    step s = .next (setResetLine b { s with schedule := rest }) := by unfold step; rw [h]

end Sys2Proof.Machine
end

