-- ==== Sys2Proof/Tests/Slice0.lean ====
section
/-! SUPPORT. The model's own tests: ill-formed instructions, decoded words, and one completion or access each with the
result 95_test_vectors.md gives (its row is named); then, for every statement with hypotheses, a state and operands that
meet them. Every expected value is the spec's. -/

namespace Sys2Proof.Tests

open Sys2Proof Sys2Proof.Machine

/-! ## Helpers -/

/-- The bytes of an ASCII text. -/
def ascii (str : String) : List Byte := str.toList.map fun c => BitVec.ofNat 8 c.toNat

/-- What `f` reads in the state a command leaves. -/
def after {α : Type} (i : Instr) (s : State) (f : State → α) : Option α :=
  match exec i s with
  | .next t => some (f t)
  | .fault _ => none
  | .refused _ => none

/-- The reset state holding the command word `w`. -/
def held (w : Word) : State := { State.reset with seq := .busy w }

/-- The reset state under reset. -/
def underReset : State := { State.reset with inReset := true }

/-- The reset state with a secret, and a counter in `CTR` and in `MSG`. -/
def keyed (key : List Byte) (ctr : Word) : State :=
  { State.reset with
    key := zeroFill 128 key, keylen := BitVec.ofNat 8 key.length, ctrLo := ctr, msg := zeroFill 8 (beBytes 8 ctr.toNat) }

/-- The secret `K20`. -/
def k20 : List Byte := ascii "12345678901234567890"

/-- `K_n`, with `K_n[i] = (7 * i + 3) mod 256` (95_test_vectors.md, 2.3). -/
def patternKey (n : Nat) : List Byte := (List.range n).map fun i => BitVec.ofNat 8 (7 * i + 3)

/-- The state before each row of the decoding vectors (95_test_vectors.md, 2.6). -/
def texted (text : List Byte) : State :=
  { State.reset with
    text := zeroFill 208 text, textlen := BitVec.ofNat 8 text.length, key := zeroFill 128 (List.replicate 8 0xAA)
    keylen := 8 }

/-- A state whose digest is row 7 of 95_test_vectors.md 1.1. -/
def digested : State :=
  { State.reset with
    digest := zeroFill 64 [0xa4, 0xfb, 0x96, 0x0c, 0x0b, 0xc0, 0x6e, 0x1e, 0xab, 0xb8, 0x04, 0xe5, 0xb3, 0x97, 0xcd, 0xc4,
      0xb4, 0x55, 0x96, 0xfa]
    diglen := 20 }

/-- A state whose code is "287082", with a code submitted. -/
def submitted (text : List Byte) (len : Byte) : State :=
  { State.reset with
    code := zeroFill 12 (ascii "287082"), codelen := 6, trunc := 0x41397EEA, submit := zeroFill 12 text, sublen := len }

/-! ## Well-formedness: an ill-formed term for each check -/

theorem test_wf_refuses_wide_digits : (Instr.trunc 16).wf = false ∧ (Instr.hotp .sha1 16).wf = false := by decide

theorem test_wf_takes_every_field_value :
    (∀ d, d < 16 → (Instr.trunc d).wf = true ∧ (Instr.hotp .reserved d).wf = true) ∧ (Instr.hmac .reserved).wf = true := by
  decide

/-! ## Decoding: words written bit by bit from 30_encoding.md R80, R83 -/

theorem test_decode_ctr2b : decode 0b0000000000000000_0000_00_00_00000001 = .legal .ctr2b := by decide

theorem test_decode_b2ctr : decode 0b0000000000000000_0000_00_00_00000010 = .legal .b2ctr := by decide

theorem test_decode_hmac : decode 0b0000000000000000_0000_00_10_00010000 = .legal (.hmac .sha512) := by decide

theorem test_decode_trunc : decode 0b0000000000000000_0110_00_00_00010001 = .legal (.trunc 6) := by decide

theorem test_decode_hotp : decode 0b0000000000000000_1000_00_01_00010010 = .legal (.hotp .sha256 8) := by decide

theorem test_decode_cmp : decode 0b0000000000000000_0000_00_00_00100000 = .legal .cmp := by decide

theorem test_decode_b32enc : decode 0b0000000000000000_0000_00_00_00110000 = .legal .b32enc := by decide

theorem test_decode_b32dec : decode 0b0000000000000000_0000_00_00_00110001 = .legal .b32dec := by decide

theorem test_decode_clear : decode 0b0000000000000000_0000_00_00_01000000 = .legal .clear := by decide

/-- 95_test_vectors.md 2.7, with the ground it gives. -/
theorem test_decode_illegal_words :
    decode 0x00000000 = .illegal .unknownOp ∧ decode 0x00000800 = .illegal .unknownOp ∧
    decode 0x00000101 = .illegal .unusedAlg ∧ decode 0x00001001 = .illegal .unusedDigits ∧
    decode 0x00006010 = .illegal .unusedDigits ∧ decode 0x00000411 = .illegal .reservedBits ∧
    decode 0x00006111 = .illegal .unusedAlg ∧ decode 0x00000311 = .illegal .unusedAlg ∧
    decode 0x00010012 = .illegal .reservedBits ∧ decode 0x00006812 = .illegal .reservedBits ∧
    decode 0x00000120 = .illegal .unusedAlg ∧ decode 0x80000040 = .illegal .reservedBits := by decide

/-- Row T12 and the last lines of 95_test_vectors.md 2.7: legal words. -/
theorem test_decode_reserved_alg_is_legal :
    decode 0x00000312 = .legal (.hotp .reserved 0) ∧ decode 0x00000310 = .legal (.hmac .reserved) := by decide

/-! ## Commands: one completion each (95_test_vectors.md 2.2 to 2.8) -/

/-- C3. -/
theorem test_ctr2b : after .ctr2b { State.reset with ctrHi := 0x01234567, ctrLo := 0x89ABCDEF }
    (fun t => (statusWord t, bufWord t.msg 0, bufWord t.msg 1)) = some (0x2, 0x01234567, 0x89ABCDEF) := by
  decide +kernel

/-- C5. -/
theorem test_b2ctr : after .b2ctr { State.reset with msg := zeroFill 8 [0x80, 0, 0, 0, 0, 0, 0, 1] }
    (fun t => (statusWord t, t.ctrHi, t.ctrLo)) = some (0x2, 0x80000000, 0x00000001) := by decide +kernel

/-- L8: SHA-256, a key that is hashed first. -/
theorem test_hmac_sha256_long_key : after (.hmac .sha256) (keyed (patternKey 65) 1)
    (fun t => (statusWord t, t.diglen, bufWord t.digest 0, bufWord t.digest 7, bufWord t.digest 8)) =
      some (0x2, 32, 0x158966a3, 0x620cbb29, 0) := by decide +kernel

/-- H3: SHA-512. -/
theorem test_hmac_sha512 : after (.hmac .sha512) (keyed k20 1)
    (fun t => (statusWord t, t.diglen, bufWord t.digest 0, bufWord t.digest 15)) =
      some (0x2, 64, 0x68a0d9fc, 0x4b0b910d) := by decide +kernel

/-- T1: nine digits, a leading zero. -/
theorem test_trunc : after (.trunc 9) digested
    (fun t => (statusWord t, t.trunc, bufWord t.code 0, bufWord t.code 1, bufWord t.code 2, t.codelen)) =
      some (0x2, 82162583, 0x30383231, 0x36323538, 0x33000000, 9) := by decide +kernel

/-- T7 and T9: a bad digit count is reported before a missing digest. -/
theorem test_trunc_errors : after (.trunc 10) digested statusWord = some 0x306 ∧
    after (.trunc 0) State.reset statusWord = some 0x306 ∧ after (.trunc 6) State.reset statusWord = some 0x906 := by
  decide +kernel

/-- 95_test_vectors.md 1.1, row 1: the code RFC 4226 gives. -/
theorem test_hotp : after (.hotp .sha1 6) { keyed k20 1 with msg := Vector.replicate 8 0 }
    (fun t => (statusWord t, bufWord t.msg 1, bufWord t.digest 0, t.trunc, bufWord t.code 0, bufWord t.code 1)) =
      some (0x2, 1, 0x75a48a19, 0x41397EEA, 0x32383730, 0x38320000) := by decide +kernel

/-- T12 to T15: the order of the checks. -/
theorem test_hotp_errors : after (.hotp .reserved 0) State.reset statusWord = some 0x206 ∧
    after (.hotp .sha1 0) State.reset statusWord = some 0x306 ∧
    after (.hotp .sha1 6) State.reset statusWord = some 0x406 ∧
    after (.hotp .sha256 6) { State.reset with keylen := 129 } statusWord = some 0x506 := by decide +kernel

/-- M9: bytes at and above `SUBLEN` are not compared; M2: the last digit is. -/
theorem test_cmp : after .cmp (submitted (ascii "287082XYZW") 6) statusWord = some 0xA ∧
    after .cmp (submitted (ascii "287083") 6) statusWord = some 0x2 := by decide +kernel

/-- M7: no code never matches; M5: a wrong length. -/
theorem test_cmp_lengths : after .cmp State.reset statusWord = some 0x2 ∧
    after .cmp (submitted (ascii "2870820") 7) statusWord = some 0x2 := by decide +kernel

/-- E6: "foobar". -/
theorem test_b32enc : after .b32enc (keyed (ascii "foobar") 0)
    (fun t => (statusWord t, t.textlen, bufWord t.text 0, bufWord t.text 1, bufWord t.text 2, bufWord t.text 3)) =
      some (0x2, 10, 0x4D5A5857, 0x36595442, 0x4F490000, 0) := by decide +kernel

/-- E12, E13. -/
theorem test_b32enc_errors : after .b32enc State.reset statusWord = some 0x406 ∧
    after .b32enc { State.reset with keylen := 129 } statusWord = some 0x506 := by decide +kernel

/-- D7: "mzxw6ytboi". -/
theorem test_b32dec : after .b32dec (texted (ascii "mzxw6ytboi"))
    (fun t => (statusWord t, t.keylen, bufWord t.key 0, bufWord t.key 1, bufWord t.key 2)) =
      some (0x2, 6, 0x666f6f62, 0x61720000, 0) := by decide +kernel

/-- D12, D22, D23: the order of the checks, and that an error leaves the key. -/
theorem test_b32dec_errors :
    after .b32dec (texted (ascii "MZ")) (fun t => (statusWord t, t.keylen, bufWord t.key 1)) =
      some (0x806, 8, 0xAAAAAAAA) ∧
    after .b32dec (texted (ascii "Z1")) statusWord = some 0x706 ∧
    after .b32dec (texted (ascii "MZ1")) statusWord = some 0x606 := by decide +kernel

/-- X5: `INTEN` and `OVERRUN` are kept. -/
theorem test_clear : after .clear
    { submitted (ascii "287082") 6 with doneie := true, errie := true, overrun := true, matched := true }
    (fun t => (statusWord t, intenWord t, bufWord t.code 0, t.codelen, bufWord t.submit 0)) =
      some (0x12, 0x3, 0, 0, 0) := by decide +kernel

/-! ## Accesses and turns (95_test_vectors.md 2.1) -/

/-- A3, A4, A5, A7: writes while idle. -/
theorem test_writes : readReg (memWrite 0x010 0x1FF State.reset) .keylen = 0xFF ∧
    readReg (memWrite 0x00C 0xFFFFFFFF State.reset) .inten = 0x3 ∧
    readReg (memWrite 0x020 5 State.reset) .diglen = 0 ∧
    readReg (memWrite 0x02C 0xDEADBEEF State.reset) .ctrLo = 0xDEADBEEF := by decide +kernel

/-- A13, A14: writes while busy. -/
theorem test_busy_writes : statusWord (memWrite 0x010 5 (held 0x20)) = 0x11 ∧
    (memWrite 0x010 5 (held 0x20)).keylen = 0 ∧ intenWord (memWrite 0x00C 1 (held 0x20)) = 1 ∧
    statusWord (memWrite 0x008 0x10 (memWrite 0x00C 1 (held 0x20))) = 0x1 := by decide +kernel

/-- A9: a write of all ones to `STATUS` clears `DONE` and keeps the error. -/
theorem test_status_write : statusWord (memWrite 0x008 0xFFFFFFFF (raiseError .emptyKey State.reset)) = 0x404 := by
  decide

/-- A11: acceptance keeps `MATCH`. -/
theorem test_accept_keeps_match :
    statusWord (memWrite 0x004 0x40 { State.reset with matched := true, done := true }) = 0x9 := by decide

/-- Q1, Q3, Q4: the interrupt. -/
theorem test_irq : after .cmp { State.reset with doneie := true } State.irq = some true ∧
    after .cmp { State.reset with errie := true } State.irq = some false ∧
    after (.hmac .sha1) { State.reset with errie := true } State.irq = some true := by decide +kernel

/-- The placed word is the next one to run: `STATUS` after one step is that of row A10. -/
theorem test_step_runs_the_placed_word : decodeTableWord 32 0x20 = some .cmp ∧
    (match step (State.reset.withFetchWord 32 0x20) with
      | .next t => statusWord t
      | .fault _ => 0
      | .refused _ => 0) = 0x2 := by decide +kernel

/-! ## Witnesses: the hypotheses of each statement are met, clause by clause, at boundary values -/

/-- What `after` answers is read in a next state. -/
theorem of_after {α : Type} {i : Instr} {s : State} {f : State → α} {a : α} (h : after i s f = some a) :
    ∃ t, exec i s = .next t ∧ f t = a := by
  unfold after at h
  split at h
  · exact ⟨_, by assumption, by simpa using h⟩
  · cases h
  · cases h

theorem witness_ResetAbandonsTheCommand : underReset.inReset = true ∧ (0xFFC < 4096 ∧ 0xFFC % 4 = 0) ∧
    ∃ t, hostAccess (.read .w32 (hostAddress 0xFFC)) underReset = .next t :=
  ⟨rfl, by decide, _, hostAccess_read underReset (by decide) (by decide)⟩

theorem witness_EngineRestsUntilResetIsReleased : underReset.inReset = true ∧
    { underReset with schedule := [.engine] }.schedule = .engine :: [] ∧
    { underReset with schedule := [.resetLine false] }.schedule = .resetLine false :: [] := ⟨rfl, rfl, rfl⟩

theorem witness_StepRunsTheDecodedCommand :
    ((held 0x20).inReset = false ∧ (held 0x20).seq = .busy 0x20 ∧ decode 0x20 = .legal .cmp) ∧
    (held 0x20).schedule = [] ∧ { held 0x20 with schedule := [.engine] }.schedule = .engine :: [] ∧
    decodeTableWord 32 0xF312 = some (.hotp .reserved 15) ∧
    { held 0x20 with schedule := [rdTurn .status] }.schedule = .access (.read .w32 (hostAddress 0x008)) :: [] :=
  ⟨by decide +kernel, rfl, rfl, by decide +kernel, rfl⟩

theorem witness_IllegalWordOnlyReportsIllegalCmd :
    (held 0x0).inReset = false ∧ (held 0x0).seq = .busy 0x0 ∧ decode 0x0 = .illegal .unknownOp := by decide +kernel

theorem witness_LegalWordsAreExactlyTheRows : decode 0xF312 = .legal (.hotp .reserved 15) ∧
    decode 0x80000040 = .illegal .reservedBits ∧ State.reset.seq = .idle ∧
    (held 0xF312).inReset = false ∧ (held 0xF312).seq = .busy 0xF312 ∧ (held 0x80000040).seq = .busy 0x80000040 := by
  decide +kernel

theorem witness_DecodeOfEncode : Instr.WellFormed (.hotp .reserved 15) ∧ Instr.WellFormed (.trunc 0) ∧
    Instr.WellFormed .ctr2b := by decide

theorem witness_EncodeOfDecode : decode 0xF312 = .legal (.hotp .reserved 15) ∧ decode 0x11 = .legal (.trunc 0) := by decide

theorem witness_OffsetsNameTheirRegisters : 4 * 51 < bufferSize .text ∧ 4 * 0 < bufferSize .msg ∧
    4 * 2 < bufferSize .code ∧ 4 * 2 < bufferSize .submit ∧ 4 * 15 < bufferSize .digest ∧ 4 * 31 < bufferSize .key ∧
    (∀ off ∈ [0x038, 0x03C, 0x04C, 0x05C, 0x07C, 0x0C0, 0x0FC, 0x180, 0x1FC, 0x2D0, 0xFFC],
      off < 4096 ∧ off % 4 = 0 ∧ reservedOffset off = true) ∧
    (∀ off ∈ [0x034, 0x040, 0x048, 0x050, 0x058, 0x080, 0x0BC, 0x100, 0x17C, 0x200, 0x2CC],
      off % 4 = 0 ∧ reservedOffset off = false) ∧
    State.reset.busy = false ∧ (held 0x20).busy = true ∧ State.reset.inReset = false := by decide

theorem witness_CommandWriteAcceptsOrOverruns : State.reset.seq = .idle ∧ (held 0x20).seq = .busy 0x20 := ⟨rfl, rfl⟩

theorem witness_OverrunIsStickyAndSetByRefusedWrites :
    ((held 0x20).busy = true ∧ 0x004 ≠ 0x008 ∧ 0x004 ≠ 0x00C) ∧
    (State.reset.busy = false ∧ (memWrite 0x010 0 { State.reset with overrun := true }).overrun = true) ∧
    ({ State.reset with overrun := true }.overrun = true ∧ ¬(0x008 = 0x008 ∧ (0xFFFFFFEF : Word).getLsbD 4 = true) ∧
      ¬(0x00C = 0x008 ∧ (0xFFFFFFFF : Word).getLsbD 4 = true)) ∧
    ∃ t, exec .clear { State.reset with overrun := true } = .next t :=
  ⟨by decide, by decide, by decide, _, rfl⟩

theorem witness_StatusLayoutAndWrite : (.ok, 0) ∈ ([(.ok, 0), (.illegalCmd, 1), (.badAlg, 2), (.badDigits, 3),
      (.emptyKey, 4), (.keyTooLong, 5), (.badTextLength, 6), (.badChar, 7), (.noncanonical, 8), (.noDigest, 9)] :
      List (ErrCode × BitVec 4)) ∧
    (.noDigest, 9) ∈ ([(.ok, 0), (.illegalCmd, 1), (.badAlg, 2), (.badDigits, 3), (.emptyKey, 4), (.keyTooLong, 5),
      (.badTextLength, 6), (.badChar, 7), (.noncanonical, 8), (.noDigest, 9)] : List (ErrCode × BitVec 4)) := by decide

theorem witness_IntenLayoutAndWrite : ∃ t, exec .cmp { State.reset with doneie := true } = .next t := ⟨_, rfl⟩

theorem witness_HostWriteFollowsTheTable : (0xFFC < 4096 ∧ 0xFFC % 4 = 0) ∧ (held 0x20).busy = true ∧
    (held 0x20).inReset = false ∧ State.reset.busy = false ∧ State.reset.inReset = false ∧ (lengthOffset 0x010 = true ∧ lengthOffset 0x018 = true) ∧
    (wordOffset 0x028 = true ∧ wordOffset 0x034 = true ∧ wordOffset 0x050 = true ∧ wordOffset 0x058 = true ∧
      wordOffset 0x100 = true ∧ wordOffset 0x17C = true ∧ wordOffset 0x200 = true ∧ wordOffset 0x2CC = true) ∧
    (∀ off ∈ [0x000, 0x01C, 0x020, 0x024, 0x038, 0x040, 0x048, 0x080, 0x0BC, 0x0FC, 0x180, 0x2D0, 0xFFC],
      lengthOffset off = false ∧ wordOffset off = false ∧ off ≠ 0x004 ∧ off ≠ 0x008 ∧ off ≠ 0x00C) := by decide

theorem witness_BuffersPackBigEndian : 207 < bufferSize .text ∧ 0 < bufferSize .digest ∧ State.reset.busy = false ∧
    Buffer.writable .text = true ∧ 4 * 51 < bufferSize .text ∧ Buffer.writable .msg = true ∧ 4 * 0 < bufferSize .msg := by
  decide

theorem witness_ReadsAnswerAndChangeNothing : (0xFFC < 4096 ∧ 0xFFC % 4 = 0) ∧ State.reset.inReset = false ∧
    State.reset.busy = false ∧ (held 0x20).inReset = false ∧ (held 0x20).busy = true ∧
    regAt 0x00C ∈ ([.id, .cmd, .status, .inten, .reserved] : List Reg) ∧
    regAt 0x010 ∉ ([.id, .cmd, .status, .inten, .reserved] : List Reg) ∧ (7 = 7 ∧ 12 ≤ 12 ∧ 2 ≤ 2) ∧
    Reg.diglen ∈ ([.keylen, .textlen, .sublen, .codelen, .diglen] : List Reg) ∧ 8 ≤ 8 := by decide

theorem witness_BusyReadsAreUnspecified : (0x00C < 4096 ∧ 0x00C % 4 = 0) ∧
    (held 0x20).inReset = false ∧ (held 0x20).busy = true ∧
    regAt 0x00C ∈ ([.id, .cmd, .status, .inten, .reserved] : List Reg) ∧
    regAt 0x010 ∉ ([.id, .cmd, .status, .inten, .reserved] : List Reg) ∧
    (held 0x40).draws = (held 0x20).draws ∧ (held 0x40).inReset = false ∧ (held 0x40).busy = true ∧
    ∃ t, hostAccess (.read .w32 (hostAddress 0x010)) (held 0x40) = .next t :=
  ⟨by decide, rfl, rfl, by decide, by decide, rfl, rfl, rfl, _, hostAccess_read (held 0x40) (by decide) (by decide)⟩

theorem witness_IdIsHardWired : State.reset.inReset = false ∧ State.reset.busy = false ∧ (held 0x20).busy = true ∧
    ∃ t, step State.reset = .next t := ⟨rfl, rfl, rfl, _, rfl⟩

theorem witness_BusErrorsHaveNoEffect :
    (accessAddr (.read .w16 (hostAddress 0)) = hostAddress 0 ∧ accessWidth (.read .w16 (hostAddress 0)) ≠ .w32) ∧
    (accessAddr (.write .w32 (hostAddress 0xFFF) 0) = hostAddress 0xFFF ∧ 0xFFF < 4096 ∧ 0xFFF % 4 ≠ 0) ∧
    (accessAddr (.read .w32 (hostAddress 0xFFC)) = hostAddress 0xFFC ∧
      accessWidth (.read .w32 (hostAddress 0xFFC)) = .w32 ∧ 0xFFC < 4096 ∧ 0xFFC % 4 = 0) ∧
    (accessAddr (.write .w32 (hostAddress 0x004) 0) = hostAddress 0x004 ∧ 0x004 < 4096 ∧ 0x004 % 4 = 0) :=
  ⟨⟨rfl, nofun⟩, ⟨rfl, by decide, by decide⟩, ⟨rfl, rfl, by decide, by decide⟩, rfl, by decide, by decide⟩

/-- The access one byte past the window's end. -/
theorem witness_OnlyAccessesOutsideTheWindowStop :
    step { State.reset with schedule := [.access (.read .w32 (hostAddress 4096))] } =
      .fault (.outsideWindow (hostAddress 4096)) := by
  rw [step_access (a := .read .w32 (hostAddress 4096)) (rest := []) rfl, hostAccess]
  rw [(windowOffset_eq_none_iff (accessAddr (.read .w32 (hostAddress 4096)))).mpr (.inr (Nat.le_refl _))]
  rfl

theorem witness_HostCannotWriteResults :
    ∃ t, hostAccess (.write .w32 (hostAddress 0x080) 1) State.reset = .next t :=
  ⟨_, hostAccess_write 1 State.reset (by decide) (by decide)⟩

theorem witness_CodecRoundTrips : 2 ^ 64 - 1 < 2 ^ 64 := by decide

theorem witness_PaddingIsTheLeastThatFits : (List.replicate 64 (0 : Byte)).length = 64 ∧
    (List.replicate 128 (0 : Byte)).length = 128 ∧ 15 < 16 := by decide

theorem witness_SchedulesFollowTheirRecurrences : (List.replicate 16 (0 : Word)).length = 16 ∧
    (List.replicate 16 (0 : BitVec 64)).length = 16 ∧ (15 < 16 ∧ 16 ≤ 16 ∧ 63 < 64 ∧ 79 < 80) := by decide

/-- A key of a block's length and one a byte longer. -/
theorem witness_HmacIsTheNestedHash (h : HashAlg) (k : List Byte) :
    (hmacKey h k).length = blockLength h ∧ ∀ i, i < blockLength h → byteAt (hmacKey h k) i =
      if blockLength h < k.length then (if i < digestLength h then byteAt (hash h k) i else 0)
      else if i < k.length then byteAt k i else 0 := by
  refine ⟨length_hmacKey h k, fun i hi => ?_⟩
  have drop (n : Nat) (bs : List Byte) (hn : bs.length = n) :
      (if i < n then byteAt bs i else 0) = byteAt bs i := by
    split
    · rfl
    · exact (byteAt_of_length_le (by omega)).symm
  unfold hmacKey
  split
  · rw [byteAt_fitTo, if_pos hi, drop _ _ (length_hash h k)]
  · rw [byteAt_fitTo, if_pos hi, drop _ _ rfl]

theorem witness_HmacChecksThenWritesTheDigest : State.reset.keylen.toNat = 0 ∧
    128 < { State.reset with keylen := 129 }.keylen.toNat ∧
    (1 ≤ { State.reset with keylen := 1 }.keylen.toNat ∧ { State.reset with keylen := 128 }.keylen.toNat ≤ 128) ∧
    (.sha512, .sha512, 64) ∈ ([(.sha1, .sha1, 20), (.sha256, .sha256, 32), (.sha512, .sha512, 64)] :
      List (AlgField × HashAlg × Nat)) ∧ (1 ≤ 1 ∧ 9 ≤ 9) := by decide

/-- Two states that differ outside the operands. -/
theorem witness_OperandsDetermineResults :
    (keyed k20 1).keylen = { keyed k20 1 with sublen := 7 }.keylen ∧
    (keyed k20 1).secret = { keyed k20 1 with sublen := 7 }.secret ∧
    (keyed k20 1).msg = { keyed k20 1 with sublen := 7 }.msg ∧
    (keyed k20 1).ctrHi = { keyed k20 1 with sublen := 7 }.ctrHi ∧
    (keyed k20 1).ctrLo = { keyed k20 1 with sublen := 7 }.ctrLo ∧
    digested.diglen = { digested with sublen := 7 }.diglen ∧ digested.mac = { digested with sublen := 7 }.mac ∧
    after (.hmac .sha1) (keyed k20 1) (·.errcode) = some .ok ∧ after (.trunc 9) digested (·.errcode) = some .ok ∧
    after (.hotp .sha1 6) (keyed k20 1) (·.errcode) = some .ok :=
  ⟨rfl, rfl, rfl, rfl, rfl, rfl, rfl, by decide +kernel, by decide +kernel, by decide +kernel⟩

theorem witness_TruncChecksThenWritesTheCode : (0 < 1 ∨ 9 < 0) ∧ (10 < 1 ∨ 9 < 10) ∧ (1 ≤ 1 ∧ 9 ≤ 9) ∧
    State.reset.diglen.toNat ∉ [20, 32, 64] ∧ digested.diglen.toNat ∈ [20, 32, 64] ∧
    { digested with diglen := 64 }.diglen.toNat ∈ [20, 32, 64] := by decide

theorem witness_TruncationStaysInsideTheDigest : digested.diglen.toNat ∈ [20, 32, 64] ∧
    { State.reset with diglen := 64 }.diglen.toNat ∈ [20, 32, 64] ∧
    (∃ t, exec (.trunc 9) digested = .next t ∧ t.errcode = .ok) ∧ (1 ≤ 9 ∧ 9 ≤ 9 ∧ 999999999 < 10 ^ 9) :=
  ⟨by decide, by decide, of_after (f := (·.errcode)) (by decide +kernel), by decide⟩

theorem witness_CodesAreZeroPaddedDigits : (∃ t, exec (.trunc 9) digested = .next t ∧ t.errcode = .ok) ∧
    (∃ t, exec (.trunc 1) digested = .next t ∧ t.errcode = .ok) ∧
    ∃ t, exec (.hotp .sha1 6) (keyed k20 1) = .next t ∧ t.errcode = .ok :=
  ⟨of_after (f := (·.errcode)) (by decide +kernel), of_after (f := (·.errcode)) (by decide +kernel),
    of_after (f := (·.errcode)) (by decide +kernel)⟩

theorem witness_HotpChecksThenWritesAll : (0 < 1 ∨ 9 < 0) ∧ (10 < 1 ∨ 9 < 10) ∧ (1 ≤ 1 ∧ 9 ≤ 9) ∧
    (.sha1, .sha1, 20) ∈ ([(.sha1, .sha1, 20), (.sha256, .sha256, 32), (.sha512, .sha512, 64)] :
      List (AlgField × HashAlg × Nat)) ∧
    State.reset.keylen.toNat = 0 ∧ 128 < { State.reset with keylen := 129 }.keylen.toNat ∧
    (1 ≤ { State.reset with keylen := 1 }.keylen.toNat ∧ { State.reset with keylen := 128 }.keylen.toNat ≤ 128) := by
  decide

/-- Each clause's error is some state's: no error, `BAD_ALG`, a key error with good digits and with bad digits. -/
theorem witness_HotpIsTheThreeCommands : after (.hotp .sha1 6) (keyed k20 1) (·.errcode) = some .ok ∧
    after (.hmac .sha1) (keyed k20 1) (·.errcode) = some .ok ∧
    after (.hmac .reserved) State.reset (·.errcode) = some .badAlg ∧
    (after (.hmac .sha1) State.reset (·.errcode) = some .emptyKey ∧ (1 ≤ 6 ∧ 6 ≤ 9) ∧ ¬(1 ≤ 10 ∧ 10 ≤ 9)) ∧
    after (.hotp .sha1 10) State.reset (·.errcode) = some .badDigits := by decide +kernel

theorem witness_CmpMatchesEqualCodes : (held 0x20).inReset = false ∧ (held 0x20).seq = .busy 0x20 ∧
    opField 0x20 = 0x20 ∧ (held 0x120).seq = .busy 0x120 ∧ opField 0x120 = 0x20 := by decide

/-- A reachable kind of state: "287082" stored, "28708a" submitted (row M8). -/
theorem witness_NonDigitsNeverMatch : BlockInv (submitted (ascii "28708a") 6) ∧
    (5 < (submitted (ascii "28708a") 6).codelen.toNat ∧
      ¬(0x30 ≤ (bufByte (submitted (ascii "28708a") 6).submit 5).toNat ∧
        (bufByte (submitted (ascii "28708a") 6).submit 5).toNat ≤ 0x39)) :=
  ⟨{ busy_clean := nofun, held_in_reset := nofun, digest_length := by decide
     digest_zero_above := fun i _ => bufByte_replicate 64 i
     code_length := by decide, code_of_trunc := by decide +kernel, no_code := by decide }, by decide +kernel⟩

theorem witness_B32encChecksThenWritesTheText : State.reset.keylen.toNat = 0 ∧
    128 < { State.reset with keylen := 129 }.keylen.toNat ∧
    (1 ≤ { State.reset with keylen := 1 }.keylen.toNat ∧ { State.reset with keylen := 128 }.keylen.toNat ≤ 128) := by decide

theorem witness_CharactersAreFiveBitGroups : (∃ t, exec .b32enc (keyed (ascii "f") 0) = .next t ∧
    (t.errcode, t.textlen) = (.ok, 2)) ∧ 1 < (2 : Byte).toNat ∧ 4 < 5 :=
  ⟨of_after (f := fun t => (t.errcode, t.textlen)) (by decide +kernel), by decide, by decide⟩

/-- The longest key. -/
theorem witness_EncodedLengthsAndAlphabet : ∃ t, exec .b32enc { State.reset with keylen := 128 } = .next t ∧
    (t.errcode, t.textlen) = (.ok, 205) :=
  of_after (f := fun t => (t.errcode, t.textlen)) (by decide +kernel)

theorem witness_DecodingIgnoresCase : charValue 0x61 = some 0 ∧ charValue 0x37 = some 31 ∧
    (texted (ascii "MY")).textlen = (texted (ascii "my")).textlen ∧
    (∀ i, i < (texted (ascii "MY")).textlen.toNat →
      upperCase (bufByte (texted (ascii "MY")).text i) = upperCase (bufByte (texted (ascii "my")).text i)) ∧
    after .b32dec (texted (ascii "MY")) (·.errcode) = some .ok :=
  ⟨by decide, by decide, by decide, by decide +kernel, by decide +kernel⟩

/-- Rows D25, D29, D15, D27 (bad lengths), D20 (a bad character), D12 (leftover bits) and D1. -/
theorem witness_B32decChecksThenWritesTheKey :
    ((texted []).textlen.toNat = 0 ∧ 128 < { texted [] with textlen := 209 }.textlen.toNat ∧
      (texted (ascii "M")).textlen.toNat % 8 ∈ [1, 3, 6] ∧ 128 < 5 * { texted [] with textlen := 207 }.textlen.toNat / 8) ∧
    (legalTextLength (texted (ascii "M1")).textlen.toNat ∧ charValue (bufByte (texted (ascii "M1")).text 1) = none) ∧
    (legalTextLength (texted (ascii "MZ")).textlen.toNat ∧
      (∀ i, i < (texted (ascii "MZ")).textlen.toNat → charValue (bufByte (texted (ascii "MZ")).text i) ≠ none) ∧
      base32Number ((ascii "MZ").map fun b => (charValue b).getD 0) % 2 ^ (5 * 2 - 8 * 1) ≠ 0) ∧
    (∀ i, i < (texted (ascii "MY")).textlen.toNat → charValue (bufByte (texted (ascii "MY")).text i) ≠ none) ∧
    base32Number ((ascii "MY").map fun b => (charValue b).getD 0) % 2 ^ (5 * 2 - 8 * 1) = 0 ∧
    legalTextLength 205 := by decide +kernel

theorem witness_AcceptedTextsAreTheEncodedOnes : (∀ b ∈ (texted (ascii "MY")).chars, b ∈ base32Alphabet) ∧
    (∃ t, exec .b32dec (texted (ascii "MY")) = .next t ∧ t.errcode = .ok) ∧ legalTextLength 2 ∧ legalTextLength 205 :=
  ⟨by decide +kernel, of_after (f := (·.errcode)) (by decide +kernel), by decide, by decide⟩

theorem witness_EncodeThenDecodeKeepsTheKey : (1 ≤ (keyed (ascii "f") 0).keylen.toNat ∧
    (keyed (ascii "f") 0).keylen.toNat ≤ 128) ∧
    (1 ≤ { State.reset with keylen := 128 }.keylen.toNat ∧ { State.reset with keylen := 128 }.keylen.toNat ≤ 128) := by
  decide +kernel

theorem witness_DecodeThenEncodeGivesUppercase :
    (∃ t, exec .b32dec (texted (ascii "my")) = .next t ∧ t.errcode = .ok) ∧
    (∃ t, exec .b32dec (texted (ascii "MY")) = .next t ∧ t.errcode = .ok) ∧
    (∃ t, exec .b32dec { texted (ascii "MY") with sublen := 1 } = .next t ∧ t.errcode = .ok) ∧
    (∀ b ∈ (texted (ascii "MY")).chars, b ∈ base32Alphabet) :=
  ⟨of_after (f := (·.errcode)) (by decide +kernel), of_after (f := (·.errcode)) (by decide +kernel),
    of_after (f := (·.errcode)) (by decide +kernel), by decide +kernel⟩

theorem witness_ClearZeroesTheRegisters : (regAt 0x2CC ≠ .id ∧ regAt 0x2CC ≠ .inten ∧ regAt 0x2CC ≠ .status) ∧
    (regAt 0x010 ≠ .id ∧ regAt 0x010 ≠ .inten ∧ regAt 0x010 ≠ .status) ∧ AlgField.sha512 ≠ .reserved ∧
    (1 ≤ 1 ∧ 9 ≤ 9) := by decide

theorem witness_ClearDiffersFromResetExactly : State.reset.seq = .idle ∧ (held 0x20).busy = true := ⟨rfl, rfl⟩

theorem witness_CommandsWriteOnlyTheirRegisters : after .ctr2b State.reset (·.errcode) = some .ok ∧
    after .b32enc State.reset (·.errcode) = some .emptyKey ∧ (held 0x0).inReset = false ∧ (held 0x0).seq = .busy 0x0 ∧
    (∀ i, decode 0x0 ≠ .legal i) :=
  ⟨by decide +kernel, by decide +kernel, rfl, rfl, fun i h => by
    rw [show decode 0x0 = .illegal .unknownOp by decide] at h
    cases h⟩

/-- A step that sets `MATCH` (row M1), an error completion, and a command that is neither `CMP` nor `CLEAR`. -/
theorem witness_MatchIsWrittenOnlyByCmpClearReset :
    (∃ t, step { submitted (ascii "287082") 6 with seq := .busy 0x20 } = .next t ∧
      (t.matched ≠ (submitted (ascii "287082") 6).matched)) ∧
    (∃ t, exec .b32enc State.reset = .next t ∧ t.errcode ≠ .ok) ∧ Instr.ctr2b ≠ .cmp ∧ Instr.ctr2b ≠ .clear ∧
    ∃ t, exec .ctr2b State.reset = .next t :=
  ⟨⟨_, rfl, by decide +kernel⟩, ⟨_, rfl, by decide⟩, nofun, nofun, _, rfl⟩

theorem witness_AcceptedCommandCompletes :
    (held 0x20).inReset = false ∧ (held 0x20).seq = .busy 0x20 ∧ (∃ t, step (held 0x20) = .next t) ∧
    (∀ turn ∈ [rdTurn .status], ∃ a, turn = .access a ∧ turn.inWindow = true) := by
  refine ⟨rfl, rfl, ⟨_, rfl⟩, fun turn h => ?_⟩
  rw [List.mem_singleton.mp h]
  refine ⟨_, rfl, ?_⟩
  change (windowOffset (hostAddress 0x008)).isSome = true
  rw [windowOffset_hostAddress (by decide)]
  rfl

/-- A held command, with a code stored: the invariant is no matter of the reset state alone. -/
theorem witness_StepKeepsTheInvariant : BlockInv { submitted (ascii "287082") 6 with seq := .busy 0x20 } ∧
    ∃ t, step { submitted (ascii "287082") 6 with seq := .busy 0x20 } = .next t :=
  ⟨{ busy_clean := fun _ => ⟨rfl, rfl⟩, held_in_reset := nofun, digest_length := by decide
     digest_zero_above := fun i _ => bufByte_replicate 64 i
     code_length := by decide, code_of_trunc := by decide +kernel, no_code := by decide }, _, rfl⟩

theorem witness_IrqIsALevelOfTheRegisters : (0x2 : Word).getLsbD 1 = true ∧ State.reset.busy = false ∧
    ((held 0x20).busy = true ∧ 0x004 ≠ 0x008 ∧ 0x004 ≠ 0x00C) ∧
    ∃ t, hostAccess (.read .w32 (hostAddress 0x011)) State.reset = .next t ∧
      t.reply = some (.busError 0x011) ∧ accessAddr (.read .w32 (hostAddress 0x011)) = hostAddress 0x011 ∧
      legalAccess (accessWidth (.read .w32 (hostAddress 0x011))) 0x011 = false := by
  refine ⟨by decide, rfl, by decide, { State.reset with reply := some (.busError 0x011) }, ?_, rfl, rfl, rfl⟩
  rw [hostAccess, show accessAddr (.read .w32 (hostAddress 0x011)) = hostAddress 0x011 from rfl,
    windowOffset_hostAddress (by decide)]
  rfl

theorem witness_OperandsAreFixedWhileBusy : (held 0x20).inReset = false ∧ (held 0x20).busy = true ∧
    1 ≤ [rdTurn .status].length ∧ (∀ turn ∈ [rdTurn .status], ∃ a, turn = .access a) ∧
    (∃ u, Sys2Proof.core.run 1 { held 0x20 with schedule := [rdTurn .status] } = .next u) ∧
    (regAt 0x010 ≠ .status ∧ regAt 0x010 ≠ .inten) := by
  refine ⟨rfl, rfl, by decide, fun turn h => ⟨_, List.mem_singleton.mp h⟩, ?_, by decide⟩
  refine ⟨memRead 0x008 (held 0x20), ?_⟩
  have h : step { held 0x20 with schedule := [rdTurn .status] } = .next (memRead 0x008 (held 0x20)) :=
    hostAccess_read (off := 0x008) (held 0x20) (by decide) (by decide)
  simp only [Host.Core.run]
  rw [show Sys2Proof.core.step { held 0x20 with schedule := [rdTurn .status] } = _ from h]

theorem witness_RefusedWriteCommutesWithCompletion : (held 0x20).inReset = false ∧ (held 0x20).seq = .busy 0x20 ∧
    0x000 ≠ 0x008 ∧ 0x000 ≠ 0x00C := by decide

theorem witness_ErrorsComeInPriorityOrder : (held 0x0).inReset = false ∧ (held 0x0).seq = .busy 0x0 ∧
    decode 0x0 = .illegal .unknownOp ∧ (held 0x312).inReset = false ∧ (held 0x312).seq = .busy 0x312 ∧
    decode 0x312 = .legal (.hotp .reserved 0) := by decide +kernel

theorem witness_LatencySeesOnlyTheLengths : (held 0x10).seq = { held 0x10 with sublen := 1 }.seq ∧
    (held 0x10).keylen = { held 0x10 with sublen := 1 }.keylen ∧
    (held 0x10).textlen = { held 0x10 with sublen := 1 }.textlen ∧
    (held 0x10).diglen = { held 0x10 with sublen := 1 }.diglen ∧ (held 0x20).seq = .busy 0x20 ∧
    { held 0x20 with keylen := 1 }.seq = .busy 0x20 ∧ decode 0x20 = .legal .cmp ∧ State.reset.seq = .idle ∧
    (held 0x10).latency.isSome = true ∧
    ((held 0x30).seq = .busy 0x30 ∧ { held 0x30 with textlen := 1, diglen := 1 }.seq = .busy 0x30 ∧
      decode 0x30 = .legal .b32enc ∧ (held 0x30).keylen = { held 0x30 with textlen := 1, diglen := 1 }.keylen) ∧
    ((held 0x31).seq = .busy 0x31 ∧ { held 0x31 with keylen := 1, diglen := 1 }.seq = .busy 0x31 ∧
      decode 0x31 = .legal .b32dec ∧ (held 0x31).textlen = { held 0x31 with keylen := 1, diglen := 1 }.textlen) :=
  ⟨rfl, rfl, rfl, rfl, rfl, rfl, by decide, rfl, rfl, ⟨rfl, rfl, by decide, rfl⟩, rfl, rfl, by decide, rfl⟩

theorem witness_BusyIsSeenUntilCompletion : State.reset.inReset = false ∧ State.reset.seq = .idle ∧
    State.reset.schedule = [] := ⟨rfl, rfl, rfl⟩

theorem witness_HashFunctionsProcessTheirBlocks : (List.replicate 64 (0x5C : Byte)).length = 64 ∧
    (List.replicate 128 (0x36 : Byte)).length = 128 ∧ (63 < 64 ∧ 79 < 80 ∧ 7 < 8) := by
  simp

end Sys2Proof.Tests
end

section
/-! PROOFS of the statements about 10_state.md: the register map, the buffers, `STATUS`, `INTEN`, `ID`, `OVERRUN`, `MATCH`
and `IRQ`. First the facts that several of them need, in the order of the definitions they speak of; then each statement,
assembled from those and from the lemmas of Laws/. -/

namespace Sys2Proof.Machine

/-! ## Words and buffers (10_state.md R40) -/

/-- The packing of R40, with its shifts written out: which byte a bit comes from decides both sides. -/
theorem packWord_eq_or (a b c d : Byte) :
    packWord a b c d = a.setWidth 32 <<< 24 ||| b.setWidth 32 <<< 16 ||| c.setWidth 32 <<< 8 ||| d.setWidth 32 := by
  have above (x : Byte) (j : Nat) (hj : 8 ≤ j) : x.getLsbD j = false := BitVec.getLsbD_of_ge x j hj
  apply BitVec.eq_of_getLsbD_eq
  intro i hi
  simp only [packWord, BitVec.getLsbD_append, BitVec.getLsbD_or, BitVec.getLsbD_shiftLeft, BitVec.getLsbD_setWidth]
  split_ifs <;> grind

/-- Byte `j` of a packed word stands in bits `[31 - 8j : 24 - 8j]`. -/
theorem extractLsb'_packWord (bytes : Nat → Byte) {j : Nat} (hj : j < 4) :
    (packWord (bytes 0) (bytes 1) (bytes 2) (bytes 3)).extractLsb' (24 - 8 * j) 8 = bytes j := by
  obtain ⟨h0, h1, h2, h3⟩ := packWord_inj (packWord_wordBytes (packWord (bytes 0) (bytes 1) (bytes 2) (bytes 3)))
  interval_cases j
  · exact h0
  · exact h1
  · exact h2
  · exact h3

theorem byteAt_wordBytes (v : Word) {j : Nat} (hj : j < 4) :
    byteAt (wordBytes v) j = v.extractLsb' (24 - 8 * j) 8 := by
  interval_cases j <;> rfl

/-- Register `k` of a buffer packs bytes `4k` to `4k + 3` of it. -/
theorem readReg_bufferReg (s : State) (b : Buffer) (k : Nat) :
    readReg s (bufferReg b k) = packWord (byteAt (bufferBytes b s) (4 * k)) (byteAt (bufferBytes b s) (4 * k + 1))
      (byteAt (bufferBytes b s) (4 * k + 2)) (byteAt (bufferBytes b s) (4 * k + 3)) := by
  cases b <;> rfl

/-- Which byte a write of register `k` of a RW buffer leaves at `i`. -/
theorem byteAt_writeReg_bufferReg {b : Buffer} {k : Nat} (hw : b.writable = true) (hk : 4 * k < bufferSize b)
    (v : Word) (s : State) (i : Nat) :
    byteAt (bufferBytes b (writeReg (bufferReg b k) v s)) i =
      if i / 4 = k then v.extractLsb' (24 - 8 * (i % 4)) 8 else byteAt (bufferBytes b s) i := by
  rw [← byteAt_wordBytes v (Nat.mod_lt i (by decide))]
  cases b with
  | msg | submit | key | text => exact bufByte_setBufWord _ v (by simp only [bufferSize] at hk; omega)
  | code | digest => cases hw

theorem regOffset_bufferReg (b : Buffer) (k : Nat) : regOffset (bufferReg b k) = bufferBase b + 4 * k := by
  cases b <;> rfl

/-- The buffers stand above the scalar registers (10_state.md R20). -/
theorem le_bufferBase (b : Buffer) : 0x030 ≤ bufferBase b := by cases b <;> decide

/-! ## `STATUS`, `INTEN` and `IRQ` (10_state.md R24, R27, R31, R47) -/

/-- Two errors with one number are one error (60_exceptions.md R230). -/
theorem ErrCode.code_inj {e e' : ErrCode} (h : e.code = e'.code) : e = e' := by
  cases e <;> cases e' <;> simp [ErrCode.code] at h ⊢

theorem err_eq_code_ne_zero (s : State) : s.err = decide (s.errcode.code ≠ 0) := by
  unfold State.err
  cases s.errcode <;> rfl

theorem err_eq_errcode_ne_ok (s : State) : s.err = decide (s.errcode ≠ .ok) := by
  unfold State.err
  cases s.errcode <;> rfl

/-- The layout of `STATUS` (10_state.md R24). -/
theorem getLsbD_statusWord (s : State) (i : Nat) :
    (statusWord s).getLsbD i =
      if i = 0 then s.busy
      else if i = 1 then s.done
      else if i = 2 then s.err
      else if i = 3 then s.matched
      else if i = 4 then s.overrun
      else if 8 ≤ i ∧ i < 12 then s.errcode.code.getLsbD (i - 8)
      else false := by
  simp only [statusWord, BitVec.getLsbD_append, BitVec.getLsbD_ofBool]
  rcases Nat.lt_or_ge i 8 with h | h
  · interval_cases i <;> simp
  · obtain ⟨j, rfl⟩ := Nat.exists_eq_add_of_le' h
    simp [show j + 8 < 12 ↔ j < 4 by omega]

/-- Bits 11:8 of `STATUS` are `ERRCODE` (10_state.md R24, R30). -/
theorem extractLsb'_statusWord (s : State) : (statusWord s).extractLsb' 8 4 = s.errcode.code := by
  apply BitVec.eq_of_getLsbD_eq
  intro i hi
  rw [BitVec.getLsbD_extractLsb', getLsbD_statusWord]
  interval_cases i <;> rfl

/-- The layout of `INTEN` (10_state.md R31). -/
theorem getLsbD_intenWord (s : State) (i : Nat) :
    (intenWord s).getLsbD i = if i = 0 then s.doneie else if i = 1 then s.errie else false := by
  simp only [intenWord, BitVec.getLsbD_append, BitVec.getLsbD_ofBool]
  match i with
  | 0 | 1 | i + 2 => simp

/-- `INTEN` reads back the two bits a write stores (10_state.md R31). -/
theorem intenWord_writeInten (v : Word) (s : State) : intenWord (writeInten v s) = v &&& 0x3 := by
  apply BitVec.eq_of_getLsbD_eq
  intro i _
  have mask : (0x3 : Word).getLsbD i = decide (i < 2) := Nat.testBit_two_pow_sub_one 2 i
  rw [getLsbD_intenWord, BitVec.getLsbD_and, mask]
  match i with
  | 0 | 1 | i + 2 => simp

/-- A write to `STATUS` clears `DONE` and `OVERRUN` by writing 1 (10_state.md R24). -/
theorem writeStatus_eq (v : Word) (s : State) :
    writeStatus v s = { s with
      done := if v.getLsbD 1 then false else s.done
      overrun := if v.getLsbD 4 then false else s.overrun } := by
  have clear (a b : Bool) : (a && !b) = if b then false else a := by cases b <;> simp
  rw [writeStatus, clear, clear]

/-! ## Writes of the window (20_memory.md R63) -/

/-- A write to a reserved offset or to `ID` while idle changes nothing (10_state.md R22, R46). -/
theorem memWrite_ignored {off : Nat} {s : State} (v : Word) (hb : s.busy = false)
    (h : regAt off = .reserved ∨ regAt off = .id) : memWrite off v s = s := by
  unfold memWrite
  rw [if_neg (by simp [hb])]
  rcases h with h | h <;> rw [h] <;> rfl

/-- What a write does to `OVERRUN`: a refused one sets it, one to `STATUS` with bit 4 set clears it (10_state.md R29). -/
theorem memWrite_overrun (off : Nat) (v : Word) (s : State) :
    (memWrite off v s).overrun =
      if off = 0x008 then s.overrun && !v.getLsbD 4 else s.overrun || (s.busy && decide (off ≠ 0x00C)) := by
  rcases memWrite_cases off v s with
    ⟨hb, h8, hC, h⟩ | ⟨hi, rfl, h⟩ | ⟨rfl, h⟩ | ⟨rfl, h⟩ | ⟨hi, -, h8, -, h⟩
  · simp [h, hb, h8, hC]
  · simp [h, (busy_eq_false_iff s).mpr hi]
  · simp [h]
  · simp [h]
  · obtain ⟨-, -, -, hframe, -⟩ := writeReg_frame (regAt off) v s
    simp [h, hframe, (busy_eq_false_iff s).mpr hi, h8]

/-- No write reaches `MATCH` (10_state.md R24, R28). -/
theorem memWrite_matched (off : Nat) (v : Word) (s : State) : (memWrite off v s).matched = s.matched := by
  rcases memWrite_cases off v s with
    ⟨-, -, -, h⟩ | ⟨-, -, h⟩ | ⟨-, h⟩ | ⟨-, h⟩ | ⟨-, -, -, -, h⟩
  · rw [h, setOverrun_matched]
  · rw [h, accept_matched]
  · rw [h, writeStatus_matched]
  · rw [h, writeInten_matched]
  · obtain ⟨-, -, hframe, -⟩ := writeReg_frame (regAt off) v s
    rw [h, hframe]

/-! ## Host accesses (20_memory.md R61 to R63) -/

/-- A read while idle or of a register of R49 answers the register's value and changes nothing else, out of reset. -/
theorem hostAccess_read_value {off : Nat} {s : State} (hlt : off < 4096) (h4 : off % 4 = 0) (hr : s.inReset = false)
    (hv : (!s.busy || (regAt off).readableWhileBusy) = true) :
    hostAccess (.read .w32 (hostAddress off)) s = .next { s with reply := some (.data (readReg s (regAt off))) } := by
  rw [hostAccess_read s hlt h4, memRead_value]
  simp [readHasValue, hr, hv]

/-- Out of reset a write access makes the write. -/
theorem busWrite_of_not_inReset {s : State} (hr : s.inReset = false) (off : Nat) (v : Word) :
    busWrite off v s = { memWrite off v s with reply := some .written } := by
  rw [busWrite, if_neg (by simp [hr])]

/-- An access that gets a bus error changes nothing but the reply (20_memory.md R61). -/
theorem hostAccess_busError {a : HostAccess} {s t : State} {off : Nat} (h : hostAccess a s = .next t)
    (hrep : t.reply = some (.busError off)) : t = { s with reply := some (.busError off) } := by
  obtain ⟨off', -, ⟨-, rfl⟩ | ⟨-, rfl⟩ | ⟨-, -, rfl⟩ | ⟨-, -, v, rfl⟩⟩ := hostAccess_cases h
  · rw [← hrep]
  · obtain ⟨v, hv⟩ := memRead_reply off' s
    rw [hv] at hrep
    cases hrep
  · cases hrep
  · cases hrep

/-- No access reaches `MATCH` (10_state.md R28). -/
theorem hostAccess_matched {a : HostAccess} {s t : State} (h : hostAccess a s = .next t) : t.matched = s.matched := by
  obtain ⟨off, -, ⟨-, rfl⟩ | ⟨-, rfl⟩ | ⟨-, -, rfl⟩ | ⟨-, -, v, rfl⟩⟩ := hostAccess_cases h
  · rfl
  · have hblock := congrArg State.matched (block_memRead off s)
    exact hblock
  · rfl
  · exact memWrite_matched off v s

/-! ## Completions (60_exceptions.md R234, R236) -/

/-- What a command answers is an error completion or the completion of its writes. -/
theorem exec_next_cases {i : Instr} {s t : State} (h : exec i s = .next t) :
    (∃ e, t = raiseError e s) ∨ ∃ w, Writes s i w ∧ t = complete w := by
  by_cases hok : t.errcode = .ok
  · exact .inr (exec_ok h hok)
  · exact .inl ⟨_, exec_failed h hok⟩

/-- No command writes `OVERRUN` or `INTEN` (10_state.md R29, R31, R50). -/
theorem Writes.frame {i : Instr} {s w : State} (h : Writes s i w) :
    w.overrun = s.overrun ∧ w.doneie = s.doneie ∧ w.errie = s.errie := by
  cases h <;> exact ⟨rfl, rfl, rfl⟩

/-- Only `CMP` and `CLEAR` write `MATCH` (10_state.md R28, R50). -/
theorem Writes.matched {i : Instr} {s w : State} (h : Writes s i w) (hcmp : i ≠ .cmp) (hclear : i ≠ .clear) :
    w.matched = s.matched := by
  cases h with
  | cmp => exact absurd rfl hcmp
  | clear => exact absurd rfl hclear
  | _ => rfl

/-- Every completion sets `DONE` and keeps `OVERRUN` and `INTEN` (60_exceptions.md R234, R236). -/
theorem exec_frame {i : Instr} {s t : State} (h : exec i s = .next t) :
    t.done = true ∧ t.overrun = s.overrun ∧ t.doneie = s.doneie ∧ t.errie = s.errie := by
  obtain ⟨e, rfl⟩ | ⟨w, hw, rfl⟩ := exec_next_cases h
  · exact ⟨rfl, rfl, rfl, rfl⟩
  · exact ⟨rfl, hw.frame⟩

/-- Every other command than `CMP` and `CLEAR` keeps `MATCH`, with an error or without (10_state.md R28). -/
theorem exec_matched {i : Instr} {s t : State} (h : exec i s = .next t) (hcmp : i ≠ .cmp) (hclear : i ≠ .clear) :
    t.matched = s.matched := by
  obtain ⟨e, rfl⟩ | ⟨w, hw, rfl⟩ := exec_next_cases h
  · rfl
  · exact hw.matched hcmp hclear

/-- The engine's turn changes `MATCH` only when it holds a `CMP` or `CLEAR` word (10_state.md R28). -/
theorem engineTurn_matched_ne {s t : State} (h : engineTurn s = .next t) (hne : t.matched ≠ s.matched) :
    ∃ w, s.seq = .busy w ∧ (decode w = .legal .cmp ∨ decode w = .legal .clear) := by
  obtain hs | ⟨w, -, hseq, ⟨-, -, hs⟩ | ⟨i, hdec, hs⟩⟩ := engineTurn_cases s
  · rw [h] at hs
    cases hs
    exact absurd rfl hne
  · rw [h] at hs
    cases hs
    exact absurd (raiseError_matched _ s) hne
  · rw [h] at hs
    refine ⟨w, hseq, ?_⟩
    by_contra hother
    obtain ⟨hcmp, hclear⟩ := not_or.mp hother
    refine hne (exec_matched hs.symm ?_ ?_)
    · rintro rfl
      exact hcmp hdec
    · rintro rfl
      exact hclear hdec

/-! ## The statements -/

/-- Settles O10: the map line by line, and the branches of an access to a reserved offset. -/
theorem offsetsNameTheirRegisters : Obligations.OffsetsNameTheirRegisters := by
  refine ⟨by decide, fun b k hk => ⟨regOffset_bufferReg b k, regAt_buffer hk⟩,
    fun off hlt h4 => regAt_eq_reserved_iff hlt h4, fun s off v h4 hres => ?_⟩
  have hrange := (reservedOffset_iff off).mp hres
  have hlt : off < 4096 := by omega
  have hreg : regAt off = .reserved := (regAt_eq_reserved_iff hlt h4).mpr hres
  have hread : readReg s (regAt off) = 0 := by rw [hreg]; rfl
  refine ⟨hread, fun hb => memWrite_ignored v hb (.inl hreg),
    fun hb => memWrite_refused v hb (by omega) (by omega), fun hr => ?_⟩
  have readAccess := hostAccess_read_value hlt h4 hr (by simp [hreg, Reg.readableWhileBusy])
  have writeAccess := hostAccess_write v s hlt h4
  rw [hread] at readAccess
  rw [busWrite_of_not_inReset hr] at writeAccess
  exact ⟨⟨_, readAccess, rfl, rfl⟩, ⟨_, writeAccess, rfl, nofun⟩⟩

/-- Settles O12: each clause about writes is a case of what a write does to `OVERRUN`; no completion writes it. -/
theorem overrunIsStickyAndSetByRefusedWrites : Obligations.OverrunIsStickyAndSetByRefusedWrites := by
  refine ⟨fun s off v hb h8 hC => memWrite_refused v hb h8 hC, fun s off v hb h => ?_, fun s off v ho hv => ?_,
    fun s v => memWrite_overrun 0x008 v s, fun i s t h => ?_, fun s => rfl⟩
  · rw [memWrite_overrun, hb] at h
    split at h
    · exact (Bool.and_eq_true_iff.mp h).1
    · simpa using h
  · rw [memWrite_overrun, ho]
    split
    · simpa using fun h4 => hv ⟨‹_›, h4⟩
    · rfl
  · obtain ⟨-, hover, -⟩ := exec_frame h
    exact hover

/-- Settles O13: the layout of the status word bit by bit, and the numbers of the errors as an injection. -/
theorem statusLayoutAndWrite : Obligations.StatusLayoutAndWrite := by
  refine ⟨fun s i => ?_, by decide, fun s v => ?_, fun s e number hmem => ?_⟩
  · rw [← err_eq_code_ne_zero]
    exact getLsbD_statusWord s i
  · rw [memWrite_status, writeStatus_eq]
  · have hcode : e.code = number := by
      cases e <;> exact Eq.symm (by simpa [ErrCode.code] using hmem)
    have hbits : (readReg s (regAt 0x008)).extractLsb' 8 4 = s.errcode.code := extractLsb'_statusWord s
    rw [hbits, ← hcode]
    exact ⟨ErrCode.code_inj, congrArg ErrCode.code⟩

/-- Settles O14: the two stored bits, and `IRQ` after a completion, which sets `DONE` and keeps both. -/
theorem intenLayoutAndWrite : Obligations.IntenLayoutAndWrite := by
  refine ⟨fun s v => memWrite_inten v s, fun s v => ?_, fun i s t h => ?_, rfl, rfl⟩
  · rw [memWrite_inten]
    exact intenWord_writeInten v s
  · obtain ⟨hdone, -, hdoneie, herrie⟩ := exec_frame h
    refine ⟨hdoneie, herrie, ?_⟩
    rw [State.irq, hdone, hdoneie, herrie, err_eq_errcode_ne_ok, Bool.true_and]

/-- Settles O16: a buffer's register as the packing of its four bytes, read and written. -/
theorem buffersPackBigEndian : Obligations.BuffersPackBigEndian := by
  refine ⟨fun s b k => by rw [readReg_bufferReg, packWord_eq_or], fun s b i hi => ?_, fun s b k v hb hw hk i => ?_⟩
  · have h := extractLsb'_packWord (fun j => byteAt (bufferBytes b s) (4 * (i / 4) + j))
      (Nat.mod_lt i (by decide : 0 < 4))
    rw [Nat.div_add_mod] at h
    rw [regAt_buffer (by omega), readReg_bufferReg]
    exact h
  · have hbase := le_bufferBase b
    rw [memWrite_idle v hb (by omega) (by omega) (by omega), regAt_buffer hk, byteAt_writeReg_bufferReg hw hk]

/-- Settles O19: `ID` is a constant of the register read, readable while busy, and no branch of a write reaches it. -/
theorem idIsHardWired : Obligations.IdIsHardWired := by
  refine ⟨fun s hr => ⟨_, hostAccess_read_value (by decide) rfl hr ?_, rfl⟩, by decide,
    fun s v hb => memWrite_ignored v hb (.inr rfl), fun s v hb => memWrite_refused v hb (by decide) (by decide),
    fun s t _ => rfl⟩
  simp [(regAt_eq_id_iff 0).mpr rfl, Reg.readableWhileBusy]

/-- Settles O50: by the turn the step takes; only the engine's turn and reset reach `MATCH`. -/
theorem matchIsWrittenOnlyByCmpClearReset : Obligations.MatchIsWrittenOnlyByCmpClearReset := by
  refine ⟨fun s t h hne => ?_, fun i s t h hbad => by rw [exec_failed h hbad, raiseError_matched],
    fun i s t h hcmp hclear => exec_matched h hcmp hclear, fun s => ⟨_, exec_cmp s, rfl⟩,
    fun s => ⟨_, exec_clear s, rfl⟩, fun s => rfl⟩
  match hs : s.schedule with
  | [] => exact .inl (engineTurn_matched_ne (step_nil hs ▸ h) hne)
  | .engine :: rest =>
    rw [step_engine hs] at h
    exact .inl (engineTurn_matched_ne (s := { s with schedule := rest }) h hne)
  | .access a :: rest =>
    rw [step_access hs] at h
    exact absurd (hostAccess_matched h) hne
  | .resetLine true :: rest => exact .inr ⟨rest, rfl⟩
  | .resetLine false :: rest =>
    rw [step_resetLine hs] at h
    cases h
    exact absurd rfl hne

/-- Settles O54: `IRQ` in the bits of the two registers, and each event by the write it makes. -/
theorem irqIsALevelOfTheRegisters : Obligations.IrqIsALevelOfTheRegisters := by
  refine ⟨fun s => ?_, fun s v hv => ?_, fun s w hb => ?_, fun s => ?_, fun s off v hb h8 hC => ?_,
    fun s a t off h hrep _ _ => ?_, fun s => rfl⟩
  · change s.irq = ((statusWord s).getLsbD 1 && ((intenWord s).getLsbD 0 ||
      ((intenWord s).getLsbD 1 && decide ((statusWord s).extractLsb' 8 4 ≠ 0))))
    rw [getLsbD_statusWord, getLsbD_intenWord, getLsbD_intenWord, extractLsb'_statusWord, ← err_eq_code_ne_zero]
    rfl
  · rw [memWrite_status]
    simp [State.irq, hv]
  · rw [memWrite_cmd_idle w ((busy_eq_false_iff s).mp hb)]
    rfl
  · rw [memWrite_inten]
    exact ⟨by simp [State.irq], rfl⟩
  · rw [memWrite_refused v hb h8 hC]
    rfl
  · rw [hostAccess_busError h hrep]
    rfl

end Sys2Proof.Machine
end

section
/-! PROOFS of the statements about 20_memory.md: a write by the line of the register map it names, and a read. First what
`writeReg` does with a RW length register and with a register the host cannot write; then the two statements. -/

namespace Sys2Proof.Machine

/-! ## Registers and the offsets they stand at (10_state.md R20) -/

/-- The three length registers the host can write stand at their offsets (10_state.md R32 to R34). -/
theorem regAt_of_lengthOffset {off : Nat} (h : lengthOffset off = true) :
    regAt off = .keylen ∨ regAt off = .textlen ∨ regAt off = .sublen := by
  simp only [lengthOffset, Bool.or_eq_true, beq_iff_eq, or_assoc] at h
  rcases h with rfl | rfl | rfl <;> decide

/-- The offset of a whole RW register is not reserved, so it is that register's own (10_state.md R20). -/
theorem regOffset_regAt_of_wordOffset {off : Nat} (h4 : off % 4 = 0) (h : wordOffset off = true) :
    regOffset (regAt off) = off := by
  have hrange := (wordOffset_iff off).mp h
  refine (regOffset_regAt h4).resolve_left fun hres => ?_
  have hreserved := (reservedOffset_iff off).mp ((regAt_eq_reserved_iff (by omega) h4).mp hres)
  omega

/-! ## Writes of a register (20_memory.md R63) -/

/-- Storing the low byte of a word drops its other bits (10_state.md R32 to R34). -/
theorem setWidth_setWidth_low_byte (v : Word) : (v.setWidth 8).setWidth 32 = v &&& 0xFF := by
  apply BitVec.eq_of_toNat_eq
  have low : (v &&& 0xFF).toNat = v.toNat % 2 ^ 8 := Nat.and_two_pow_sub_one_eq_mod v.toNat 8
  rw [low, BitVec.toNat_setWidth, BitVec.toNat_setWidth]
  omega

/-- A length register reads back the low byte of what was written to it. -/
theorem readReg_writeReg_length {off : Nat} (h : lengthOffset off = true) (v : Word) (s : State) :
    readReg (writeReg (regAt off) v s) (regAt off) = v &&& 0xFF := by
  rcases regAt_of_lengthOffset h with h | h | h <;> rw [h] <;> exact setWidth_setWidth_low_byte v

/-- Every line of the register map but those of the RW operand registers stores nothing. -/
theorem writeReg_ignored {off : Nat} (hl : lengthOffset off = false) (hw : wordOffset off = false) (v : Word)
    (s : State) : writeReg (regAt off) v s = s := by
  have notLength (h : lengthOffset off = true) : False := by simp [hl] at h
  have notWord (h : (0x028 ≤ off ∧ off ≤ 0x034) ∨ (0x050 ≤ off ∧ off ≤ 0x058) ∨ (0x100 ≤ off ∧ off ≤ 0x17C) ∨
      (0x200 ≤ off ∧ off ≤ 0x2CC)) : False := by simp [(wordOffset_iff off).mpr h] at hw
  exact regAt_elim (P := fun r => writeReg r v s = s) off
    (hkeylen := fun h => (notLength (by rw [h]; rfl)).elim)
    (htextlen := fun h => (notLength (by rw [h]; rfl)).elim)
    (hsublen := fun h => (notLength (by rw [h]; rfl)).elim)
    (hctrHi := fun h => (notWord (by omega)).elim) (hctrLo := fun h => (notWord (by omega)).elim)
    (hmsg := fun h => (notWord (by omega)).elim) (hsubmit := fun h => (notWord (by omega)).elim)
    (hkey := fun h => (notWord (by omega)).elim) (htext := fun h => (notWord (by omega)).elim)
    (hid := fun _ => rfl) (hcmd := fun _ => rfl) (hstatus := fun _ => rfl) (hinten := fun _ => rfl)
    (hcodelen := fun _ => rfl) (hdiglen := fun _ => rfl) (htrunc := fun _ => rfl) (hcode := fun _ => rfl)
    (hdigest := fun _ => rfl) (hreserved := rfl)

/-- A write at one offset leaves what every other aligned offset reads: two offsets share a register only when it is
`reserved`, which stores nothing. -/
theorem readReg_writeReg_other {off off' : Nat} (h4 : off % 4 = 0) (h4' : off' % 4 = 0) (hne : off' ≠ off) (v : Word)
    (s : State) : readReg (writeReg (regAt off) v s) (regAt off') = readReg s (regAt off') := by
  by_cases hres : regAt off = .reserved
  · rw [hres]
    rfl
  · exact readReg_writeReg_ne v s (regAt_inRange off) fun he => hne (regAt_inj h4 h4' he hres)

/-! ## The statements -/

/-- Settles O15: the branches of a write, and for the last of them what the register written stores. -/
theorem hostWriteFollowsTheTable : Obligations.HostWriteFollowsTheTable := by
  intro s off v hlt h4
  refine ⟨memWrite_refused v, fun hb hoff => ?_, fun hoff => ?_, fun hoff => ?_, fun hb hcmd hstatus hinten => ?_,
    fun hr => ?_⟩
  · rw [hoff]
    exact memWrite_cmd_idle v ((busy_eq_false_iff s).mp hb)
  · rw [hoff, memWrite_status, writeStatus_eq]
  · rw [hoff]
    exact memWrite_inten v s
  · rw [memWrite_idle v hb hcmd hstatus hinten]
    obtain ⟨hseq, -, -, -, -, -, -, -, -, -, -, -, hreset, -⟩ := writeReg_frame (regAt off) v s
    exact ⟨fun hl => readReg_writeReg_length hl v s,
      fun hw => readReg_writeReg_same v s (regAt_inRange off) (by rwa [regOffset_regAt_of_wordOffset h4 hw]),
      fun hl hw => writeReg_ignored hl hw v s, fun off' h4' hne => readReg_writeReg_other h4 h4' hne v s, hseq, hreset⟩
  · refine ⟨.written, ?_, nofun⟩
    rw [hostAccess_write v s hlt h4, busWrite_of_not_inReset hr]

/-- Settles O17: a read access is `memRead`, whose reply is decided by R49's list; then the bits no register stores. -/
theorem readsAnswerAndChangeNothing : Obligations.ReadsAnswerAndChangeNothing := by
  refine ⟨fun s off hlt h4 => ⟨_, hostAccess_read s hlt h4, block_memRead off s, memRead_schedule off s,
    fun hr hb => ?_, fun hr _ hmem => ?_, fun hr hb hmem => ?_⟩, fun s i hi => ?_, fun s i hi => ?_,
    fun s r i hmem hi => ?_, fun s => ?_⟩
  · rw [memRead_value (by simp [readHasValue, hr, hb])]
  · rw [memRead_value (by simp [readHasValue, hr, (readableWhileBusy_iff _).mpr hmem])]
  · have hbusy : (regAt off).readableWhileBusy = false := by rwa [← Bool.not_eq_true, readableWhileBusy_iff]
    rw [memRead_free (by simp [readHasValue, hb, hbusy])]
  · have hbit := getLsbD_statusWord s i
    iterate 6 rw [if_neg (by omega)] at hbit
    exact hbit
  · have hbit := getLsbD_intenWord s i
    iterate 2 rw [if_neg (by omega)] at hbit
    exact hbit
  · have above (b : Byte) : (b.setWidth 32).getLsbD i = false := by
      rw [BitVec.getLsbD_setWidth, BitVec.getLsbD_of_ge b i hi, Bool.and_false]
    simp only [List.mem_cons, List.not_mem_nil, or_false] at hmem
    rcases hmem with rfl | rfl | rfl | rfl | rfl <;> exact above _
  · have hbit : (s.trunc.setWidth 32).getLsbD 31 = false := by
      rw [BitVec.getLsbD_setWidth, BitVec.getLsbD_of_ge s.trunc 31 le_rfl, Bool.and_false]
    exact hbit

end Sys2Proof.Machine
end

section
/-! PROOFS of the statements about 30_encoding.md. Every row of the opcode map has one shape: its mask covers `OP` and the
reserved bits, and `ALG` and `DIGITS` exactly where the operation does not use them (R83). So a row is selected by values
of the fields, no two rows by one word, and the words that select no row are those on the grounds of R84. -/

namespace Sys2Proof.Machine

/-! ## The rows of the opcode map (30_encoding.md R83) -/

/-- The `OP` values that use `DIGITS`: `TRUNC`, `HOTP` (30_encoding.md R83). -/
def opsUsingDigits : List (BitVec 8) := [0x11, 0x12]

theorem knownOps_eq_map : knownOps = opcodeMap.map (opField ·.pattern) := rfl

/-- The mask of a row covers `OP` and the reserved bits. -/
theorem opcodeMap_mask : ∀ r ∈ opcodeMap, reservedHigh r.mask = BitVec.allOnes 16 ∧
    reservedLow r.mask = BitVec.allOnes 2 ∧ opField r.mask = BitVec.allOnes 8 := by
  decide

/-- The mask of a row covers `ALG` and `DIGITS` where its operation does not use them. -/
theorem opcodeMap_mask_operands : ∀ r ∈ opcodeMap,
    algBits r.mask = (if opField r.pattern ∈ opsUsingAlg then 0 else BitVec.allOnes 2) ∧
    digitsBits r.mask = (if opField r.pattern ∈ opsUsingDigits then 0 else BitVec.allOnes 4) := by
  decide

/-- The pattern of a row is its `OP` value alone. -/
theorem opcodeMap_pattern : ∀ r ∈ opcodeMap, reservedHigh r.pattern = 0 ∧ digitsBits r.pattern = 0 ∧
    reservedLow r.pattern = 0 ∧ algBits r.pattern = 0 := by
  decide

/-- The rows have distinct `OP` values. -/
theorem opcodeMap_pairwise_op : opcodeMap.Pairwise fun r r' => opField r.pattern ≠ opField r'.pattern := by
  decide

/-- A field under a mask that covers it where it must be 0. -/
theorem and_mask_eq_zero_iff {n : Nat} {x : BitVec n} {P : Prop} [Decidable P] :
    x &&& (if P then 0 else BitVec.allOnes n) = 0 ↔ ¬ P → x = 0 := by
  by_cases hP : P <;> simp [hP]

/-- A word selects a row when its `OP` is the row's and every bit that must be 0 is. -/
theorem selects_iff {r : OpcodeRow} (hr : r ∈ opcodeMap) (w : Word) :
    r.selects w = true ↔ reservedZero w ∧ opField w = opField r.pattern ∧
      (opField w ∉ opsUsingAlg → algBits w = 0) ∧ (opField w ∉ opsUsingDigits → digitsBits w = 0) := by
  obtain ⟨maskHigh, maskLow, maskOp⟩ := opcodeMap_mask r hr
  obtain ⟨maskAlg, maskDigits⟩ := opcodeMap_mask_operands r hr
  obtain ⟨patternHigh, patternDigits, patternLow, patternAlg⟩ := opcodeMap_pattern r hr
  rw [selects_fields, maskHigh, maskLow, maskOp, maskAlg, maskDigits, patternHigh, patternDigits, patternLow,
    patternAlg, and_mask_eq_zero_iff, and_mask_eq_zero_iff]
  simp only [BitVec.and_allOnes]
  constructor
  · rintro ⟨high, digits, low, alg, op⟩
    rw [op]
    exact ⟨⟨high, low⟩, rfl, alg, digits⟩
  · rintro ⟨⟨high, low⟩, op, alg, digits⟩
    rw [op] at alg digits
    exact ⟨high, digits, low, alg, op⟩

/-- The words that select some row. -/
theorem exists_selects_iff (w : Word) :
    (∃ r ∈ opcodeMap, r.selects w = true) ↔ reservedZero w ∧ opField w ∈ knownOps ∧
      (opField w ∉ opsUsingAlg → algBits w = 0) ∧ (opField w ∉ opsUsingDigits → digitsBits w = 0) := by
  rw [knownOps_eq_map, List.mem_map]
  constructor
  · rintro ⟨r, hr, hsel⟩
    obtain ⟨reserved, op, operands⟩ := (selects_iff hr w).mp hsel
    exact ⟨reserved, ⟨r, hr, op.symm⟩, operands⟩
  · rintro ⟨reserved, ⟨r, hr, op⟩, operands⟩
    exact ⟨r, hr, (selects_iff hr w).mpr ⟨reserved, op.symm, operands⟩⟩

/-- "The rows do not overlap" (30_encoding.md R83): two rows selected by one word would have its `OP` both. -/
theorem length_filter_selects_le_one (w : Word) : (opcodeMap.filter (·.selects w)).length ≤ 1 := by
  have opOf : ∀ r ∈ opcodeMap.filter (·.selects w), opField w = opField r.pattern := by
    intro r hr
    obtain ⟨hmem, hsel⟩ := List.mem_filter.mp hr
    obtain ⟨-, op, -⟩ := (selects_iff hmem w).mp hsel
    exact op
  have distinct := opcodeMap_pairwise_op.filter (·.selects w)
  generalize opcodeMap.filter (·.selects w) = rows at opOf distinct ⊢
  match rows with
  | [] => exact Nat.zero_le 1
  | [_] => exact le_rfl
  | r :: r' :: rest =>
    have sameOp : opField r.pattern = opField r'.pattern := (opOf r (by simp)).symm.trans (opOf r' (by simp))
    exact absurd sameOp (List.rel_of_pairwise_cons distinct List.mem_cons_self)

theorem exists_selects_iff_length_filter (w : Word) :
    (∃ r ∈ opcodeMap, r.selects w = true) ↔ (opcodeMap.filter (·.selects w)).length = 1 := by
  have atMost := length_filter_selects_le_one w
  have one_iff_pos : (opcodeMap.filter (·.selects w)).length = 1 ↔ 0 < (opcodeMap.filter (·.selects w)).length := by
    omega
  rw [one_iff_pos, List.length_pos_iff_exists_mem]
  simp only [List.mem_filter]

/-! ## Decoding (30_encoding.md R84) -/

/-- A legal word's command is that of a row it selects. -/
theorem exists_row_of_decode_legal {w : Word} {i : Instr} (h : decode w = .legal i) :
    ∃ r ∈ opcodeMap, r.selects w = true ∧ i = r.command w := by
  unfold decode at h
  split at h
  next r hfind =>
    cases h
    exact ⟨r, List.mem_of_find?_eq_some hfind, List.find?_some (p := fun row : OpcodeRow => row.selects w) hfind, rfl⟩
  next => cases h

theorem exists_decode_legal_iff (w : Word) :
    (∃ i, decode w = .legal i) ↔ ∃ r ∈ opcodeMap, r.selects w = true := by
  constructor
  · rintro ⟨i, h⟩
    obtain ⟨r, hr, hsel, -⟩ := exists_row_of_decode_legal h
    exact ⟨r, hr, hsel⟩
  · intro hrow
    obtain ⟨r, hfind⟩ := Option.isSome_iff_exists.mp (List.find?_isSome.mpr hrow)
    exact ⟨r.command w, by unfold decode; rw [hfind]⟩

/-- "Every 32-bit word is legal or illegal", and not both. -/
theorem exists_decode_illegal_iff (w : Word) :
    (∃ why, decode w = .illegal why) ↔ ¬ ∃ i, decode w = .legal i := by
  cases decode w <;> simp

/-- The four grounds of R84: what is missing for a word to select some row. -/
theorem exists_decode_illegal_iff_fields (w : Word) :
    (∃ why, decode w = .illegal why) ↔
      opField w ∉ knownOps ∨ reservedLow w ≠ 0 ∨ reservedHigh w ≠ 0 ∨
      (opField w ∉ opsUsingAlg ∧ algBits w ≠ 0) ∨ (opField w ∉ opsUsingDigits ∧ digitsBits w ≠ 0) := by
  rw [exists_decode_illegal_iff, exists_decode_legal_iff, exists_selects_iff]
  unfold reservedZero
  tauto

/-! ## The statement -/

/-- Settles O6: the rows a word selects, the grounds on which it selects none, and the engine's turn on either. -/
theorem legalWordsAreExactlyTheRows : Obligations.LegalWordsAreExactlyTheRows := by
  intro w
  refine ⟨(exists_decode_legal_iff w).trans (exists_selects_iff_length_filter w),
    fun i h => exists_row_of_decode_legal h, ?_, fun s hs => ?_, fun s hr hs => ⟨fun i h => ?_, fun why h => ?_⟩⟩
  · simpa [knownOps, opsUsingAlg, opsUsingDigits, and_assoc] using exists_decode_illegal_iff_fields w
  · rw [memWrite_cmd_idle w hs, accept_seq]
  · rw [engineTurn_busy hr hs, completeWord_legal h]
  · rw [engineTurn_busy hr hs, completeWord_illegal h]
    rfl

end Sys2Proof.Machine
end

section
/-! PROOFS of the statements about 40_counter_codec.md. `CTR_HI` and `CTR_LO` are the halves of one 64-bit value, and so
are `MSG0` and `MSG1`, whose value is `fromBE(MSG)`. First what a completion of a command's writes leaves alone, for
every command; then the two values under the writes of `CTR2B` and `B2CTR`; then the statements. -/

namespace Sys2Proof.Machine

/-! ## What a completion of a command's writes leaves alone (10_state.md R50, 60_exceptions.md R236) -/

/-- No register reads `MATCH` but `STATUS` (10_state.md R24). -/
theorem readReg_matched_written (m : Bool) (s : State) {r : Reg} (h : r ≠ .status) :
    readReg { s with matched := m } r = readReg s r := by
  cases r with
  | status => exact absurd rfl h
  | _ => rfl

/-- `CLEAR` leaves `ID`, `CMD` and `INTEN`, the registers its row of R50 does not name. -/
theorem readReg_clearRegisters (s : State) {r : Reg} (h : writtenBy .clear r = false) :
    readReg (clearRegisters s) r = readReg s r := by
  cases r with
  | id | cmd | inten => rfl
  | _ => simp [writtenBy] at h

/-- The writes of a command change no register outside its row of the table of R50. -/
theorem Writes.readReg_eq {i : Instr} {s w : State} (hw : Writes s i w) {r : Reg} (hstatus : r ≠ .status)
    (h : writtenBy i r = false) : readReg w r = readReg s r := by
  cases hw with
  | ctr2b => exact readReg_writeMessage _ s h
  | b2ctr => exact readReg_writeCounter _ s h
  | hmac => exact readReg_writeDigest _ _ s h
  | trunc => exact readReg_writeCode _ _ s h
  | hotp =>
    simp only [writtenBy, hotpRegs, Bool.or_eq_false_iff] at h
    obtain ⟨⟨hmsg, hdigest⟩, hcode⟩ := h
    rw [readReg_writeCode _ _ _ hcode, readReg_writeDigest _ _ _ hdigest, readReg_writeMessage _ _ hmsg]
  | cmp => exact readReg_matched_written _ s hstatus
  | b32enc => exact readReg_text_written _ _ s h
  | b32dec => exact readReg_key_written _ _ s h
  | clear => exact readReg_clearRegisters s h

/-- No command writes the reset input or the host side. -/
theorem Writes.host_frame {i : Instr} {s w : State} (h : Writes s i w) :
    w.inReset = s.inReset ∧ w.schedule = s.schedule ∧ w.reply = s.reply ∧ w.draws = s.draws := by
  cases h <;> exact ⟨rfl, rfl, rfl, rfl⟩

/-- The completion of a command's writes is a successful one, and changes only what its row of R50 names. -/
theorem Writes.completesAs {i : Instr} {s w : State} (h : Writes s i w) :
    CompletesAs s (complete w) .ok (writtenBy i) := by
  obtain ⟨overrun, doneie, errie⟩ := h.frame
  obtain ⟨inReset, schedule, reply, draws⟩ := h.host_frame
  exact { idle := rfl, done := rfl, errcode := rfl, overrun, doneie, errie, inReset, schedule, reply, draws
          reads := fun _ hstatus hr => (readReg_complete w hstatus).trans (h.readReg_eq hstatus hr) }

/-! ## The two 64-bit values (10_state.md R38 to R40) -/

/-- `MSG0` and `MSG1` as the halves of one value, as `CTR_HI` and `CTR_LO` are of the counter. -/
def State.messageValue (s : State) : BitVec 64 := readReg s (.msg 0) ++ readReg s (.msg 1)

theorem toNat_word_append (hi lo : Word) : (hi ++ lo).toNat = hi.toNat * 2 ^ 32 + lo.toNat := by
  rw [BitVec.toNat_append, ← Nat.shiftLeft_add_eq_or_of_lt lo.isLt, Nat.shiftLeft_eq]

/-- Four bytes have the value of the register that packs them (00_scope.md R11, 10_state.md R40). -/
theorem fromBE_four_bytes {bs : List Byte} (h : bs.length = 4) :
    fromBE bs = (packWord (byteAt bs 0) (byteAt bs 1) (byteAt bs 2) (byteAt bs 3)).toNat := by
  match bs, h with
  | [a, b, c, d], _ => simp [fromBE, byteAt, packWord_toNat]

/-- The value of `MSG0` and `MSG1` is that of the message they hold. -/
theorem fromBE_message (s : State) : fromBE s.message = s.messageValue.toNat := by
  have length : s.message.length = 8 := s.msg.length_toList
  have low : fromBE (s.message.drop 4) = (readReg s (.msg 1)).toNat := by
    rw [fromBE_four_bytes (by simp [length])]
    simp only [byteAt_drop]
    rfl
  have high : fromBE (s.message.take 4) = (readReg s (.msg 0)).toNat := by
    rw [fromBE_four_bytes (by simp [length])]
    simp only [byteAt_take, Nat.reduceLT]
    rfl
  calc fromBE s.message = fromBE (s.message.take 4 ++ s.message.drop 4) := by rw [List.take_append_drop]
    _ = (readReg s (.msg 0)).toNat * 2 ^ 32 + (readReg s (.msg 1)).toNat := by
      rw [fromBE_append, high, low, List.length_drop, length, show 256 ^ (8 - 4) = 2 ^ 32 by decide]
    _ = s.messageValue.toNat := (toNat_word_append _ _).symm

/-- The value `B2CTR` stores is `MSG0`, `MSG1` bit for bit (40_counter_codec.md R102). -/
theorem ofNat_fromBE_message (s : State) : BitVec.ofNat 64 (fromBE s.message) = s.messageValue := by
  rw [fromBE_message, BitVec.ofNat_toNat, BitVec.setWidth_eq]

/-- After the writes of `CTR2B`, `MSG0` and `MSG1` hold the value written (40_counter_codec.md R100). -/
theorem messageValue_writeMessage (c : BitVec 64) (s : State) : (writeMessage c s).messageValue = c := by
  have message : (writeMessage c s).message = beBytes 8 c.toNat := fitTo_of_length (length_beBytes 8 c.toNat)
  rw [← ofNat_fromBE_message, message, fromBE_beBytes c.isLt, BitVec.ofNat_toNat, BitVec.setWidth_eq]

/-- A 64-bit value determines its two registers. -/
theorem word_append_inj {hi lo hi' lo' : Word} (h : hi ++ lo = hi' ++ lo') : hi = hi' ∧ lo = lo' := by
  constructor
  · rw [← BitVec.extractLsb'_append_eq_left (a := hi) (b := lo), h, BitVec.extractLsb'_append_eq_left]
  · rw [← BitVec.extractLsb'_append_eq_right (a := hi) (b := lo), h, BitVec.extractLsb'_append_eq_right]

/-- `MSG0 = CTR_HI` and `MSG1 = CTR_LO` after the writes of `CTR2B` (40_counter_codec.md R100). -/
theorem readReg_msg_writeMessage_counter (s : State) :
    readReg (writeMessage s.counter s) (.msg 0) = s.ctrHi ∧ readReg (writeMessage s.counter s) (.msg 1) = s.ctrLo :=
  word_append_inj (messageValue_writeMessage s.counter s)

/-- The counter holds the value last written to it. -/
theorem counter_writeCounter (c : BitVec 64) (s : State) : (writeCounter c s).counter = c := by
  have halves : c.extractLsb' 32 32 ++ c.extractLsb' 0 32 = c.extractLsb' 0 64 :=
    BitVec.extractLsb'_append_extractLsb'_eq_extractLsb' rfl
  exact halves.trans BitVec.extractLsb'_eq_self

/-- After the writes of `B2CTR` the counter is the value of `MSG0` and `MSG1` (40_counter_codec.md R102). -/
theorem counter_writeCounter_message (s : State) :
    (writeCounter (BitVec.ofNat 64 (fromBE s.message)) s).counter = s.messageValue := by
  rw [counter_writeCounter, ofNat_fromBE_message]

/-- `CTR_HI = MSG0` and `CTR_LO = MSG1` after the writes of `B2CTR` (40_counter_codec.md R102). -/
theorem ctr_writeCounter_message (s : State) :
    (writeCounter (BitVec.ofNat 64 (fromBE s.message)) s).ctrHi = readReg s (.msg 0) ∧
    (writeCounter (BitVec.ofNat 64 (fromBE s.message)) s).ctrLo = readReg s (.msg 1) :=
  word_append_inj (counter_writeCounter_message s)

/-- Writing a message's own value to `MSG` leaves it as it is (40_counter_codec.md R103). -/
theorem writeMessage_messageValue (s : State) : writeMessage s.messageValue s = s := by
  have bytes : beBytes 8 (fromBE s.message) = s.message := by
    simpa [State.message] using beBytes_fromBE s.message
  rw [writeMessage, ← fromBE_message, bytes, State.message, zeroFill_of_toList]

/-! ## The statements -/

/-- Settles O23: the registers as the halves of the value written, and the bytes as those of `BE_8`. -/
theorem ctr2bWritesTheCounterBytes : Obligations.Ctr2bWritesTheCounterBytes := by
  refine ⟨by decide, fun s => ?_⟩
  obtain ⟨msg0, msg1⟩ := readReg_msg_writeMessage_counter s
  refine ⟨_, exec_ctr2b s, Writes.ctr2b.completesAs, rfl, msg0, msg1, fun i hi => ?_⟩
  rw [complete_msg, writeMessage_msg, bufByte_zeroFill, if_pos hi, byteAt_beBytes hi, BitVec.toNat_ofNat,
    Nat.shiftRight_eq_div_pow, State.counter, toNat_word_append]

/-- Settles O24: the counter written is the value of `MSG0` and `MSG1`, which is that of the message. -/
theorem b2ctrReadsTheCounterBytes : Obligations.B2ctrReadsTheCounterBytes := by
  refine ⟨by decide, fun s => ?_⟩
  obtain ⟨ctrHi, ctrLo⟩ := ctr_writeCounter_message s
  refine ⟨_, exec_b2ctr s, Writes.b2ctr.completesAs, rfl, ctrHi, ctrLo, ?_⟩
  rw [complete_ctrHi, complete_ctrLo, ctrHi, ctrLo, ← toNat_word_append]
  exact (fromBE_message s).symm

/-- Settles O25: each command stores the other's value, and a value determines the registers and bytes it stands in. -/
theorem codecRoundTrips : Obligations.CodecRoundTrips := by
  refine ⟨fun s => ⟨_, _, exec_ctr2b s, exec_b2ctr _, ?_⟩, fun s => ⟨_, _, exec_b2ctr s, exec_ctr2b _, ?_⟩,
    fun c hc => fromBE_beBytes hc⟩
  · obtain ⟨ctrHi, ctrLo⟩ := ctr_writeCounter_message (complete (writeMessage s.counter s))
    obtain ⟨msg0, msg1⟩ := readReg_msg_writeMessage_counter s
    exact ⟨ctrHi.trans msg0, ctrLo.trans msg1⟩
  · change (writeMessage (writeCounter (BitVec.ofNat 64 (fromBE s.message)) s).counter s).msg = s.msg
    rw [counter_writeCounter_message, writeMessage_messageValue]

end Sys2Proof.Machine
end

section
/-! PROOFS of the statements about 41_hmac.md. The padding as arithmetic modulo the block length; the words of a block
and the message schedules read by their index; each hash function's rounds as a sequence of states; then HMAC, whose key
string is determined byte by byte, and the commands on states that agree on the operands. -/

namespace Sys2Proof.Machine

/-! ## Padding (41_hmac.md R111, R112) -/

/-- The zeros fill the block up to its length field. -/
theorem padZeros_modEq {block lenBytes : Nat} (h : lenBytes < block) (L : Nat) :
    L + 1 + padZeros block lenBytes L ≡ block - lenBytes [MOD block] := by
  have hL : L % block < block := Nat.mod_lt L (by omega)
  calc L + 1 + padZeros block lenBytes L
      ≡ L % block + 1 + (2 * block - lenBytes - 1 - L % block) [MOD block] :=
        ((Nat.mod_modEq L block).symm.add_right 1).add (Nat.mod_modEq _ block)
    _ = block - lenBytes + block := by omega
    _ ≡ block - lenBytes [MOD block] := Nat.add_modEq_right

/-- No fewer bytes fill the block up to its length field. -/
theorem padZeros_le {block lenBytes L j : Nat} (h : lenBytes < block)
    (hj : L + 1 + j ≡ block - lenBytes [MOD block]) : padZeros block lenBytes L ≤ j := by
  have same : padZeros block lenBytes L ≡ j [MOD block] :=
    ((padZeros_modEq h L).trans hj.symm).add_left_cancel' (L + 1)
  have reduced : padZeros block lenBytes L % block = padZeros block lenBytes L := Nat.mod_mod _ _
  calc padZeros block lenBytes L = j % block := reduced.symm.trans same
    _ ≤ j := Nat.mod_le j block

/-- A padded message is made of whole blocks. -/
theorem length_padMessage_mod {block lenBytes : Nat} (h : lenBytes < block) (m : List Byte) :
    (padMessage block lenBytes m).length % block = 0 := by
  have filled := (padZeros_modEq h m.length).add_right lenBytes
  rw [Nat.sub_add_cancel h.le, ← length_padMessage] at filled
  exact Eq.trans filled (Nat.mod_self block)

/-- The padding of a message, with the least number of zeros (41_hmac.md R111, R112). -/
theorem padMessage_spec {block lenBytes : Nat} (hpos : 0 < lenBytes) (h : lenBytes < block) (m : List Byte) :
    ∃ k, padMessage block lenBytes m = m ++ [0x80] ++ List.replicate k 0 ++ beBytes lenBytes (8 * m.length) ∧
      (m.length + 1 + k) % block = block - lenBytes ∧
      (∀ j, (m.length + 1 + j) % block = block - lenBytes → k ≤ j) ∧
      (padMessage block lenBytes m).length % block = 0 := by
  have target : (block - lenBytes) % block = block - lenBytes := Nat.mod_eq_of_lt (by omega)
  exact ⟨padZeros block lenBytes m.length, rfl, Eq.trans (padZeros_modEq h m.length) target,
    fun j hj => padZeros_le h (hj.trans target.symm), length_padMessage_mod h m⟩

/-- The words of a block are its pieces read big-endian (41_hmac.md R110): no bit of a piece is lost. -/
theorem toNat_getD_blockWords {n j : Nat} {b : List Byte} (hj : j < b.length / (n / 8)) :
    ((blockWords n b).getD j 0).toNat = fromBE ((b.drop (n / 8 * j)).take (n / 8)) := by
  have piece : (blockWords n b).getD j 0 = BitVec.ofNat n (fromBE ((b.drop (n / 8 * j)).take (n / 8))) := by
    simp [blockWords, splitBytes, List.getD, hj, Nat.mul_comm]
  have fits : fromBE ((b.drop (n / 8 * j)).take (n / 8)) < 2 ^ n := by
    calc fromBE ((b.drop (n / 8 * j)).take (n / 8))
        < 256 ^ ((b.drop (n / 8 * j)).take (n / 8)).length := fromBE_lt _
      _ ≤ 256 ^ (n / 8) := Nat.pow_le_pow_right (by decide) (List.length_take_le _ _)
      _ = 2 ^ (8 * (n / 8)) := (Nat.pow_mul 2 8 (n / 8)).symm
      _ ≤ 2 ^ n := Nat.pow_le_pow_right (by decide) (Nat.mul_div_le n 8)
  rw [piece, BitVec.toNat_ofNat, Nat.mod_eq_of_lt fits]

/-! ## Schedules (41_hmac.md R117, R121, R125) -/

/-- The word `W[t]` of a schedule beyond the block's own is `next` of the words before it, whose last sixteen are
`W[t-1]` to `W[t-16]`. -/
theorem schedule_getD {n count t : Nat} {next : List (BitVec n) → BitVec n} {ws W : List (BitVec n)}
    (hW : W = hashSchedule next count ws) (hws : ws.length = 16) (h16 : 16 ≤ t) (ht : t < 16 + count) :
    W.getD t 0 = next (W.take t).reverse ∧
    ∀ j, 1 ≤ j → j ≤ 16 → wordBack (W.take t).reverse j = W.getD (t - j) 0 := by
  subst hW
  obtain ⟨-, later⟩ := hashSchedule_spec next count ws
  refine ⟨later t (by omega) (by omega), fun j h1 hj => wordBack_take_reverse ?_ h1 (hj.trans h16)⟩
  rw [length_hashSchedule]
  omega

/-- The first sixteen words of a schedule are the block's own. -/
theorem schedule_getD_of_lt {n count t : Nat} {next : List (BitVec n) → BitVec n} {ws W : List (BitVec n)}
    (hW : W = hashSchedule next count ws) (hws : ws.length = 16) (ht : t < 16) : W.getD t 0 = ws.getD t 0 := by
  subst hW
  obtain ⟨own, -⟩ := hashSchedule_spec next count ws
  exact own t (hws ▸ ht)

/-! ## SHA-1 (41_hmac.md R115 to R117) -/

/-- A word of SHA-1's schedule beyond the block's own (41_hmac.md R117). -/
theorem sha1Schedule_getD {count t : Nat} {ws W : List Word} (hW : W = hashSchedule sha1NextWord count ws)
    (hws : ws.length = 16) (h16 : 16 ≤ t) (ht : t < 16 + count) :
    W.getD t 0 =
      (W.getD (t - 3) 0 ^^^ W.getD (t - 8) 0 ^^^ W.getD (t - 14) 0 ^^^ W.getD (t - 16) 0).rotateLeft 1 := by
  obtain ⟨next, back⟩ := schedule_getD hW hws h16 ht
  rw [next, sha1NextWord, back 3 (by decide) (by decide), back 8 (by decide) (by decide),
    back 14 (by decide) (by decide), back 16 (by decide) (by decide)]

/-- The processing of a block is the 80 rounds of R117 over its schedule: `a` to `e` before round `t` are those after
the schedule's first `t` words. -/
theorem sha1Block_computes {block : List Byte} (hb : block.length = 64) (h : Sha1Words) :
    Sha1Computes (blockWords 32 block) h (sha1Block h block) := by
  have words : (blockWords 32 block).length = 16 := by rw [length_blockWords, hb]
  obtain ⟨W, hW⟩ : ∃ W, W = hashSchedule sha1NextWord 64 (blockWords 32 block) := ⟨_, rfl⟩
  have length : W.length = 80 := by rw [hW, length_hashSchedule, words]
  refine ⟨(W.getD · 0), fun t => sha1Rounds 0 (W.take t) h, fun t ht => schedule_getD_of_lt hW words ht,
    fun t h16 ht => sha1Schedule_getD hW words h16 ht, rfl, fun t ht => ?_, ?_⟩
  · simp only [sha1Rounds_take_succ h (length.symm ▸ ht), Nat.le_iff_lt_add_one]
    rfl
  · simp only [List.take_of_length_le length.le]
    subst hW
    rfl

/-! ## SHA-256 and SHA-512 (41_hmac.md R118 to R125) -/

/-- A word of the schedule of SHA-256 or SHA-512 beyond the block's own (41_hmac.md R121). -/
theorem sha2Schedule_getD {n count t : Nat} {p : Sha2Params n} {ws W : List (BitVec n)}
    (hW : W = hashSchedule (sha2NextWord p) count ws) (hws : ws.length = 16) (h16 : 16 ≤ t) (ht : t < 16 + count) :
    W.getD t 0 =
      p.smallS1 (W.getD (t - 2) 0) + W.getD (t - 7) 0 + p.smallS0 (W.getD (t - 15) 0) + W.getD (t - 16) 0 := by
  obtain ⟨next, back⟩ := schedule_getD hW hws h16 ht
  rw [next, sha2NextWord, back 2 (by decide) (by decide), back 7 (by decide) (by decide),
    back 15 (by decide) (by decide), back 16 (by decide) (by decide)]

/-- The processing of a block is one round of R121 for each constant: `a` to `h` before round `t` are those after the
first `t` constants and words of the schedule. -/
theorem sha2Block_computes {n : Nat} (p : Sha2Params n) {block : List Byte} (words : (blockWords n block).length = 16)
    (hrounds : 16 ≤ p.constants.length) (h : Sha2Words n) :
    Sha2Computes p.bigS0 p.bigS1 p.smallS0 p.smallS1 p.constants p.constants.length (blockWords n block) h
      (sha2Block p h block) := by
  obtain ⟨W, hW⟩ : ∃ W, W = hashSchedule (sha2NextWord p) (p.constants.length - 16) (blockWords n block) := ⟨_, rfl⟩
  have length : W.length = p.constants.length := by
    rw [hW, length_hashSchedule, words, Nat.add_sub_cancel' hrounds]
  refine ⟨(W.getD · 0), fun t => sha2Rounds p (p.constants.take t) (W.take t) h,
    fun t ht => schedule_getD_of_lt hW words ht,
    fun t h16 ht => sha2Schedule_getD hW words h16 (by omega), rfl, fun t ht => ?_, ?_⟩
  · exact sha2Rounds_take_succ p h ht (length.symm ▸ ht)
  · simp only [List.take_length, List.take_of_length_le length.le]
    subst hW
    rfl

/-! ## The constants (41_hmac.md R119, R120, R123, R124) -/

/-- The first 80 primes. -/
def firstPrimes : List Nat :=
  [2, 3, 5, 7, 11, 13, 17, 19, 23, 29, 31, 37, 41, 43, 47, 53, 59, 61, 67, 71, 73, 79, 83, 89, 97, 101, 103, 107, 109,
   113, 127, 131, 137, 139, 149, 151, 157, 163, 167, 173, 179, 181, 191, 193, 197, 199, 211, 223, 227, 229, 233, 239,
   241, 251, 257, 263, 269, 271, 277, 281, 283, 293, 307, 311, 313, 317, 331, 337, 347, 349, 353, 359, 367, 373, 379,
   383, 389, 397, 401, 409]

/-- No number from 2 to 20 divides `p`, but perhaps `p` itself. -/
def passesTrial (p : Nat) : Bool := 2 ≤ p && (List.range 21).all fun d => d < 2 || p ≤ d || p % d != 0

/-- Trial division by the numbers below 21 finds the primes below 441: the least divisor of a composite number is no
greater than its square root. -/
theorem passesTrial_iff_prime {p : Nat} (hp : p < 21 * 21) : passesTrial p = true ↔ p.Prime := by
  simp only [passesTrial, Bool.and_eq_true, decide_eq_true_eq, List.all_eq_true, List.mem_range, Bool.or_eq_true,
    bne_iff_ne, ne_eq, ← Nat.dvd_iff_mod_eq_zero]
  constructor
  · rintro ⟨h2, htrial⟩
    by_contra hcomposite
    have least : 2 ≤ p.minFac := (Nat.minFac_prime (by omega)).two_le
    have proper : p.minFac < p := (Nat.not_prime_iff_minFac_lt h2).mp hcomposite
    have small : p.minFac < 21 := by
      have := Nat.minFac_sq_le_self (by omega) hcomposite
      nlinarith
    exact (htrial _ small).elim (by omega) fun hnot => hnot p.minFac_dvd
  · intro hprime
    obtain ⟨h2, hdvd⟩ := Nat.prime_def_lt'.mp hprime
    refine ⟨h2, fun d _ => ?_⟩
    by_cases hd : 2 ≤ d ∧ d < p
    · exact .inr (hdvd d hd.1 hd.2)
    · exact .inl (by omega)

/-- The numbers `primesBelow` looks for are the primes. -/
theorem primesBelow_eq_filter_prime (n : Nat) : primesBelow n = (List.range n).filter (Nat.Prime ·) := by
  refine List.filter_congr fun p _ => ?_
  rw [Bool.eq_iff_iff, decide_eq_true_iff, Nat.prime_def_lt']
  simp only [Bool.and_eq_true, decide_eq_true_eq, List.all_eq_true, List.mem_range, Bool.or_eq_true, bne_iff_ne, ne_eq,
    ← Nat.dvd_iff_mod_eq_zero]
  exact and_congr_right fun _ => forall_congr' fun d =>
    ⟨fun h h2 hlt => (h hlt).resolve_left (by omega), fun h hlt => (Nat.lt_or_ge d 2).imp_right fun h2 => h h2 hlt⟩

theorem primesBelow_eq_firstPrimes : primesBelow 410 = firstPrimes := by
  have trial : (List.range 410).filter (Nat.Prime ·) = (List.range 410).filter passesTrial := by
    refine List.filter_congr fun p hp => ?_
    have := List.mem_range.mp hp
    rw [Bool.eq_iff_iff, decide_eq_true_iff, passesTrial_iff_prime (by omega)]
  rw [primesBelow_eq_filter_prime, trial]
  decide

/-- A root below 8, as those of the first 80 primes are: its whole part is looked for among eight numbers. -/
abbrev SmallRootFraction (k n p w : Nat) : Prop :=
  ∃ q < 8, (q * 2 ^ n + w) ^ k ≤ p * 2 ^ (k * n) ∧ p * 2 ^ (k * n) < (q * 2 ^ n + w + 1) ^ k

theorem SmallRootFraction.rootFraction {k n p w : Nat} (h : SmallRootFraction k n p w) : RootFraction k n p w := by
  obtain ⟨q, -, hq⟩ := h
  exact ⟨q, hq⟩

theorem sha256K_cubeRoots : ∀ t < 64, SmallRootFraction 3 32 (firstPrimes.getD t 0) (sha256K.getD t 0).toNat := by
  decide

theorem sha512K_cubeRoots : ∀ t < 80, SmallRootFraction 3 64 (firstPrimes.getD t 0) (sha512K.getD t 0).toNat := by
  decide

theorem sha256Initial_squareRoots : ∀ t < 8, SmallRootFraction 2 32 (firstPrimes.getD t 0)
    (([0x6A09E667, 0xBB67AE85, 0x3C6EF372, 0xA54FF53A, 0x510E527F, 0x9B05688C, 0x1F83D9AB, 0x5BE0CD19] :
      List Nat).getD t 0) := by
  decide

theorem sha512Initial_squareRoots : ∀ t < 8, SmallRootFraction 2 64 (firstPrimes.getD t 0)
    (([0x6A09E667F3BCC908, 0xBB67AE8584CAA73B, 0x3C6EF372FE94F82B, 0xA54FF53A5F1D36F1, 0x510E527FADE682D1,
      0x9B05688C2B3E6C1F, 0x1F83D9ABFB41BD6B, 0x5BE0CD19137E2179] : List Nat).getD t 0) := by
  decide

/-! ## HMAC (41_hmac.md R130, R140, R141) -/

/-- Past its end a byte string reads 0 as it is. -/
theorem ite_lt_length_byteAt (bs : List Byte) (i : Nat) :
    (if i < bs.length then byteAt bs i else 0) = byteAt bs i := by
  split
  next => rfl
  next h => exact (byteAt_of_length_le (Nat.le_of_not_lt h)).symm

/-- Byte `i` of `K0` (41_hmac.md R130). -/
theorem byteAt_hmacKey {h : HashAlg} {i : Nat} (hi : i < blockLength h) (k : List Byte) :
    byteAt (hmacKey h k) i = if blockLength h < k.length then byteAt (hash h k) i else byteAt k i := by
  unfold hmacKey
  split <;> rw [byteAt_fitTo, if_pos hi]

/-- The hash function and digest length of each `ALG` (30_encoding.md R81). -/
theorem algs_spec : ∀ p ∈ ([(.sha1, .sha1, 20), (.sha256, .sha256, 32), (.sha512, .sha512, 64)] :
    List (AlgField × HashAlg × Nat)), hashOf p.1 = some p.2.1 ∧ digestLength p.2.1 = p.2.2 := by
  decide

/-- A digest buffer filled with a mac of `DL` bytes, and its length (41_hmac.md R141). -/
theorem holdsDigest_of_zeroFill {h : HashAlg} {mac : List Byte} {t : State} (hlength : mac.length = digestLength h)
    (hdigest : t.digest = zeroFill 64 mac) (hdiglen : t.diglen = BitVec.ofNat 8 (digestLength h)) :
    HoldsDigest t mac (digestLength h) where
  length := hlength
  diglen := by rw [hdiglen, toNat_digestLength]
  bytes i hi := by rw [hdigest, bufByte_zeroFill, if_pos (hi.trans_le (digestLength_le h))]
  above i hi := by rw [hdigest, bufByte_zeroFill, byteAt_of_length_le (hlength.trans_le hi), ite_self]

/-! ## Commands on equal operands (41_hmac.md R142, 42_truncation.md R167) -/

/-- The key check passes, or fails with an error. -/
theorem checkKey_ok_or_error (s : State) : checkKey s = .ok () ∨ ∃ e, e ≠ .ok ∧ checkKey s = .error e := by
  obtain ⟨-, h⟩ | ⟨-, h⟩ | ⟨-, -, h⟩ := checkKey_cases s
  · exact .inr ⟨_, by decide, h⟩
  · exact .inr ⟨_, by decide, h⟩
  · exact .inl h

/-- The key check sees `KEYLEN` alone. -/
theorem checkKey_congr {s s' : State} (h : s.keylen = s'.keylen) : checkKey s = checkKey s' := by
  unfold checkKey
  rw [h]

/-- A command that fails with one error in two states gives the same error code, and has no results to compare. -/
theorem errors_agree {i : Instr} {s s' : State} {e : ErrCode} {SameResult : State → State → Prop} (he : e ≠ .ok)
    (hs : exec i s = .next (raiseError e s)) (hs' : exec i s' = .next (raiseError e s')) :
    ∃ t t', exec i s = .next t ∧ exec i s' = .next t' ∧ t.errcode = t'.errcode ∧ (t.errcode = .ok → SameResult t t') :=
  ⟨_, _, hs, hs', rfl, fun hok => absurd hok he⟩

/-- A command that succeeds in two states gives the code `OK` in both, and its results are those of its writes. -/
theorem results_agree {i : Instr} {s s' w w' : State} {SameResult : State → State → Prop}
    (hs : exec i s = .next (complete w)) (hs' : exec i s' = .next (complete w'))
    (same : SameResult (complete w) (complete w')) :
    ∃ t t', exec i s = .next t ∧ exec i s' = .next t' ∧ t.errcode = t'.errcode ∧ (t.errcode = .ok → SameResult t t') :=
  ⟨_, _, hs, hs', rfl, fun _ => same⟩

/-- `HMAC` sees `KEYLEN`, `KEY[0..KEYLEN)` and `MSG` (41_hmac.md R142). -/
theorem hmac_operands {a : AlgField} {s s' : State} (hlen : s.keylen = s'.keylen) (hkey : s.secret = s'.secret)
    (hmsg : s.msg = s'.msg) :
    ∃ t t', exec (.hmac a) s = .next t ∧ exec (.hmac a) s' = .next t' ∧ t.errcode = t'.errcode ∧
      (t.errcode = .ok → t.digest = t'.digest ∧ t.diglen = t'.diglen) := by
  obtain ⟨rfl, -⟩ | ⟨h, ha⟩ := hashOf_cases a
  · exact errors_agree (by decide) (exec_hmac_reserved s) (exec_hmac_reserved s')
  · obtain hk | ⟨e, he, hk⟩ := checkKey_ok_or_error s
    · refine results_agree (exec_hmac_ok ha hk) (exec_hmac_ok ha (checkKey_congr hlen ▸ hk)) ?_
      simp [State.message, hkey, hmsg]
    · exact errors_agree he (exec_hmac_key ha hk) (exec_hmac_key ha (checkKey_congr hlen ▸ hk))

/-- `TRUNC` sees `DIGLEN` and `DIGEST[0..DIGLEN)` (42_truncation.md R167). -/
theorem trunc_operands {d : Nat} {s s' : State} (hlen : s.diglen = s'.diglen) (hmac : s.mac = s'.mac) :
    ∃ t t', exec (.trunc d) s = .next t ∧ exec (.trunc d) s' = .next t' ∧ t.errcode = t'.errcode ∧
      (t.errcode = .ok → t.trunc = t'.trunc ∧ t.code = t'.code ∧ t.codelen = t'.codelen) := by
  by_cases hd : d < 1 ∨ 9 < d
  · have bad := checkDigits_bad hd
    exact errors_agree (by decide) (exec_trunc_digits bad) (exec_trunc_digits bad)
  · have legal := checkDigits_ok (d := d) (by omega) (by omega)
    by_cases hs : s.diglen.toNat ∈ [20, 32, 64]
    · refine results_agree (exec_trunc_ok legal (checkDigest_ok hs))
        (exec_trunc_ok legal (checkDigest_ok (hlen ▸ hs))) ?_
      simp [hmac]
    · exact errors_agree (by decide) (exec_trunc_none legal (checkDigest_none hs))
        (exec_trunc_none legal (checkDigest_none (hlen ▸ hs)))

/-- `HOTP` sees the counter, `KEYLEN` and `KEY[0..KEYLEN)` (42_truncation.md R167). -/
theorem hotp_operands {a : AlgField} {d : Nat} {s s' : State} (hhi : s.ctrHi = s'.ctrHi) (hlo : s.ctrLo = s'.ctrLo)
    (hlen : s.keylen = s'.keylen) (hkey : s.secret = s'.secret) :
    ∃ t t', exec (.hotp a d) s = .next t ∧ exec (.hotp a d) s' = .next t' ∧ t.errcode = t'.errcode ∧
      (t.errcode = .ok → t.msg = t'.msg ∧ t.digest = t'.digest ∧ t.diglen = t'.diglen ∧ t.trunc = t'.trunc ∧
        t.code = t'.code ∧ t.codelen = t'.codelen) := by
  obtain ⟨rfl, -⟩ | ⟨h, ha⟩ := hashOf_cases a
  · exact errors_agree (by decide) (exec_hotp_reserved d s) (exec_hotp_reserved d s')
  · by_cases hd : d < 1 ∨ 9 < d
    · have bad := checkDigits_bad hd
      exact errors_agree (by decide) (exec_hotp_digits ha bad) (exec_hotp_digits ha bad)
    · have legal := checkDigits_ok (d := d) (by omega) (by omega)
      obtain hk | ⟨e, he, hk⟩ := checkKey_ok_or_error s
      · refine results_agree (exec_hotp_ok ha legal hk) (exec_hotp_ok ha legal (checkKey_congr hlen ▸ hk)) ?_
        simp [State.counter, hhi, hlo, hkey]
      · exact errors_agree he (exec_hotp_key ha legal hk) (exec_hotp_key ha legal (checkKey_congr hlen ▸ hk))

/-! ## The statements -/

/-- Settles O26: the number of zeros modulo the block, whole blocks cut without loss, and a block's words. -/
theorem paddingIsTheLeastThatFits : Obligations.PaddingIsTheLeastThatFits := by
  refine ⟨padMessage_spec (by decide) (by decide), padMessage_spec (by decide) (by decide), fun m => ?_,
    fun b hb => ⟨by rw [length_blockWords, hb], fun j hj => toNat_getD_blockWords (by omega)⟩,
    fun b hb => ⟨by rw [length_blockWords, hb], fun j hj => toNat_getD_blockWords (by omega)⟩⟩
  obtain ⟨whole64, size64⟩ := splitBytes_spec (by decide) (length_padMessage_mod (by decide : 8 < 64) m)
  obtain ⟨whole128, size128⟩ := splitBytes_spec (by decide) (length_padMessage_mod (by decide : 16 < 128) m)
  exact ⟨whole64, size64, whole128, size128⟩

/-- Settles O28: a string with the bytes of `K0` is `K0`. -/
theorem hmacIsTheNestedHash : Obligations.HmacIsTheNestedHash := by
  refine ⟨fun h k m k0 hlength hbytes => ?_, fun k hk => Nat.not_lt.mpr hk, fun k => ⟨Iff.rfl, Iff.rfl⟩⟩
  have isKey : k0 = hmacKey h k := by
    refine bytes_ext (by rw [hlength, length_hmacKey]) fun i hi => ?_
    have hi : i < blockLength h := hlength ▸ hi
    rw [hbytes i hi, byteAt_hmacKey hi, ← length_hash h k, ite_lt_length_byteAt, ite_lt_length_byteAt]
  exact ⟨by rw [isKey, hmac], length_hmac h k m⟩

/-- Settles O29: each failing check by the equation of its command, and the writes of a command none of whose checks
fails. -/
theorem hmacChecksThenWritesTheDigest : Obligations.HmacChecksThenWritesTheDigest := by
  refine ⟨by decide, exec_hmac_reserved, fun s d => exec_hotp_reserved d s, fun s p hp => ?_⟩
  obtain ⟨ha, hdl⟩ := algs_spec p hp
  refine ⟨fun h0 => ?_, fun hlong => ?_, fun h1 h128 => ?_⟩
  · have empty := checkKey_empty h0
    exact ⟨exec_hmac_key ha empty, fun d h1 h9 => exec_hotp_key ha (checkDigits_ok h1 h9) empty⟩
  · have long := checkKey_long hlong
    exact ⟨exec_hmac_key ha long, fun d h1 h9 => exec_hotp_key ha (checkDigits_ok h1 h9) long⟩
  · refine ⟨_, exec_hmac_ok ha (checkKey_ok h1 h128), (Writes.hmac p.1 p.2.1 ha ⟨h1, h128⟩).completesAs, rfl, ?_⟩
    rw [← hdl]
    exact holdsDigest_of_zeroFill (length_hmac _ _ _) rfl rfl

/-- Settles O30: no check and no write of the three commands sees anything but the operands. -/
theorem operandsDetermineResults : Obligations.OperandsDetermineResults :=
  ⟨fun _ _ _ hlen hkey hmsg => hmac_operands hlen hkey hmsg, fun _ _ _ hlen hmac => trunc_operands hlen hmac,
    fun _ _ _ _ hhi hlo hlen hkey => hotp_operands hhi hlo hlen hkey⟩

/-- Settles O60: a block is processed round by round, a hash function block by block from its initial value, and the
tables of constants are compared with the roots of the first 80 primes. -/
theorem hashFunctionsProcessTheirBlocks : Obligations.HashFunctionsProcessTheirBlocks := by
  refine ⟨fun h block hb => sha1Block_computes hb h,
    fun h block hb => sha2Block_computes sha256Params (by rw [length_blockWords, hb]) (by decide) h,
    fun h block hb => sha2Block_computes sha512Params (by rw [length_blockWords, hb]) (by decide) h,
    fun m => ⟨_, rfl, rfl⟩, fun m => ⟨_, rfl, rfl⟩, fun m => ⟨_, rfl, rfl⟩, ?_⟩
  rw [primesBelow_eq_firstPrimes]
  exact ⟨⟨rfl, rfl, rfl, fun t ht => (sha256K_cubeRoots t ht).rootFraction,
    fun t ht => (sha512K_cubeRoots t ht).rootFraction⟩,
    fun t ht => (sha256Initial_squareRoots t ht).rootFraction,
    fun t ht => (sha512Initial_squareRoots t ht).rootFraction⟩

end Sys2Proof.Machine
end

section
/-! PROOFS of the statements about 42_truncation.md. First the truncated value and the code in numbers: the value is the
packed word's low 31 bits, the code its digits one by one. What `TRUNC` reads is the first `DIGLEN` bytes of `DIGEST`:
the last of them points at four bytes below the 19th. `HOTP` is then compared with its sequence check by check. -/

namespace Sys2Proof.Machine

/-! ## The truncated value in numbers (42_truncation.md R162) -/

theorem offsetOf_le (bytes : Nat → Byte) (dl : Nat) : offsetOf bytes dl ≤ 15 :=
  Nat.le_of_lt_succ (Nat.mod_lt _ (by decide))

/-- The mask 0x0F keeps the value modulo 16. -/
theorem truncOffset_eq_offsetOf (mac : List Byte) : truncOffset mac = offsetOf (byteAt mac) mac.length := by
  rw [truncOffset, BitVec.toNat_and]
  exact Nat.and_two_pow_sub_one_eq_mod _ 4

/-- The truncated value is the four bytes packed, without the top bit. -/
theorem truncatedAt_eq_packWord_mod (bytes : Nat → Byte) (off : Nat) : truncatedAt bytes off =
    (packWord (bytes off) (bytes (off + 1)) (bytes (off + 2)) (bytes (off + 3))).toNat % 2 ^ 31 := by
  have h1 := (bytes (off + 1)).isLt
  have h2 := (bytes (off + 2)).isLt
  have h3 := (bytes (off + 3)).isLt
  rw [packWord_toNat, truncatedAt]
  omega

/-- "a 31-bit unsigned integer" (42_truncation.md R162). -/
theorem truncatedAt_lt (bytes : Nat → Byte) (off : Nat) : truncatedAt bytes off < 2 ^ 31 := by
  rw [truncatedAt_eq_packWord_mod]
  exact Nat.mod_lt _ (by decide)

/-- The value `TRUNC` stores is that of R162: masking the first byte drops the bit the 31-bit register would. -/
theorem toNat_truncate (mac : List Byte) :
    (truncate mac).toNat = truncatedAt (byteAt mac) (offsetOf (byteAt mac) mac.length) := by
  have masked (b : Byte) : (b &&& 0x7F).toNat = b.toNat % 128 := by
    rw [BitVec.toNat_and]
    exact Nat.and_two_pow_sub_one_eq_mod _ 7
  have fits := truncatedAt_lt (byteAt mac) (offsetOf (byteAt mac) mac.length)
  rw [← Nat.mod_eq_of_lt fits, truncate, BitVec.toNat_setWidth, packWord_toNat, masked, truncOffset_eq_offsetOf,
    truncatedAt]
  omega

/-- `off + 3 <= 18 < DL` (42_truncation.md R163): the value is a function of the bytes below `DL` alone. -/
theorem truncatedAt_offsetOf_congr {bytes bytes' : Nat → Byte} {dl : Nat} (hdl : 18 < dl)
    (h : ∀ i < dl, bytes i = bytes' i) :
    truncatedAt bytes (offsetOf bytes dl) = truncatedAt bytes' (offsetOf bytes' dl) := by
  have sameOffset : offsetOf bytes dl = offsetOf bytes' dl := by rw [offsetOf, offsetOf, h _ (by omega)]
  have inside := offsetOf_le bytes' dl
  rw [sameOffset, truncatedAt, truncatedAt, h _ (by omega), h _ (by omega), h _ (by omega), h _ (by omega)]

/-! ## The digest `TRUNC` reads (10_state.md R43) -/

/-- Every legal digest length is above 18 (42_truncation.md R163) and fits the buffer. -/
theorem legal_diglen_bounds {dl : Nat} (h : dl ∈ [20, 32, 64]) : 18 < dl ∧ dl ≤ 64 := by
  simp only [List.mem_cons, List.not_mem_nil, or_false] at h
  omega

theorem length_mac {s : State} (h : s.diglen.toNat ∈ [20, 32, 64]) : s.mac.length = s.diglen.toNat := by
  obtain ⟨-, fits⟩ := legal_diglen_bounds h
  simp [State.mac, fits]

theorem byteAt_mac {s : State} {i : Nat} (h : i < s.diglen.toNat) : byteAt s.mac i = bufByte s.digest i :=
  byteAt_take h

/-- The value `TRUNC` takes from the buffer, for a legal digest length. -/
theorem toNat_truncate_mac {s : State} (h : s.diglen.toNat ∈ [20, 32, 64]) :
    (truncate s.mac).toNat = truncatedAt (bufByte s.digest) (offsetOf (bufByte s.digest) s.diglen.toNat) := by
  obtain ⟨above18, -⟩ := legal_diglen_bounds h
  rw [toNat_truncate, length_mac h, truncatedAt_offsetOf_congr above18 fun _ => byteAt_mac]

/-- Equal bytes below `DIGLEN` are one mac. -/
theorem mac_congr {s s' : State} (hlen : s.diglen = s'.diglen) (h : s.diglen.toNat ∈ [20, 32, 64])
    (bytes : ∀ i < s.diglen.toNat, bufByte s.digest i = bufByte s'.digest i) : s.mac = s'.mac := by
  have length := length_mac h
  refine bytes_ext (by rw [length, length_mac (hlen ▸ h), hlen]) fun i hi => ?_
  rw [length] at hi
  rw [byteAt_mac hi, byteAt_mac (hlen ▸ hi), bytes i hi]

/-- After the writes of `HMAC` the digest `TRUNC` reads is the mac written. -/
theorem mac_writeDigest {h : HashAlg} {mac : List Byte} (s : State) (hlength : mac.length = digestLength h) :
    (writeDigest h mac s).mac = mac := by
  have legal : (writeDigest h mac s).diglen.toNat ∈ [20, 32, 64] := by
    rw [writeDigest_diglen, toNat_digestLength]
    exact digestLength_mem h
  obtain ⟨-, diglen, bytes, -⟩ := holdsDigest_of_zeroFill (t := writeDigest h mac s) hlength rfl rfl
  have length := (length_mac legal).trans diglen
  refine bytes_ext (length.trans hlength.symm) fun i hi => ?_
  rw [length] at hi
  rw [byteAt_mac (diglen.symm ▸ hi), bytes i hi]

/-- A state whose digest is `BE_4(v)` and zeros: its last byte points at its first four. -/
def digestOfValue (v : Nat) : State := { State.reset with digest := zeroFill 64 (beBytes 4 v), diglen := 20 }

@[simp] theorem digestOfValue_diglen (v : Nat) : (digestOfValue v).diglen.toNat = 20 := rfl

theorem legal_diglen_digestOfValue (v : Nat) : (digestOfValue v).diglen.toNat ∈ [20, 32, 64] := List.mem_cons_self

/-- Every 31-bit value is truncated from some digest. -/
theorem toNat_truncate_digestOfValue {v : Nat} (h : v < 2 ^ 31) : (truncate (digestOfValue v).mac).toNat = v := by
  have byte {i : Nat} (hi : i < 64) : bufByte (digestOfValue v).digest i = byteAt (beBytes 4 v) i :=
    (bufByte_zeroFill 64 _ i).trans (if_pos hi)
  have offset : offsetOf (bufByte (digestOfValue v).digest) 20 = 0 := by
    rw [offsetOf, byte (by decide), byteAt_of_length_le (by simp)]
    rfl
  rw [toNat_truncate_mac (legal_diglen_digestOfValue v), digestOfValue_diglen, offset, truncatedAt_eq_packWord_mod,
    byte (by decide), byte (by decide), byte (by decide), byte (by decide),
    ← fromBE_four_bytes (length_beBytes 4 v), fromBE_beBytes (by omega), Nat.mod_eq_of_lt h]

/-! ## The code (42_truncation.md R160, R164) -/

theorem toNat_codeDigit (t : BitVec 31) (d i : Nat) :
    (codeDigit t d i).toNat = 0x30 + t.toNat % 10 ^ d / 10 ^ (d - 1 - i) % 10 := by
  rw [codeDigit, BitVec.toNat_ofNat]
  omega

/-- `d` digits, then 0x00. -/
theorem bufByte_renderCode {d : Nat} (hd : d ≤ 12) (t : BitVec 31) (i : Nat) :
    bufByte (renderCode t d) i = if i < d then codeDigit t d i else 0 := by
  rw [renderCode, bufByte_zeroFill]
  by_cases hi : i < d
  · rw [if_pos (by omega), if_pos hi, byteAt_eq_getElem (by simpa using hi), List.getElem_map, List.getElem_range]
  · rw [if_neg hi, byteAt_of_length_le (by simpa using hi), ite_self]

/-- The completion of `TRUNC`'s writes holds the value and its code. -/
theorem holdsCode_complete_writeCode {d : Nat} (hd : d ≤ 9) (t : BitVec 31) (s : State) :
    HoldsCode (complete (writeCode t d s)) t.toNat d where
  trunc := rfl
  codelen := by rw [complete_codelen, writeCode_codelen, BitVec.toNat_ofNat]; omega
  digits i hi := by
    rw [complete_code, writeCode_code, bufByte_renderCode (by omega), if_pos hi, toNat_codeDigit]
  above i hi := by
    rw [complete_code, writeCode_code, bufByte_renderCode (by omega), if_neg (by omega)]

/-- The bytes of a code are ASCII digits (42_truncation.md R164). -/
theorem HoldsCode.ascii {t : State} {v d i : Nat} (h : HoldsCode t v d) (hi : i < d) :
    0x30 ≤ (bufByte t.code i).toNat ∧ (bufByte t.code i).toNat ≤ 0x39 := by
  rw [h.digits i hi]
  omega

/-- A successful `TRUNC` or `HOTP` leaves the code of some value (42_truncation.md R160, R165). -/
theorem exec_holdsCode {d : Nat} {s t : State} (h : exec (.trunc d) s = .next t ∨ ∃ a, exec (.hotp a d) s = .next t)
    (hok : t.errcode = .ok) : ∃ v, HoldsCode t v d := by
  rcases h with h | ⟨a, h⟩
  · obtain ⟨w, hw, rfl⟩ := exec_ok h hok
    cases hw with
    | trunc _ hd =>
      obtain ⟨-, h9⟩ := hd
      exact ⟨_, holdsCode_complete_writeCode h9 _ _⟩
  · obtain ⟨w, hw, rfl⟩ := exec_ok h hok
    cases hw with
    | hotp _ _ _ _ hd =>
      obtain ⟨-, h9⟩ := hd
      exact ⟨_, holdsCode_complete_writeCode h9 _ _⟩

/-! ## `HOTP` and its sequence (42_truncation.md R165, R166) -/

theorem toNat_counter (s : State) : s.counter.toNat = s.ctrHi.toNat * 2 ^ 32 + s.ctrLo.toNat :=
  toNat_word_append _ _

/-- `MSG` holds the bytes `CTR2B` writes (40_counter_codec.md R100). -/
theorem message_writeMessage (c : BitVec 64) (s : State) : (writeMessage c s).message = beBytes 8 c.toNat :=
  fitTo_of_length (length_beBytes 8 _)

/-- An error of the key check is one of the two about the key's length. -/
theorem checkKey_error_ne {s : State} {e : ErrCode} (h : checkKey s = .error e) : e ≠ .ok ∧ e ≠ .badAlg := by
  obtain ⟨-, h'⟩ | ⟨-, h'⟩ | ⟨-, -, h'⟩ := checkKey_cases s
  · cases h.symm.trans h'
    decide
  · cases h.symm.trans h'
    decide
  · cases h.symm.trans h'

/-- `HMAC` after `CTR2B` hashes the counter's bytes: the mac is `HOTP`'s. -/
theorem exec_hmac_after_ctr2b {a : AlgField} {h : HashAlg} {s : State} (ha : hashOf a = some h)
    (hk : checkKey s = .ok ()) :
    exec (.hmac a) (complete (writeMessage s.counter s)) = .next (complete
      (writeDigest h (hmac h s.secret (beBytes 8 s.counter.toNat)) (complete (writeMessage s.counter s)))) := by
  rw [← message_writeMessage s.counter s]
  exact exec_hmac_ok ha (s := complete (writeMessage s.counter s)) hk

/-- `TRUNC` after `HMAC` truncates the mac written, and nothing but the digits can fail. -/
theorem exec_trunc_after_hmac {h : HashAlg} {mac : List Byte} {d : Nat} {s : State} (hd : checkDigits d = .ok ())
    (hlength : mac.length = digestLength h) :
    exec (.trunc d) (complete (writeDigest h mac s)) =
      .next (complete (writeCode (truncate mac) d (complete (writeDigest h mac s)))) := by
  have legal : (complete (writeDigest h mac s)).diglen.toNat ∈ [20, 32, 64] := by
    rw [complete_diglen, writeDigest_diglen, toNat_digestLength]
    exact digestLength_mem h
  have read : (complete (writeDigest h mac s)).mac = mac := mac_writeDigest s hlength
  rw [exec_trunc_ok hd (checkDigest_ok legal), read]

/-! ## The statements -/

/-- Settles O32: each failing check by the equation of its command; else the value is read from the buffer's bytes. -/
theorem truncChecksThenWritesTheCode : Obligations.TruncChecksThenWritesTheCode := by
  refine ⟨by decide, fun s d => ⟨fun hd => exec_trunc_digits (checkDigits_bad hd),
    fun h1 h9 hs => exec_trunc_none (checkDigits_ok h1 h9) (checkDigest_none hs), fun h1 h9 hs => ?_⟩⟩
  refine ⟨_, exec_trunc_ok (checkDigits_ok h1 h9) (checkDigest_ok hs), (Writes.trunc d ⟨h1, h9⟩ hs).completesAs,
    rfl, ?_⟩
  rw [← toNat_truncate_mac hs]
  exact holdsCode_complete_writeCode h9 _ s

/-- Settles O33: the offset is below 16 and the bytes read below the 19th; every 31-bit value comes from some digest. -/
theorem truncationStaysInsideTheDigest : Obligations.TruncationStaysInsideTheDigest := by
  refine ⟨fun s hs => ?_, fun s s' d t t' hlen hs bytes h h' => ?_, fun d v h1 h9 hv => ?_⟩
  · have inside := offsetOf_le (bufByte s.digest) s.diglen.toNat
    obtain ⟨above18, -⟩ := legal_diglen_bounds hs
    exact ⟨inside, by omega, above18, truncatedAt_lt _ _⟩
  · obtain ⟨u, u', hu, hu', sameError, sameResult⟩ := trunc_operands (d := d) hlen (mac_congr hlen hs bytes)
    cases hu.symm.trans h
    cases hu'.symm.trans h'
    refine ⟨sameError, fun hok => ?_⟩
    obtain ⟨trunc, code, -⟩ := sameResult hok
    exact ⟨trunc, code⟩
  · have small : v < 2 ^ 31 := by
      have := Nat.pow_le_pow_right (by decide : 0 < 10) h9
      omega
    refine ⟨digestOfValue v, _,
      exec_trunc_ok (checkDigits_ok h1 h9) (checkDigest_ok (legal_diglen_digestOfValue v)), rfl, ?_⟩
    rw [complete_trunc, writeCode_trunc, toNat_truncate_digestOfValue small, Nat.mod_eq_of_lt hv]

/-- Settles O34: both commands leave the code of some value. -/
theorem codesAreZeroPaddedDigits : Obligations.CodesAreZeroPaddedDigits := by
  intro d s t h hok
  obtain ⟨v, holds⟩ := exec_holdsCode h hok
  exact ⟨holds.codelen, fun i hi => holds.ascii hi⟩

/-- Settles O35: each failing check by the equation of its command; else the mac in `DIGEST` and its truncation. -/
theorem hotpChecksThenWritesAll : Obligations.HotpChecksThenWritesAll := by
  refine ⟨by decide, fun s d => exec_hotp_reserved d s, fun s d p hp => ?_⟩
  obtain ⟨ha, hdl⟩ := algs_spec p hp
  refine ⟨fun hd => exec_hotp_digits ha (checkDigits_bad hd), fun h1 h9 => ?_⟩
  have legal := checkDigits_ok h1 h9
  refine ⟨fun h0 => exec_hotp_key ha legal (checkKey_empty h0),
    fun hlong => exec_hotp_key ha legal (checkKey_long hlong), fun k1 k128 => ?_⟩
  rw [← toNat_counter, ← hdl]
  have length := length_hmac p.2.1 s.secret (beBytes 8 s.counter.toNat)
  have value := toNat_truncate (hmac p.2.1 s.secret (beBytes 8 s.counter.toNat))
  rw [length] at value
  refine ⟨_, exec_hotp_ok ha legal (checkKey_ok k1 k128),
    (Writes.hotp p.1 d p.2.1 ha ⟨h1, h9⟩ ⟨k1, k128⟩).completesAs, rfl, message_writeMessage s.counter s,
    holdsDigest_of_zeroFill length rfl rfl, ?_⟩
  exact value ▸ holdsCode_complete_writeCode h9 _ _

/-- Settles O36: by the first of `HOTP`'s checks that fails; with none, the sequence's writes are `HOTP`'s. -/
theorem hotpIsTheThreeCommands : Obligations.HotpIsTheThreeCommands := by
  intro a d s
  obtain ⟨rfl, -⟩ | ⟨h, ha⟩ := hashOf_cases a
  · obtain ⟨t3, h3⟩ := exec_next (.trunc d) (raiseError .badAlg (complete (writeMessage s.counter s)))
    exact ⟨_, _, t3, _, exec_ctr2b s, exec_hmac_reserved _, h3, exec_hotp_reserved d s, rfl, by simp⟩
  by_cases hd : 1 ≤ d ∧ d ≤ 9
  · obtain ⟨h1, h9⟩ := hd
    have legal := checkDigits_ok h1 h9
    cases hk : checkKey s with
    | error e =>
      obtain ⟨notOk, notAlg⟩ := checkKey_error_ne hk
      obtain ⟨t3, h3⟩ := exec_next (.trunc d) (raiseError e (complete (writeMessage s.counter s)))
      exact ⟨_, _, t3, _, exec_ctr2b s, exec_hmac_key ha hk, h3, exec_hotp_key ha legal hk, rfl,
        by simp [notOk, notAlg, h1, h9]⟩
    | ok _ =>
      exact ⟨_, _, _, _, exec_ctr2b s, exec_hmac_after_ctr2b ha hk, exec_trunc_after_hmac legal (length_hmac _ _ _),
        exec_hotp_ok ha legal hk, rfl, by simp, fun _ => rfl, by simp⟩
  · have bad := checkDigits_bad (d := d) (by omega)
    cases hk : checkKey s with
    | error e =>
      obtain ⟨notOk, notAlg⟩ := checkKey_error_ne hk
      obtain ⟨t3, h3⟩ := exec_next (.trunc d) (raiseError e (complete (writeMessage s.counter s)))
      exact ⟨_, _, t3, _, exec_ctr2b s, exec_hmac_key ha hk, h3, exec_hotp_digits ha bad, rfl,
        by simp [notOk, notAlg, hd]⟩
    | ok _ =>
      exact ⟨_, _, _, _, exec_ctr2b s, exec_hmac_after_ctr2b ha hk, exec_trunc_digits bad, exec_hotp_digits ha bad,
        rfl, by simp⟩

end Sys2Proof.Machine
end

section
/-! PROOFS of the statements about 43_comparator.md. The accumulator of `CMP` collects the differences of the compared
positions, so it is 0 exactly when they all agree, and `MATCH` says it is. By the invariant the compared bytes of `CODE`
are digits, so a submitted byte that is none differs from its byte of `CODE`. -/

namespace Sys2Proof.Machine

/-! ## The accumulator (43_comparator.md R180) -/

/-- One position adds nothing to the accumulator exactly when it is not compared or its bytes agree. -/
theorem cmpStep_eq_zero_iff (s : State) (diff : Byte) (i : Nat) :
    cmpStep s diff i = 0 ↔ diff = 0 ∧ (i < s.codelen.toNat → bufByte s.submit i = bufByte s.code i) := by
  unfold cmpStep cmpMask
  split
  next compared =>
    rw [show (0xFF : Byte) = BitVec.allOnes 8 by decide, BitVec.and_allOnes]
    simp [compared]
  next skipped => simp [skipped]

theorem foldl_cmpStep_eq_zero_iff (s : State) (positions : List Nat) (diff : Byte) :
    positions.foldl (cmpStep s) diff = 0 ↔
      diff = 0 ∧ ∀ i ∈ positions, i < s.codelen.toNat → bufByte s.submit i = bufByte s.code i := by
  induction positions generalizing diff with
  | nil => simp
  | cons i positions ih => rw [List.foldl_cons, ih, cmpStep_eq_zero_iff, List.forall_mem_cons, and_assoc]

/-- Twelve positions are all there are: both buffers read as 0 past them. -/
theorem cmpDiff_eq_zero_iff (s : State) :
    cmpDiff s = 0 ↔ ∀ i < s.codelen.toNat, bufByte s.submit i = bufByte s.code i := by
  rw [cmpDiff, foldl_cmpStep_eq_zero_iff]
  constructor
  · rintro ⟨-, agree⟩ i compared
    by_cases inside : i < 12
    · exact agree i (List.mem_range.mpr inside) compared
    · rw [bufByte_of_le _ (by omega), bufByte_of_le _ (by omega)]
  · exact fun agree => ⟨rfl, fun i _ => agree i⟩

/-- When `CMP` sets `MATCH` (43_comparator.md R180). -/
theorem codeMatches_iff (s : State) :
    codeMatches s = true ↔ 1 ≤ s.codelen.toNat ∧ s.codelen.toNat ≤ 9 ∧ s.sublen = s.codelen ∧
      ∀ i < s.codelen.toNat, bufByte s.submit i = bufByte s.code i := by
  rw [← cmpDiff_eq_zero_iff]
  simp only [codeMatches, Bool.and_eq_true, decide_eq_true_iff, beq_iff_eq, and_assoc]
  rfl

/-! ## The words with `OP` 0x20 (30_encoding.md R83, R84) -/

/-- A word with the `OP` of `CMP` is `CMP` or illegal. -/
theorem decode_of_opField_cmp {w : Word} (hop : opField w = 0x20) :
    decode w = .legal .cmp ∨ decode w = .illegal (illegalGround w) := by
  have fields : decode w = if reservedZero w ∧ algBits w = 0 ∧ digitsBits w = 0 then .legal .cmp
      else .illegal (illegalGround w) := by
    simp [decode_eq, hop]
  rw [fields]
  split
  · exact .inl rfl
  · exact .inr rfl

/-! ## The code the block wrote (42_truncation.md R164) -/

/-- The compared bytes of `CODE` are ASCII digits. -/
theorem BlockInv.code_ascii {s : State} (h : BlockInv s) {i : Nat} (hi : i < s.codelen.toNat) :
    0x30 ≤ (bufByte s.code i).toNat ∧ (bufByte s.code i).toNat ≤ 0x39 := by
  have length := h.code_length
  rw [h.code_of_trunc, bufByte_renderCode (by omega), if_pos hi, toNat_codeDigit]
  omega

/-! ## The statements -/

/-- Settles O37: `CMP` writes `MATCH` alone, by what the accumulator says; a word with its `OP` is `CMP` or illegal. -/
theorem cmpMatchesEqualCodes : Obligations.CmpMatchesEqualCodes := by
  refine ⟨by decide, fun s => ⟨_, exec_cmp s, Writes.cmp.completesAs, codeMatches_iff s⟩, fun s w hr hs hop => ?_⟩
  rw [engineTurn_busy hr hs]
  obtain legal | illegal := decode_of_opField_cmp hop
  · exact ⟨_, completeWord_legal legal s, .inl rfl⟩
  · exact ⟨_, completeWord_illegal illegal s, .inr rfl⟩

/-- Settles O38: a match would make the submitted byte equal to a digit of `CODE`. -/
theorem nonDigitsNeverMatch : Obligations.NonDigitsNeverMatch := by
  rintro s inv ⟨i, compared, noDigit⟩
  refine ⟨_, exec_cmp s, Bool.eq_false_iff.mpr fun matched => noDigit ?_⟩
  obtain ⟨-, -, -, agree⟩ := (codeMatches_iff s).mp matched
  rw [agree i compared]
  exact inv.code_ascii compared

end Sys2Proof.Machine
end

section
/-! PROOFS of the statements about 44_base32.md. What `B32ENC` reads is the first `KEYLEN` bytes of `KEY`, what `B32DEC`
reads the first `TEXTLEN` bytes of `TEXT`. First these two strings in bytes, the bits of a 5-bit group, and each outcome
of decoding; then what a successful `B32ENC` and a successful `B32DEC` leave, from which the string the next command
reads follows: the round trips are those of the strings (Laws/Base32). -/

namespace Sys2Proof.Machine

/-! ## The secret and the text in bytes (10_state.md R41, R42) -/

theorem length_secret {s : State} (h : s.keylen.toNat ≤ 128) : s.secret.length = s.keylen.toNat := by
  simp [State.secret, h]

theorem length_chars {s : State} (h : s.textlen.toNat ≤ 208) : s.chars.length = s.textlen.toNat := by
  simp [State.chars, h]

/-- The first `n` bytes of a buffer, and 0 above them. -/
theorem byteAt_take_toList {m : Nat} (buf : Vector Byte m) (n i : Nat) :
    byteAt (buf.toList.take n) i = if i < n then bufByte buf i else 0 := by
  split
  next below => exact byteAt_take below
  next above => exact byteAt_of_length_le (by simp; omega)

theorem byteAt_secret (s : State) (i : Nat) :
    byteAt s.secret i = if i < s.keylen.toNat then bufByte s.key i else 0 :=
  byteAt_take_toList s.key _ i

theorem byteAt_chars {s : State} {i : Nat} (h : i < s.textlen.toNat) : byteAt s.chars i = bufByte s.text i :=
  byteAt_take h

theorem byteAt_map {bs : List Byte} {i : Nat} (f : Byte → Byte) (h : i < bs.length) :
    byteAt (bs.map f) i = f (byteAt bs i) := by
  rw [byteAt_eq_getElem (by simpa using h), byteAt_eq_getElem h, List.getElem_map]

theorem mem_chars_iff {s : State} (h : s.textlen.toNat ≤ 208) {b : Byte} :
    b ∈ s.chars ↔ ∃ i < s.textlen.toNat, bufByte s.text i = b := by
  have length := length_chars h
  rw [List.mem_iff_getElem]
  constructor
  · rintro ⟨i, hi, rfl⟩
    exact ⟨i, length ▸ hi, by rw [← byteAt_chars (length ▸ hi), byteAt_eq_getElem hi]⟩
  · rintro ⟨i, hi, rfl⟩
    exact ⟨i, length.symm ▸ hi, by rw [← byteAt_chars hi, byteAt_eq_getElem (length.symm ▸ hi)]⟩

/-- A zero-filled buffer holds its bytes: what is read back is what was written. -/
theorem take_toList_zeroFill {n : Nat} {bs : List Byte} (h : bs.length ≤ n) :
    (zeroFill n bs).toList.take bs.length = bs := by
  refine bytes_ext (by simp [h]) fun i hi => ?_
  have hi : i < bs.length := by simp at hi; omega
  rw [byteAt_take_toList, if_pos hi, bufByte_zeroFill, if_pos (by omega)]

theorem toNat_byteAt_beBytes {n i : Nat} (h : i < n) (v : Nat) :
    (byteAt (beBytes n v) i).toNat = v / 2 ^ (8 * (n - 1 - i)) % 256 := by
  rw [byteAt_beBytes h, BitVec.toNat_ofNat, Nat.shiftRight_eq_div_pow]

/-- A length that fits a byte is what the register holds. -/
theorem toNat_ofNat_byte {n : Nat} (h : n ≤ 255) : (BitVec.ofNat 8 n).toNat = n := by
  rw [BitVec.toNat_ofNat]
  exact Nat.mod_eq_of_lt (by omega)

/-! ## A byte string as one bit string (44_base32.md R191) -/

theorem bitOf_of_length_le {bs : List Byte} {p : Nat} (h : 8 * bs.length ≤ p) : bitOf bs p = false := by
  rw [bitOf, byteAt_of_length_le (by omega)]
  exact BitVec.getLsbD_zero

/-- Bit `p` of the string is bit `8n - 1 - p` of its number. -/
theorem testBit_fromBE (bs : List Byte) {p : Nat} (h : p < 8 * bs.length) :
    (fromBE bs).testBit (8 * bs.length - 1 - p) = bitOf bs p := by
  have byte := byteAt_beBytes (n := bs.length) (i := p / 8) (by omega) (fromBE bs)
  rw [beBytes_fromBE] at byte
  rw [bitOf, byte, BitVec.getLsbD_ofNat, Nat.testBit_shiftRight, decide_eq_true (by omega), Bool.true_and]
  congr 1
  omega

theorem testBit_digit32 (acc k : Nat) {j : Nat} (h : j < 5) :
    (acc / 32 ^ k % 32).testBit j = acc.testBit (5 * k + j) := by
  rw [show (32 : Nat) = 2 ^ 5 by rfl, ← Nat.pow_mul, Nat.testBit_mod_two_pow, Nat.testBit_div_two_pow,
    decide_eq_true h, Bool.true_and, Nat.add_comm]

/-- The value of group `i` of the encoding (44_base32.md R192). -/
def encodedGroup (key : List Byte) (i : Nat) : Nat :=
  fromBE key * 2 ^ leftoverBits (encodedLength key.length) key.length / 32 ^ (encodedLength key.length - 1 - i) % 32

theorem encodedGroup_lt (key : List Byte) (i : Nat) : encodedGroup key i < 32 := Nat.mod_lt _ (by decide)

/-- The bits of group `i` are bits `5i` to `5i + 4` of the string, with zeros past its end. -/
theorem testBit_encodedGroup (key : List Byte) {i j : Nat} (hi : i < encodedLength key.length) (hj : j < 5) :
    (encodedGroup key i).testBit (4 - j) = bitOf key (5 * i + j) := by
  obtain ⟨covers, -⟩ := encodedLength_spec key.length
  rw [encodedGroup, testBit_digit32 _ _ (by omega), Nat.testBit_mul_two_pow, leftoverBits]
  by_cases inside : 5 * i + j < 8 * key.length
  · rw [← testBit_fromBE key inside, decide_eq_true (by omega), Bool.true_and]
    congr 1
    omega
  · rw [bitOf_of_length_le (by omega), decide_eq_false (by omega), Bool.false_and]

/-! ## Lengths (44_base32.md R193, R200) -/

theorem encodedLength_by_mod_five (n : Nat) :
    encodedLength n = 8 * (n / 5) + [0, 2, 4, 5, 7].getD (n % 5) 0 := by
  have small : n % 5 < 5 := Nat.mod_lt n (by decide)
  unfold encodedLength
  generalize hr : n % 5 = r at small
  interval_cases r <;> simp only [List.getD_cons_zero, List.getD_cons_succ] <;> omega

theorem le_of_legalTextLength {c : Nat} (h : legalTextLength c) : c ≤ 208 := by
  obtain ⟨-, fits, -⟩ := h
  exact fits

/-- The rejections of R200 are all lengths that are not legal. -/
theorem not_legalTextLength {c : Nat} (h : c = 0 ∨ 208 < c ∨ c % 8 ∈ [1, 3, 6] ∨ 128 < 5 * c / 8) :
    ¬ legalTextLength c := by
  simp only [List.mem_cons, List.not_mem_nil, or_false] at h
  rintro ⟨h1, h208, hm1, hm3, hm6, h128⟩
  omega

/-- The leftover bits, by the length modulo 8 (44_base32.md R202). -/
theorem leftoverBits_by_mod_eight {c : Nat} (h : legalTextLength c) :
    ((1 ≤ 5 * c - 8 * (5 * c / 8) ∧ 5 * c - 8 * (5 * c / 8) ≤ 4) ↔ c % 8 ∈ [2, 4, 5, 7]) ∧
      (5 * c - 8 * (5 * c / 8) = 0 ↔ c % 8 = 0) := by
  obtain ⟨-, -, hm1, hm3, hm6, -⟩ := h
  simp only [List.mem_cons, List.not_mem_nil, or_false]
  constructor <;> omega

/-! ## The outcomes of decoding (44_base32.md R201) -/

/-- `acc`, the number of the characters' values (44_base32.md R201). -/
def textNumber (chars : List Byte) : Nat := base32Number (chars.map fun b => (charValue b).getD 0)

theorem base32Decode_badChar {chars : List Byte} (h : ∃ b ∈ chars, charValue b = none) :
    base32Decode chars = .error .badChar := by
  obtain ⟨b, hb, hnone⟩ := h
  rw [base32Decode_eq, if_pos (List.any_eq_true.mpr ⟨b, hb, by simp [hnone]⟩)]

/-- With no invalid character the leftover bits decide. -/
theorem base32Decode_of_valid {chars : List Byte} (h : ∀ b ∈ chars, charValue b ≠ none) :
    base32Decode chars =
      if textNumber chars % 2 ^ leftoverBits chars.length (decodedLength chars.length) ≠ 0 then .error .noncanonical
      else .ok (beBytes (decodedLength chars.length)
        (textNumber chars / 2 ^ leftoverBits chars.length (decodedLength chars.length))) := by
  rw [base32Decode_eq, if_neg fun bad => ?_]
  · rfl
  · obtain ⟨b, hb, hnone⟩ := List.any_eq_true.mp bad
    exact h b hb (Option.isNone_iff_eq_none.mp hnone)

theorem base32Decode_error_ne_ok {chars : List Byte} {e : ErrCode} (h : base32Decode chars = .error e) : e ≠ .ok := by
  rw [base32Decode_eq] at h
  split_ifs at h
  · cases h
    decide
  · cases h
    decide

/-- Decoding does not see the case of letters (44_base32.md R196). -/
theorem base32Decode_map_upperCase (chars : List Byte) : base32Decode (chars.map upperCase) = base32Decode chars := by
  simp only [base32Decode_eq, List.any_map, List.map_map, List.length_map, Function.comp_def, charValue_upperCase]

/-- A text of the 32 characters is in uppercase already. -/
theorem map_upperCase_of_alphabet {chars : List Byte} (h : ∀ b ∈ chars, b ∈ base32Alphabet) :
    chars.map upperCase = chars :=
  (List.map_congr_left fun b hb => upperCase_of_mem (h b hb)).trans (List.map_id' chars)

/-- Texts of one length that differ only in the case of letters have one uppercase form. -/
theorem map_upperCase_chars_congr {s s' : State} (hlen : s.textlen = s'.textlen) (fits : s.textlen.toNat ≤ 208)
    (h : ∀ i < s.textlen.toNat, upperCase (bufByte s.text i) = upperCase (bufByte s'.text i)) :
    s.chars.map upperCase = s'.chars.map upperCase := by
  have length := length_chars fits
  have length' : s'.chars.length = s.textlen.toNat := hlen ▸ length_chars (hlen ▸ fits)
  refine bytes_ext (by simp [length, length']) fun i hi => ?_
  rw [List.length_map, length] at hi
  rw [byteAt_map _ (length.symm ▸ hi), byteAt_map _ (length'.symm ▸ hi), byteAt_chars hi, byteAt_chars (hlen ▸ hi),
    h i hi]

/-! ## What `B32ENC` leaves (44_base32.md R192) -/

theorem exec_b32enc_writes {s : State} (h1 : 1 ≤ s.keylen.toNat) (h128 : s.keylen.toNat ≤ 128) :
    ∃ w, Writes s .b32enc w ∧ exec .b32enc s = .next (complete w) :=
  ⟨_, .b32enc ⟨h1, h128⟩, exec_b32enc_ok (checkKey_ok h1 h128)⟩

section
variable {s w : State} (h : Writes s .b32enc w)
include h

theorem Writes.b32enc_keylen : 1 ≤ s.keylen.toNat ∧ s.keylen.toNat ≤ 128 := by
  cases h with
  | b32enc hk => exact hk

theorem Writes.b32enc_text : (complete w).text = zeroFill 208 (base32Encode s.secret) := by
  cases h with
  | b32enc => rfl

theorem Writes.b32enc_textlen : (complete w).textlen.toNat = encodedLength s.keylen.toNat := by
  obtain ⟨pos, le⟩ := h.b32enc_keylen
  have fits := le_of_legalTextLength (legalTextLength_encodedLength pos le)
  cases h with
  | b32enc => exact toNat_ofNat_byte (by omega)

theorem Writes.b32enc_legal : legalTextLength (complete w).textlen.toNat := by
  obtain ⟨pos, le⟩ := h.b32enc_keylen
  exact h.b32enc_textlen ▸ legalTextLength_encodedLength pos le

theorem Writes.b32enc_length : (base32Encode s.secret).length = (complete w).textlen.toNat := by
  obtain ⟨-, le⟩ := h.b32enc_keylen
  rw [length_base32Encode, length_secret le, h.b32enc_textlen]

/-- The text `B32DEC` then reads is the encoding. -/
theorem Writes.b32enc_chars : (complete w).chars = base32Encode s.secret := by
  rw [State.chars, h.b32enc_text, ← h.b32enc_length]
  exact take_toList_zeroFill (h.b32enc_length ▸ le_of_legalTextLength h.b32enc_legal)

theorem Writes.b32enc_bufByte {i : Nat} (hi : i < (complete w).textlen.toNat) :
    bufByte (complete w).text i = byteAt (base32Encode s.secret) i := by
  rw [← byteAt_chars hi, h.b32enc_chars]

theorem Writes.b32enc_bufByte_above {i : Nat} (hi : (complete w).textlen.toNat ≤ i) :
    bufByte (complete w).text i = 0 := by
  rw [h.b32enc_text, bufByte_zeroFill, byteAt_of_length_le (h.b32enc_length ▸ hi), ite_self]

theorem Writes.b32enc_bufByte_mem {i : Nat} (hi : i < (complete w).textlen.toNat) :
    bufByte (complete w).text i ∈ base32Alphabet := by
  have inside := h.b32enc_length ▸ hi
  rw [h.b32enc_bufByte hi, byteAt_eq_getElem inside]
  exact mem_base32Encode (List.getElem_mem inside)

/-- Character `i` is the one of the secret's group `i`. -/
theorem Writes.b32enc_bufByte_eq_alpha {i : Nat} (hi : i < (complete w).textlen.toNat) :
    bufByte (complete w).text i = alpha (encodedGroup s.secret i) := by
  have inside := h.b32enc_length ▸ hi
  rw [length_base32Encode] at inside
  rw [h.b32enc_bufByte hi, byteAt_base32Encode _ inside, encodedGroup]

end

/-! ## What `B32DEC` leaves (44_base32.md R201) -/

section
variable {s w : State} (h : Writes s .b32dec w)
include h

theorem Writes.b32dec_legal : legalTextLength s.textlen.toNat := by
  cases h with
  | b32dec bytes hl hc => exact hl

theorem Writes.b32dec_keylen : (complete w).keylen.toNat = decodedLength s.textlen.toNat := by
  obtain ⟨-, fits⟩ := decodedLength_pos h.b32dec_legal
  cases h with
  | b32dec => exact toNat_ofNat_byte (by omega)

theorem Writes.b32dec_keylen_bounds : 1 ≤ (complete w).keylen.toNat ∧ (complete w).keylen.toNat ≤ 128 :=
  h.b32dec_keylen ▸ decodedLength_pos h.b32dec_legal

theorem Writes.b32dec_length_chars : s.chars.length = s.textlen.toNat :=
  length_chars (le_of_legalTextLength h.b32dec_legal)

theorem Writes.b32dec_key : ∃ bytes, base32Decode s.chars = .ok bytes ∧ (complete w).key = zeroFill 128 bytes := by
  cases h with
  | b32dec bytes hl hc => exact ⟨bytes, hc, rfl⟩

theorem Writes.b32dec_length {bytes : List Byte} (hc : base32Decode s.chars = .ok bytes) :
    bytes.length = (complete w).keylen.toNat := by
  rw [length_of_base32Decode hc, h.b32dec_length_chars, h.b32dec_keylen]

/-- The secret `B32ENC` then reads is the decoded string. -/
theorem Writes.b32dec_secret {bytes : List Byte} (hc : base32Decode s.chars = .ok bytes) :
    (complete w).secret = bytes := by
  obtain ⟨bytes', hc', key⟩ := h.b32dec_key
  cases hc'.symm.trans hc
  obtain ⟨-, fits⟩ := h.b32dec_keylen_bounds
  rw [State.secret, key, ← h.b32dec_length hc]
  exact take_toList_zeroFill (h.b32dec_length hc ▸ fits)

/-- The whole key is the decoded string, and 0 above it. -/
theorem Writes.b32dec_bufByte {bytes : List Byte} (hc : base32Decode s.chars = .ok bytes) (i : Nat) :
    bufByte (complete w).key i = byteAt bytes i := by
  obtain ⟨bytes', hc', key⟩ := h.b32dec_key
  cases hc'.symm.trans hc
  obtain ⟨-, fits⟩ := h.b32dec_keylen_bounds
  rw [← h.b32dec_length hc] at fits
  rw [key, bufByte_zeroFill]
  split
  next => rfl
  next above => exact (byteAt_of_length_le (by omega)).symm

/-- Encoding the decoded secret gives back the text, in uppercase (44_base32.md R204). -/
theorem Writes.b32dec_encodes : base32Encode (complete w).secret = s.chars.map upperCase := by
  obtain ⟨bytes, hc, -⟩ := h.b32dec_key
  rw [h.b32dec_secret hc]
  exact base32Encode_of_decode (h.b32dec_length_chars.symm ▸ h.b32dec_legal) hc

end

/-! ## The statements -/

/-- Settles O39: each failing check by its equation; else character `i` is the alphabet's character of group `i`. -/
theorem b32encChecksThenWritesTheText : Obligations.B32encChecksThenWritesTheText := by
  refine ⟨by decide, fun s => ⟨fun h0 => exec_b32enc_key (checkKey_empty h0),
    fun hlong => exec_b32enc_key (checkKey_long hlong), fun h1 h128 => ?_⟩⟩
  obtain ⟨w, h, hexec⟩ := exec_b32enc_writes h1 h128
  obtain ⟨covers, least⟩ := encodedLength_spec s.keylen.toNat
  rw [← h.b32enc_textlen] at covers least
  refine ⟨_, complete w, covers, least, hexec, h.completesAs, h.matched (by decide) (by decide), rfl,
    fun i hi => ?_, fun i => h.b32enc_bufByte_above⟩
  rw [h.b32enc_bufByte_eq_alpha hi, alpha_eq_byteAt (encodedGroup_lt _ i), encodedGroup, length_secret h128,
    h.b32enc_textlen, Nat.pow_mul]
  rfl

/-- Settles O40: the value of character `i` is group `i` of the secret's number, whose bits are those of the string. -/
theorem charactersAreFiveBitGroups : Obligations.CharactersAreFiveBitGroups := by
  intro s t hexec hok
  obtain ⟨w, h, rfl⟩ := exec_ok hexec hok
  obtain ⟨-, le⟩ := h.b32enc_keylen
  refine ⟨h.b32enc_textlen ▸ encodedLength_spec s.keylen.toNat, fun i hi => ?_⟩
  refine ⟨encodedGroup s.secret i, h.b32enc_bufByte_eq_alpha hi ▸ charValue_alpha (encodedGroup_lt _ i),
    encodedGroup_lt _ i, fun j hj => testBit_encodedGroup s.secret ?_ hj⟩
  rwa [length_secret le, ← h.b32enc_textlen]

/-- Settles O41: the encoded length is legal, and every character of an encoding is of the alphabet. -/
theorem encodedLengthsAndAlphabet : Obligations.EncodedLengthsAndAlphabet := by
  intro s t hexec hok
  obtain ⟨w, h, rfl⟩ := exec_ok hexec hok
  obtain ⟨-, longest⟩ := h.b32enc_keylen
  obtain ⟨-, -, hm1, hm3, hm6, -⟩ := h.b32enc_legal
  obtain ⟨-, least⟩ := encodedLength_spec s.keylen.toNat
  exact ⟨h.b32enc_textlen.trans (encodedLength_by_mod_five _), by simpa using ⟨hm1, hm3, hm6⟩,
    by rw [h.b32enc_textlen]; omega, fun i => h.b32enc_bufByte_mem⟩

/-- Settles O42: texts that differ only in case have one uppercase form, and decoding sees that form alone. -/
theorem decodingIgnoresCase : Obligations.DecodingIgnoresCase := by
  refine ⟨fun b => rfl, fun b v hv => ?_, fun s s' hlen hcase => ?_⟩
  · rw [← alpha_eq_byteAt (charValue_lt hv), alpha_charValue hv]
  by_cases hl : legalTextLength s.textlen.toNat
  · have fits := le_of_legalTextLength hl
    have legal := checkTextLength_ok hl
    have legal' := checkTextLength_ok (s := s') (hlen ▸ hl)
    have same : base32Decode s'.chars = base32Decode s.chars := by
      rw [← base32Decode_map_upperCase, ← map_upperCase_chars_congr hlen fits hcase, base32Decode_map_upperCase]
    cases hc : base32Decode s.chars with
    | error e =>
      exact errors_agree (base32Decode_error_ne_ok hc) (exec_b32dec_chars legal hc)
        (exec_b32dec_chars legal' (same.trans hc))
    | ok bytes =>
      exact results_agree (exec_b32dec_ok legal hc) (exec_b32dec_ok legal' (same.trans hc)) ⟨rfl, by simp [hlen]⟩
  · have bad := checkTextLength_bad hl
    exact errors_agree (by decide) (exec_b32dec_length bad) (exec_b32dec_length (checkTextLength_bad (hlen ▸ hl)))

/-- Settles O43: each failing check by its equation; else the key is the big-endian form of the number written. -/
theorem b32decChecksThenWritesTheKey : Obligations.B32decChecksThenWritesTheKey := by
  refine ⟨by decide, fun s => ⟨fun hbad => exec_b32dec_length (checkTextLength_bad (not_legalTextLength hbad)),
    fun hl hinvalid => ?_, fun hl hvalid => ?_⟩⟩
  · have fits := le_of_legalTextLength hl
    obtain ⟨i, hi, hnone⟩ := hinvalid
    exact exec_b32dec_chars (checkTextLength_ok hl)
      (base32Decode_badChar ⟨_, (mem_chars_iff fits).mpr ⟨i, hi, rfl⟩, hnone⟩)
  · have fits := le_of_legalTextLength hl
    have valid : ∀ b ∈ s.chars, charValue b ≠ none := by
      intro b hb
      obtain ⟨i, hi, rfl⟩ := (mem_chars_iff fits).mp hb
      exact hvalid i hi
    have decodes := base32Decode_of_valid valid
    rw [length_chars fits] at decodes
    refine ⟨fun leftover => exec_b32dec_chars (checkTextLength_ok hl) (decodes.trans (if_pos leftover)),
      fun clean => ?_⟩
    have hc := decodes.trans (if_neg (not_not.mpr clean))
    have h := Writes.b32dec _ hl hc
    refine ⟨_, exec_b32dec_ok (checkTextLength_ok hl) hc, h.completesAs, rfl, h.b32dec_keylen,
      fun i hi => ?_, fun i hi => ?_⟩
    · rw [h.b32dec_bufByte hc]
      exact toNat_byteAt_beBytes hi _
    · rw [h.b32dec_bufByte hc]
      exact byteAt_of_length_le ((length_beBytes _ _).trans_le hi)

/-- Settles O44: encoding and decoding undo each other, on texts in uppercase. -/
theorem acceptedTextsAreTheEncodedOnes : Obligations.AcceptedTextsAreTheEncodedOnes := by
  refine ⟨fun s upper => ⟨?_, ?_⟩, fun c => leftoverBits_by_mod_eight, by decide, by decide⟩
  · rintro ⟨t, hexec, hok⟩
    obtain ⟨w, h, rfl⟩ := exec_ok hexec hok
    obtain ⟨pos, le⟩ := h.b32dec_keylen_bounds
    rw [← length_secret le] at pos le
    exact ⟨(complete w).secret, pos, le, h.b32dec_encodes.trans (map_upperCase_of_alphabet upper),
      h.b32dec_length_chars.symm⟩
  · rintro ⟨key, pos, le, encodes, length⟩
    rw [← encodes, length_base32Encode] at length
    exact ⟨_, exec_b32dec_ok (checkTextLength_ok (length ▸ legalTextLength_encodedLength pos le))
      (encodes ▸ base32Decode_base32Encode key), rfl⟩

/-- Settles O45: `B32DEC` reads the encoding of the secret, and decodes it to the secret. -/
theorem encodeThenDecodeKeepsTheKey : Obligations.EncodeThenDecodeKeepsTheKey := by
  intro s h1 h128
  obtain ⟨w, h, hexec⟩ := exec_b32enc_writes h1 h128
  have hc : base32Decode (complete w).chars = .ok s.secret := h.b32enc_chars ▸ base32Decode_base32Encode s.secret
  have h' := Writes.b32dec _ h.b32enc_legal hc
  refine ⟨_, _, hexec, rfl, exec_b32dec_ok (checkTextLength_ok h.b32enc_legal) hc, rfl, BitVec.eq_of_toNat_eq ?_,
    fun i => ?_⟩
  · rw [h'.b32dec_keylen, h.b32enc_textlen, decodedLength_encodedLength]
  · rw [h'.b32dec_bufByte hc, byteAt_secret]

/-- Settles O46: `B32ENC` reads the decoded string, whose encoding is the text in uppercase. -/
theorem decodeThenEncodeGivesUppercase : Obligations.DecodeThenEncodeGivesUppercase := by
  refine ⟨fun s t hexec hok => ?_, fun s s' t t' hexec hexec' hok hok' upper upper' hlen hkey => ?_⟩
  · obtain ⟨w, h, rfl⟩ := exec_ok hexec hok
    obtain ⟨pos, le⟩ := h.b32dec_keylen_bounds
    obtain ⟨u, h', hexec'⟩ := exec_b32enc_writes pos le
    have textlen : (complete u).textlen = s.textlen := BitVec.eq_of_toNat_eq <| by
      rw [h'.b32enc_textlen, h.b32dec_keylen, encodedLength_decodedLength h.b32dec_legal]
    refine ⟨_, hexec', rfl, textlen, fun i hi => ?_⟩
    rw [h'.b32enc_bufByte (textlen ▸ hi), h.b32dec_encodes, byteAt_map _ (h.b32dec_length_chars.symm ▸ hi),
      byteAt_chars hi]
  · obtain ⟨w, h, rfl⟩ := exec_ok hexec hok
    obtain ⟨w', h', rfl⟩ := exec_ok hexec' hok'
    have sameSecret : (complete w).secret = (complete w').secret := by rw [State.secret, State.secret, hlen, hkey]
    have sameChars : s.chars = s'.chars := by
      rw [← map_upperCase_of_alphabet upper, ← map_upperCase_of_alphabet upper', ← h.b32dec_encodes,
        ← h'.b32dec_encodes, sameSecret]
    exact ⟨BitVec.eq_of_toNat_eq (by rw [← h.b32dec_length_chars, ← h'.b32dec_length_chars, sameChars]), sameChars⟩

end Sys2Proof.Machine
end

section
/-! PROOFS of the statements about 45_clear.md. `CLEAR` answers `complete (clearRegisters s)`: every operand and result
register reads 0 there, so what each later command does is the outcome of its check on a length of 0; and the block is
the reset block but for `DONE` and what `CLEAR` keeps. -/

namespace Sys2Proof.Machine

/-! ## What `CLEAR` leaves in the registers (45_clear.md R220) -/

@[simp] theorem bufWord_replicate (n k : Nat) : bufWord (Vector.replicate n (0 : Byte)) k = 0 := by
  simp only [bufWord, bufByte_replicate]
  rfl

/-- Every register but `ID`, `INTEN` and `STATUS` is an operand or a result, or reads 0 whatever the state. -/
theorem readReg_clearRegisters_eq_zero (s : State) {r : Reg} (hid : r ≠ .id) (hinten : r ≠ .inten)
    (hstatus : r ≠ .status) : readReg (clearRegisters s) r = 0 := by
  cases r with
  | id => exact absurd rfl hid
  | inten => exact absurd rfl hinten
  | status => exact absurd rfl hstatus
  | msg k | code k | submit k | digest k | key k | text k => exact bufWord_replicate _ k
  | cmd | keylen | textlen | sublen | codelen | diglen | trunc | ctrHi | ctrLo | reserved => rfl

/-- With no code stored nothing matches (43_comparator.md R180). -/
theorem codeMatches_of_codelen_zero {s : State} (h : s.codelen = 0) : codeMatches s = false := by
  refine Bool.eq_false_iff.mpr fun matched => ?_
  obtain ⟨pos, -⟩ := (codeMatches_iff s).mp matched
  simp [h] at pos

theorem exec_cmp_of_codelen_zero {s : State} (h : s.codelen = 0) : ∃ u, exec .cmp s = .next u ∧ u.matched = false :=
  ⟨_, exec_cmp s, codeMatches_of_codelen_zero h⟩

/-! ## A successful completion raises `IRQ` when `DONEIE` is set (10_state.md R47) -/

theorem irq_complete (w : State) : (complete w).irq = w.doneie := by
  simp [State.irq, err_eq_errcode_ne_ok]

/-! ## `CLEAR` and reset (45_clear.md R221) -/

/-- All `CLEAR` writes gets its reset value, but for `DONE`; it writes all of the block but `INTEN`, `OVERRUN` and the
reset input. -/
theorem block_complete_clearRegisters (s : State) : (complete (clearRegisters s)).block =
    { State.reset.block with
      done := true, doneie := s.doneie, errie := s.errie, overrun := s.overrun, inReset := s.inReset } := rfl

/-! ## The statements -/

/-- Settles O47: the completion of `CLEAR`'s writes, and each later command by its check on a length that is 0. -/
theorem clearZeroesTheRegisters : Obligations.ClearZeroesTheRegisters := by
  refine ⟨by decide, fun s => ⟨_, exec_clear s, Writes.clear.completesAs, rfl, fun off hid hinten hstatus => ?_,
    fun a d ha h1 h9 => ?_, ?_, ?_, exec_cmp_of_codelen_zero rfl⟩⟩
  · rw [readReg_complete _ hstatus, readReg_clearRegisters_eq_zero s hid hinten hstatus]
  · obtain ⟨h, ha⟩ := (hashOf_cases a).resolve_left fun reserved => ha reserved.1
    have digits := checkDigits_ok h1 h9
    exact ⟨exec_hmac_key ha (checkKey_empty rfl), exec_hotp_key ha digits (checkKey_empty rfl),
      exec_trunc_none digits (checkDigest_none (by simp))⟩
  · exact exec_b32enc_key (checkKey_empty rfl)
  · exact exec_b32dec_length (checkTextLength_bad (not_legalTextLength (.inl rfl)))

/-- Settles O48: the block `CLEAR` leaves, and a write of its word as an accepted or a refused write of `CMD`. -/
theorem clearDiffersFromResetExactly : Obligations.ClearDiffersFromResetExactly := by
  refine ⟨fun s => ⟨_, exec_clear s, irq_complete _, block_complete_clearRegisters s⟩, fun s idle => ?_,
    fun s busy => memWrite_refused _ busy (by decide) (by decide)⟩
  rw [memWrite_cmd_idle _ idle]
  exact busy_of_seq (accept_seq _ s)

end Sys2Proof.Machine
end

section
/-! PROOFS of the statements about 60_exceptions.md. A completion reports `firstError` and makes a command's writes when
that is `OK`; neither the checks nor the writes see `OVERRUN`, so a refused write commutes with the completion. An
accepted command stays accepted over host accesses, and the engine's turn completes it. -/

namespace Sys2Proof.Machine

/-! ## The first failing check (60_exceptions.md R238) -/

/-- The key checks as `firstError` counts them: the empty key, then the key that is too long. -/
def keyError (s : State) : ErrCode :=
  if s.keylen.toNat = 0 then .emptyKey else if 128 < s.keylen.toNat then .keyTooLong else .ok

theorem keyError_empty {s : State} (h : s.keylen.toNat = 0) : keyError s = .emptyKey := if_pos h

theorem keyError_long {s : State} (h : 128 < s.keylen.toNat) : keyError s = .keyTooLong :=
  (if_neg (by omega)).trans (if_pos h)

theorem keyError_ok {s : State} (h1 : 1 ≤ s.keylen.toNat) (h128 : s.keylen.toNat ≤ 128) : keyError s = .ok :=
  (if_neg (by omega)).trans (if_neg (by omega))

theorem checkKey_of_keyError (s : State) :
    (checkKey s = .ok () ∧ keyError s = .ok) ∨ checkKey s = .error (keyError s) := by
  obtain ⟨h0, hk⟩ | ⟨hlong, hk⟩ | ⟨h1, h128, hk⟩ := checkKey_cases s
  · exact .inr (by rw [hk, keyError_empty h0])
  · exact .inr (by rw [hk, keyError_long hlong])
  · exact .inl ⟨hk, keyError_ok h1 h128⟩

theorem firstError_hmac {a : AlgField} {h : HashAlg} (ha : hashOf a = some h) (s : State) :
    firstError (.hmac a) s = keyError s :=
  if_neg (by rintro rfl; cases ha)

theorem firstError_hotp {a : AlgField} {h : HashAlg} (ha : hashOf a = some h) (d : Nat) (s : State) :
    firstError (.hotp a d) s = if d < 1 ∨ 9 < d then .badDigits else keyError s :=
  if_neg (by rintro rfl; cases ha)

theorem firstError_trunc (d : Nat) (s : State) :
    firstError (.trunc d) s =
      if d < 1 ∨ 9 < d then .badDigits else if s.diglen.toNat ∈ [20, 32, 64] then .ok else .noDigest := by
  simp only [List.mem_cons, List.not_mem_nil, or_false]
  rfl

/-- After the length checks the error is that of decoding, in the terms of `base32Decode_eq`. -/
theorem firstError_b32dec {s : State} (hl : legalTextLength s.textlen.toNat) :
    firstError .b32dec s =
      if s.chars.any (fun b => (charValue b).isNone) then .badChar
      else if base32Number (s.chars.map fun b => (charValue b).getD 0) %
          2 ^ leftoverBits s.chars.length (decodedLength s.chars.length) ≠ 0 then .noncanonical
      else .ok := by
  rw [length_chars (le_of_legalTextLength hl)]
  exact if_neg (not_not.mpr hl)

/-- On a legal length the text decodes, or fails with the error `firstError` names. -/
theorem base32Decode_of_firstError {s : State} (hl : legalTextLength s.textlen.toNat) :
    (∃ bytes, base32Decode s.chars = .ok bytes ∧ firstError .b32dec s = .ok) ∨
      base32Decode s.chars = .error (firstError .b32dec s) := by
  rw [base32Decode_eq, firstError_b32dec hl]
  split_ifs with invalid leftover
  · exact .inr rfl
  · exact .inr rfl
  · exact .inl ⟨_, rfl, rfl⟩

/-- Every completion of a command reports the first failing check, `OK` if none fails. -/
theorem exec_reports_firstError (i : Instr) (s : State) : ∃ t, exec i s = .next t ∧ t.errcode = firstError i s := by
  cases i with
  | ctr2b => exact ⟨_, exec_ctr2b s, rfl⟩
  | b2ctr => exact ⟨_, exec_b2ctr s, rfl⟩
  | cmp => exact ⟨_, exec_cmp s, rfl⟩
  | clear => exact ⟨_, exec_clear s, rfl⟩
  | hmac a =>
    obtain ⟨rfl, -⟩ | ⟨h, ha⟩ := hashOf_cases a
    · exact ⟨_, exec_hmac_reserved s, rfl⟩
    · rw [firstError_hmac ha]
      obtain ⟨hk, noError⟩ | hk := checkKey_of_keyError s
      · exact ⟨_, exec_hmac_ok ha hk, noError.symm⟩
      · exact ⟨_, exec_hmac_key ha hk, rfl⟩
  | trunc d =>
    rw [firstError_trunc]
    split_ifs with hd hs
    · exact ⟨_, exec_trunc_digits (checkDigits_bad hd), rfl⟩
    · exact ⟨_, exec_trunc_ok (checkDigits_ok (by omega) (by omega)) (checkDigest_ok hs), rfl⟩
    · exact ⟨_, exec_trunc_none (checkDigits_ok (by omega) (by omega)) (checkDigest_none hs), rfl⟩
  | hotp a d =>
    obtain ⟨rfl, -⟩ | ⟨h, ha⟩ := hashOf_cases a
    · exact ⟨_, exec_hotp_reserved d s, rfl⟩
    · rw [firstError_hotp ha]
      split_ifs with hd
      · exact ⟨_, exec_hotp_digits ha (checkDigits_bad hd), rfl⟩
      · have legal := checkDigits_ok (d := d) (by omega) (by omega)
        obtain ⟨hk, noError⟩ | hk := checkKey_of_keyError s
        · exact ⟨_, exec_hotp_ok ha legal hk, noError.symm⟩
        · exact ⟨_, exec_hotp_key ha legal hk, rfl⟩
  | b32enc =>
    change ∃ t, exec .b32enc s = .next t ∧ t.errcode = keyError s
    obtain ⟨hk, noError⟩ | hk := checkKey_of_keyError s
    · exact ⟨_, exec_b32enc_ok hk, noError.symm⟩
    · exact ⟨_, exec_b32enc_key hk, rfl⟩
  | b32dec =>
    by_cases hl : legalTextLength s.textlen.toNat
    · obtain ⟨bytes, hc, noError⟩ | hc := base32Decode_of_firstError hl
      · exact ⟨_, exec_b32dec_ok (checkTextLength_ok hl) hc, noError.symm⟩
      · exact ⟨_, exec_b32dec_chars (checkTextLength_ok hl) hc, rfl⟩
    · exact ⟨_, exec_b32dec_length (checkTextLength_bad hl), (if_pos hl).symm⟩

theorem exec_errcode {i : Instr} {s t : State} (h : exec i s = .next t) : t.errcode = firstError i s := by
  obtain ⟨u, hu, reported⟩ := exec_reports_firstError i s
  cases hu.symm.trans h
  exact reported

/-- A command with a failing check raises the first one's error and does nothing else (60_exceptions.md R234). -/
theorem exec_of_firstError_ne_ok {i : Instr} {s : State} (h : firstError i s ≠ .ok) :
    exec i s = .next (raiseError (firstError i s) s) := by
  obtain ⟨t, ht, reported⟩ := exec_reports_firstError i s
  have failed := exec_failed ht (reported ▸ h)
  rw [reported] at failed
  rw [ht, failed]

/-! ## A refused write (60_exceptions.md R239) -/

/-- The writes of a command are what it does: its checks have passed. -/
theorem Writes.exec_eq {i : Instr} {s w : State} (h : Writes s i w) : exec i s = .next (complete w) := by
  cases h with
  | ctr2b => exact exec_ctr2b s
  | b2ctr => exact exec_b2ctr s
  | hmac a alg ha hk => exact exec_hmac_ok ha (checkKey_ok hk.1 hk.2)
  | trunc d hd hs => exact exec_trunc_ok (checkDigits_ok hd.1 hd.2) (checkDigest_ok hs)
  | hotp a d alg ha hd hk => exact exec_hotp_ok ha (checkDigits_ok hd.1 hd.2) (checkKey_ok hk.1 hk.2)
  | cmp => exact exec_cmp s
  | b32enc hk => exact exec_b32enc_ok (checkKey_ok hk.1 hk.2)
  | b32dec bytes hl hc => exact exec_b32dec_ok (checkTextLength_ok hl) hc
  | clear => exact exec_clear s

/-- No operand check sees `OVERRUN`. -/
theorem firstError_setOverrun (i : Instr) (s : State) : firstError i (setOverrun s) = firstError i s := rfl

/-- No write of a command sees or sets `OVERRUN`. -/
theorem Writes.setOverrun {i : Instr} {s w : State} (h : Writes s i w) :
    Writes (setOverrun s) i (Machine.setOverrun w) := by
  cases h with
  | ctr2b => exact .ctr2b
  | b2ctr => exact .b2ctr
  | hmac a alg ha hk => exact .hmac a alg ha hk
  | trunc d hd hs => exact .trunc d hd hs
  | hotp a d alg ha hd hk => exact .hotp a d alg ha hd hk
  | cmp => exact .cmp
  | b32enc hk => exact .b32enc hk
  | b32dec bytes hl hc => exact .b32dec bytes hl hc
  | clear => exact .clear

theorem exec_setOverrun {i : Instr} {s t : State} (h : exec i s = .next t) :
    exec i (setOverrun s) = .next (setOverrun t) := by
  by_cases noError : firstError i s = .ok
  · obtain ⟨w, hw, rfl⟩ := exec_ok h ((exec_errcode h).trans noError)
    exact hw.setOverrun.exec_eq
  · rw [exec_of_firstError_ne_ok noError] at h
    cases h
    rw [exec_of_firstError_ne_ok (by rwa [firstError_setOverrun]), firstError_setOverrun]
    rfl

theorem completeWord_setOverrun {w : Word} {s t : State} (h : completeWord w s = .next t) :
    completeWord w (setOverrun s) = .next (setOverrun t) := by
  cases hd : decode w with
  | legal i =>
    rw [completeWord_legal hd] at h ⊢
    exact exec_setOverrun h
  | illegal why =>
    rw [completeWord_illegal hd] at h ⊢
    cases h
    rfl

/-! ## A command held over host accesses (60_exceptions.md R237, R239) -/

/-- While busy no write of the window reaches `SEQ` (10_state.md R29). -/
theorem memWrite_seq_of_busy {s : State} {w : Word} (busy : s.seq = .busy w) (off : Nat) (v : Word) :
    (memWrite off v s).seq = .busy w := by
  obtain ⟨-, -, -, h⟩ | ⟨idle, -⟩ | ⟨-, h⟩ | ⟨-, h⟩ | ⟨idle, -⟩ := memWrite_cases off v s
  · rw [h, setOverrun_seq, busy]
  · cases busy.symm.trans idle
  · rw [h, writeStatus_seq, busy]
  · rw [h, writeInten_seq, busy]
  · cases busy.symm.trans idle

/-- No write of the window reaches the reset input or the turns still to come. -/
theorem memWrite_host_frame (off : Nat) (v : Word) (s : State) :
    (memWrite off v s).inReset = s.inReset ∧ (memWrite off v s).schedule = s.schedule := by
  obtain ⟨-, -, -, h⟩ | ⟨-, -, h⟩ | ⟨-, h⟩ | ⟨-, h⟩ | ⟨-, -, -, -, h⟩ := memWrite_cases off v s
  · simp [h]
  · simp [h]
  · simp [h]
  · simp [h]
  · obtain ⟨-, -, -, -, -, -, -, -, -, -, -, -, inReset, schedule, -⟩ := writeReg_frame (regAt off) v s
    rw [h]
    exact ⟨inReset, schedule⟩

theorem hostAccess_seq_of_busy {a : HostAccess} {s t : State} {w : Word} (busy : s.seq = .busy w)
    (h : hostAccess a s = .next t) : t.seq = .busy w := by
  obtain ⟨off, -, ⟨-, rfl⟩ | ⟨-, rfl⟩ | ⟨-, -, rfl⟩ | ⟨-, -, v, rfl⟩⟩ := hostAccess_cases h
  · exact busy
  · have same := congrArg State.seq (block_memRead off s)
    exact same.trans busy
  · exact busy
  · exact memWrite_seq_of_busy busy off v

theorem hostAccess_host_frame {a : HostAccess} {s t : State} (h : hostAccess a s = .next t) :
    t.inReset = s.inReset ∧ t.schedule = s.schedule := by
  obtain ⟨off, -, ⟨-, rfl⟩ | ⟨-, rfl⟩ | ⟨-, -, rfl⟩ | ⟨-, -, v, rfl⟩⟩ := hostAccess_cases h
  · exact ⟨rfl, rfl⟩
  · have same := congrArg State.inReset (block_memRead off s)
    exact ⟨same, memRead_schedule off s⟩
  · exact ⟨rfl, rfl⟩
  · exact memWrite_host_frame off v s

/-- Every access of the window is answered (20_memory.md R61). -/
theorem hostAccess_next {a : HostAccess} (h : (Turn.access a).inWindow = true) (s : State) :
    ∃ t, hostAccess a s = .next t := by
  obtain ⟨off, hoff⟩ := Option.isSome_iff_exists.mp h
  unfold hostAccess
  rw [hoff]
  dsimp only
  split
  · split <;> exact ⟨_, rfl⟩
  · exact ⟨_, rfl⟩

/-! ## The completion (60_exceptions.md R234 to R237) -/

/-- A completion makes the engine idle with `DONE` set, and leaves the turns still to come. -/
theorem exec_completes {i : Instr} {s t : State} (h : exec i s = .next t) :
    t.seq = .idle ∧ t.done = true ∧ t.schedule = s.schedule := by
  obtain ⟨e, rfl⟩ | ⟨w, hw, rfl⟩ := exec_next_cases h
  · exact ⟨rfl, rfl, rfl⟩
  · obtain ⟨-, schedule, -⟩ := hw.host_frame
    exact ⟨rfl, rfl, schedule⟩

theorem completeWord_completes (w : Word) (s : State) :
    ∃ t, completeWord w s = .next t ∧ t.seq = .idle ∧ t.done = true ∧ t.schedule = s.schedule := by
  cases hd : decode w with
  | legal i =>
    obtain ⟨t, ht⟩ := exec_next i s
    exact ⟨t, (completeWord_legal hd s).trans ht, exec_completes ht⟩
  | illegal why => exact ⟨_, completeWord_illegal hd s, rfl, rfl, rfl⟩

/-- The engine's turn leaves a command as it is (under reset) or completes it. -/
theorem engineTurn_of_busy {s t : State} {w : Word} (busy : s.seq = .busy w) (h : engineTurn s = .next t) :
    t.seq = .busy w ∨ (t.seq = .idle ∧ t.done = true) := by
  cases hr : s.inReset with
  | true =>
    cases (engineTurn_inReset hr).symm.trans h
    exact .inl busy
  | false =>
    obtain ⟨u, hu, idle, done, -⟩ := completeWord_completes w s
    cases ((engineTurn_busy hr busy).trans hu).symm.trans h
    exact .inr ⟨idle, done⟩

/-- What any step does to an accepted command: nothing, or completing it, unless it asserts reset. -/
theorem step_of_busy {s t : State} {w : Word} (busy : s.seq = .busy w) (h : step s = .next t) :
    t.seq = .busy w ∨ (t.seq = .idle ∧ t.done = true) ∨ ∃ rest, s.schedule = .resetLine true :: rest := by
  cases hs : s.schedule with
  | nil => exact (engineTurn_of_busy busy (step_nil hs ▸ h)).imp_right .inl
  | cons turn rest =>
    cases turn with
    | engine =>
      rw [step_engine hs] at h
      exact (engineTurn_of_busy (s := { s with schedule := rest }) busy h).imp_right .inl
    | access a =>
      rw [step_access hs] at h
      exact .inl (hostAccess_seq_of_busy (s := { s with schedule := rest }) busy h)
    | resetLine asserted =>
      rw [step_resetLine hs] at h
      cases h
      cases asserted with
      | true => exact .inr (.inr ⟨rest, rfl⟩)
      | false => exact .inl busy

/-! ## Runs -/

/-- A run whose first step answers `u` goes on from `u`. -/
theorem run_succ {M : Host.Core} {s u : M.State} (h : M.step s = .next u) (k : Nat) : M.run (k + 1) s = M.run k u := by
  rw [Host.Core.run, h]

/-- A run of `m + n` steps is one of `n` steps from where the first `m` end. -/
theorem run_add {M : Host.Core} {m : Nat} {s u : M.State} (h : M.run m s = .next u) (n : Nat) :
    M.run (m + n) s = M.run n u := by
  induction m generalizing s with
  | zero =>
    cases h
    rw [Nat.zero_add]
  | succ m ih =>
    cases hstep : M.step s with
    | next s' =>
      rw [run_succ hstep] at h
      rw [Nat.succ_add, run_succ hstep, ih h]
    | fault r => simp [Host.Core.run, hstep] at h
    | refused r => simp [Host.Core.run, hstep] at h

/-- Idle and with no turn left, the machine stays as it is (60_exceptions.md R247). -/
theorem run_idle {s : State} (idle : s.seq = .idle) (hs : s.schedule = []) (k : Nat) : core.run k s = .next s := by
  induction k with
  | zero => rfl
  | succ k ih => exact (run_succ (M := core) ((step_nil hs).trans (engineTurn_idle idle)) k).trans ih

/-- A command is held, out of reset, and only host accesses of the window are still to come. -/
def HeldOverAccesses (w : Word) (s : State) : Prop :=
  s.inReset = false ∧ s.seq = .busy w ∧ ∀ turn ∈ s.schedule, ∃ a, turn = .access a ∧ turn.inWindow = true

theorem HeldOverAccesses.step {w : Word} {s : State} (h : HeldOverAccesses w s) {turn : Turn} {rest : List Turn}
    (hs : s.schedule = turn :: rest) :
    ∃ u, Machine.step s = .next u ∧ HeldOverAccesses w u ∧ u.schedule = rest := by
  obtain ⟨released, held, accesses⟩ := h
  rw [hs] at accesses
  obtain ⟨a, rfl, inWindow⟩ := accesses turn List.mem_cons_self
  obtain ⟨u, hu⟩ := hostAccess_next inWindow { s with schedule := rest }
  obtain ⟨inReset, schedule⟩ := hostAccess_host_frame hu
  refine ⟨u, (step_access hs).trans hu, ⟨inReset.trans released, ?_, ?_⟩, schedule⟩
  · exact hostAccess_seq_of_busy (s := { s with schedule := rest }) held hu
  · rw [schedule]
    exact fun t ht => accesses t (List.mem_cons_of_mem _ ht)

/-- The command stays held over the accesses. -/
theorem HeldOverAccesses.run {w : Word} {k : Nat} {s : State} (h : HeldOverAccesses w s)
    (hk : k ≤ s.schedule.length) :
    ∃ u, core.run k s = .next u ∧ HeldOverAccesses w u ∧ u.schedule = s.schedule.drop k := by
  induction k generalizing s with
  | zero => exact ⟨s, rfl, h, rfl⟩
  | succ k ih =>
    cases hs : s.schedule with
    | nil => simp [hs] at hk
    | cons turn rest =>
      obtain ⟨u, hstep, hu, schedule⟩ := h.step hs
      obtain ⟨v, hrun, hv, dropped⟩ := ih hu (by simpa [schedule, hs] using hk)
      rw [schedule] at dropped
      exact ⟨v, (run_succ (M := core) hstep k).trans hrun, hv, dropped⟩

/-- With no access left the next step completes the command. -/
theorem HeldOverAccesses.completes {w : Word} {s : State} (h : HeldOverAccesses w s) (hs : s.schedule = []) :
    ∃ t, Machine.step s = .next t ∧ t.seq = .idle ∧ t.done = true ∧ t.schedule = [] := by
  obtain ⟨released, held, -⟩ := h
  obtain ⟨t, ht, idle, done, schedule⟩ := completeWord_completes w s
  exact ⟨t, (step_nil hs).trans ((engineTurn_busy released held).trans ht), idle, done, schedule.trans hs⟩

/-! ## The statements -/

/-- Settles O51: one step by the turn it takes; a run over the accesses keeps the command held, and one step more is its
completion, after which nothing moves. -/
theorem acceptedCommandCompletes : Obligations.AcceptedCommandCompletes := by
  refine ⟨fun s t w busy h => step_of_busy busy h, fun s w released held accesses => ?_⟩
  have holds : HeldOverAccesses w s := ⟨released, held, accesses⟩
  refine ⟨fun k hk => ?_, ?_⟩
  · obtain ⟨u, hrun, ⟨-, held, -⟩, -⟩ := holds.run hk
    exact ⟨u, hrun, held⟩
  · obtain ⟨u, hrun, hu, dropped⟩ := holds.run le_rfl
    obtain ⟨t, hstep, idle, done, schedule⟩ := hu.completes (dropped.trans List.drop_length)
    exact ⟨t, (run_add hrun 1).trans (run_succ (M := core) hstep 0), idle, done, schedule, run_idle idle schedule⟩

/-- Settles O56: the write only sets `OVERRUN`, which the completion neither reads nor writes. -/
theorem refusedWriteCommutesWithCompletion : Obligations.RefusedWriteCommutesWithCompletion := by
  intro s w off v released busy hstatus hinten
  obtain ⟨t, ht, -⟩ := completeWord_completes w s
  rw [memWrite_refused v (busy_of_seq busy) hstatus hinten, engineTurn_busy released busy,
    engineTurn_busy (s := setOverrun s) released busy]
  exact ⟨t, ht, completeWord_setOverrun ht⟩

/-- Settles O57: an illegal word raises `ILLEGAL_CMD`, and a legal one is executed, which reports `firstError`. -/
theorem errorsComeInPriorityOrder : Obligations.ErrorsComeInPriorityOrder := by
  intro s w released busy
  rw [engineTurn_busy released busy]
  cases hd : decode w with
  | legal i =>
    obtain ⟨t, ht, reported⟩ := exec_reports_firstError i s
    refine ⟨t, (completeWord_legal hd s).trans ht, nofun, fun j hj => ?_⟩
    cases hj
    exact reported
  | illegal why => exact ⟨_, completeWord_illegal hd s, fun _ _ => rfl, nofun⟩

/-- Settles O5: decoding comes before every check, so the operands are not looked at. -/
theorem illegalWordOnlyReportsIllegalCmd : Obligations.IllegalWordOnlyReportsIllegalCmd := by
  intro s w why released busy hd
  exact (engineTurn_busy released busy).trans (completeWord_illegal hd s)

/-- Settles O11: the two branches of a write to `CMD`, acceptance and a refused write. -/
theorem commandWriteAcceptsOrOverruns : Obligations.CommandWriteAcceptsOrOverruns := by
  refine fun s w => ⟨fun idle => ?_, fun u busy => memWrite_refused w (busy_of_seq busy) (by decide) (by decide)⟩
  rw [memWrite_cmd_idle w idle]
  exact ⟨rfl, rfl⟩

end Sys2Proof.Machine
end

section
/-! PROOFS of the statements about 70_reset_and_hazards.md. Asserting the reset input puts the whole block at its reset
values whatever it held; under it a read answers the next free value and a write stops at the bus. The reset state is
already cleared, so what `CLEAR` leaves at 0 reads 0 in it. -/

namespace Sys2Proof.Machine

/-! ## The reset input (70_reset_and_hazards.md R261) -/

@[simp] theorem setResetLine_schedule (asserted : Bool) (s : State) :
    (setResetLine asserted s).schedule = s.schedule := by
  cases asserted <;> rfl

/-- Nothing of the block before is left, a held command neither. -/
theorem block_setResetLine_true (s : State) :
    (setResetLine true s).block = { State.reset.block with inReset := true } := rfl

theorem readHasValue_inReset {s : State} (h : s.inReset = true) (r : Reg) : readHasValue s r = false := by
  simp [readHasValue, h]

/-- Of the four things an access can do, the one that reaches the block wants reset released. -/
theorem hostAccess_block_of_inReset {a : HostAccess} {s t : State} (h : s.inReset = true)
    (ht : hostAccess a s = .next t) : t.block = s.block := by
  obtain ⟨off, -, ⟨-, rfl⟩ | ⟨-, rfl⟩ | ⟨-, -, rfl⟩ | ⟨-, released, -⟩⟩ := hostAccess_cases ht
  · rfl
  · exact block_memRead off s
  · rfl
  · rw [h] at released
    cases released

/-! ## The reset state (70_reset_and_hazards.md R260) -/

theorem clearRegisters_reset : clearRegisters State.reset = State.reset := rfl

/-- `INTEN` and `STATUS`, which `CLEAR` does not zero, hold no bit; every other register is as `CLEAR` leaves it. -/
theorem readReg_reset_eq_zero {r : Reg} (hid : r ≠ .id) : readReg State.reset r = 0 := by
  by_cases hinten : r = .inten
  · subst hinten
    rfl
  by_cases hstatus : r = .status
  · subst hstatus
    rfl
  rw [← clearRegisters_reset]
  exact readReg_clearRegisters_eq_zero _ hid hinten hstatus

theorem readReg_regAt_reset (off : Nat) :
    readReg State.reset (regAt off) = if off = 0 then 0x4F545001 else 0 := by
  split_ifs with h0
  · rw [h0]
    rfl
  · exact readReg_reset_eq_zero (mt (regAt_eq_id_iff off).mp h0)

theorem byteAt_bufferBytes_reset (b : Buffer) (i : Nat) : byteAt (bufferBytes b State.reset) i = 0 := by
  cases b <;> exact bufByte_replicate _ i

/-! ## The statements -/

/-- Settles O2: the step that asserts reset, then the accesses under it, of which a read has no register's value. -/
theorem resetAbandonsTheCommand : Obligations.ResetAbandonsTheCommand := by
  refine ⟨fun s rest => ⟨_, step_resetLine rfl, setResetLine_schedule _ _, block_setResetLine_true _⟩,
    fun s h => ⟨fun a t => hostAccess_block_of_inReset h, fun off hlt h4 => ⟨_, hostAccess_read s hlt h4, ?_⟩⟩⟩
  rw [memRead_free (readHasValue_inReset h _)]

/-- Settles O1: the scalar fields as `State.reset` gives them, and the registers and buffer bytes by their kinds. -/
theorem resetStateIsZeroButForId : Obligations.ResetStateIsZeroButForId :=
  ⟨rfl, rfl, readReg_regAt_reset, by decide, by decide, byteAt_bufferBytes_reset⟩

end Sys2Proof.Machine
end

section
/-! PROOFS of the remaining statements about 30_encoding.md: the encoder and the decoder undo each other. A word selects
one row at most, so it decodes to the command of a row it selects; and a selected row's command is built from the fields
the row uses, while every other bit of the word is 0, so the word is the one the encoder writes. -/

namespace Sys2Proof.Machine

/-! ## Decoding by the row selected (30_encoding.md R83) -/

/-- "The rows do not overlap": a word decodes to the command of whichever row it selects. -/
theorem decode_of_selects {r : OpcodeRow} {w : Word} (hr : r ∈ opcodeMap) (h : r.selects w = true) :
    decode w = .legal (r.command w) := by
  obtain ⟨i, hi⟩ := (exists_decode_legal_iff w).mpr ⟨r, hr, h⟩
  obtain ⟨r', hr', h', rfl⟩ := exists_row_of_decode_legal hi
  have hmem : r ∈ opcodeMap.filter (·.selects w) := List.mem_filter.mpr ⟨hr, h⟩
  have hmem' : r' ∈ opcodeMap.filter (·.selects w) := List.mem_filter.mpr ⟨hr', h'⟩
  obtain ⟨only, hrows⟩ := List.length_eq_one_iff.mp ((exists_selects_iff_length_filter w).mp ⟨r, hr, h⟩)
  rw [hrows, List.mem_singleton] at hmem hmem'
  rw [hi, hmem, hmem']

/-! ## The fields of an encoded command (30_encoding.md R80 to R83) -/

/-- A word the encoder writes has no bit set that its operation does not use. -/
theorem encode_fields (i : Instr) : reservedZero (encode i) ∧ opField (encode i) ∈ knownOps ∧
    (opField (encode i) ∉ opsUsingAlg → algBits (encode i) = 0) ∧
    (opField (encode i) ∉ opsUsingDigits → digitsBits (encode i) = 0) := by
  have statement : Laws.EncodedFields.Statement i := by
    cases i with
    | ctr2b => exact Laws.EncodedFields.ctr2b
    | b2ctr => exact Laws.EncodedFields.b2ctr
    | hmac a => exact Laws.EncodedFields.hmac a
    | trunc d => exact Laws.EncodedFields.trunc d
    | hotp a d => exact Laws.EncodedFields.hotp a d
    | cmp => exact Laws.EncodedFields.cmp
    | b32enc => exact Laws.EncodedFields.b32enc
    | b32dec => exact Laws.EncodedFields.b32dec
    | clear => exact Laws.EncodedFields.clear
  obtain ⟨reserved, op, alg, digits⟩ := statement
  refine ⟨reserved, op, alg, fun unused => digits ?_ ?_⟩
  · exact (ne_of_mem_of_not_mem (by decide : (0x11 : BitVec 8) ∈ opsUsingDigits) unused).symm
  · exact (ne_of_mem_of_not_mem (by decide : (0x12 : BitVec 8) ∈ opsUsingDigits) unused).symm

/-- The `ALG` field of an encoded command is read back. -/
theorem algOf_commandWord (op : BitVec 8) (a : AlgField) (d : Nat) : algOf (commandWord op a.bits d) = a := by
  rw [algOf, algBits_commandWord, algOfBits_bits]

/-- A digit count that fits its four bits is read back (30_encoding.md R82). -/
theorem digitsOf_commandWord (op : BitVec 8) (a : BitVec 2) {d : Nat} (h : digitsEncodable d = true) :
    digitsOf (commandWord op a d) = d := by
  rw [digitsOf, digitsBits_commandWord, BitVec.toNat_ofNat]
  exact Nat.mod_eq_of_lt (of_decide_eq_true h)

/-- The row of a command: it has the `OP` of the command's word and reads the command back from it. `HMAC`, `TRUNC` and
`HOTP`, whose words carry operands, are rows 2 to 4 of the map. -/
theorem exists_row_of_wellFormed {i : Instr} (h : i.WellFormed) :
    ∃ r ∈ opcodeMap, opField (encode i) = opField r.pattern ∧ r.command (encode i) = i := by
  cases i with
  | ctr2b | b2ctr | cmp | b32enc | b32dec | clear => decide
  | hmac a => exact ⟨_, opcodeMap.getElem_mem (n := 2) (by decide), opField_commandWord _ _ _,
      congrArg Instr.hmac (algOf_commandWord _ _ _)⟩
  | trunc d => exact ⟨_, opcodeMap.getElem_mem (n := 3) (by decide), opField_commandWord _ _ _,
      congrArg Instr.trunc (digitsOf_commandWord _ _ h)⟩
  | hotp a d => exact ⟨_, opcodeMap.getElem_mem (n := 4) (by decide), opField_commandWord _ _ _,
      congrArg₂ Instr.hotp (algOf_commandWord _ _ _) (digitsOf_commandWord _ _ h)⟩

/-- A row's command carries the fields the row uses, so encoding it writes those fields and the row's `OP`. -/
theorem encode_command (w : Word) : ∀ r ∈ opcodeMap, encode (r.command w) = commandWord (opField r.pattern)
    (if opField r.pattern ∈ opsUsingAlg then algBits w else 0)
    (if opField r.pattern ∈ opsUsingDigits then digitsOf w else 0) := by
  simp [opcodeMap, encode, opField, opsUsingAlg, opsUsingDigits, algOf]

theorem command_wellFormed (w : Word) : ∀ r ∈ opcodeMap, (r.command w).WellFormed := by
  have digits : digitsEncodable (digitsOf w) = true := decide_eq_true (digitsBits w).isLt
  simp [opcodeMap, Instr.WellFormed, Instr.wf, digits]

/-- A word is the one its command's row writes: the fields the row uses are read, and the others are 0. -/
theorem encode_command_of_selects {r : OpcodeRow} {w : Word} (hr : r ∈ opcodeMap) (h : r.selects w = true) :
    encode (r.command w) = w := by
  obtain ⟨⟨high, low⟩, op, alg, digits⟩ := (selects_iff hr w).mp h
  rw [op] at alg digits
  rw [encode_command w r hr]
  refine word_ext_fields ?_ ?_ ?_ ?_ ?_
  · rw [reservedHigh_commandWord, high]
  · rw [digitsBits_commandWord]
    split
    next => rw [digitsOf, BitVec.ofNat_toNat, BitVec.setWidth_eq]
    next unused => exact (digits unused).symm
  · rw [reservedLow_commandWord, low]
  · rw [algBits_commandWord]
    split
    next => rfl
    next unused => exact (alg unused).symm
  · rw [opField_commandWord, op]

/-! ## The statements -/

/-- Settles O8: the command's word selects the row of the command, which reads its fields back. -/
theorem decodeOfEncode : Obligations.DecodeOfEncode := by
  intro i h
  obtain ⟨r, hr, op, command⟩ := exists_row_of_wellFormed h
  obtain ⟨reserved, -, alg, digits⟩ := encode_fields i
  rw [decode_of_selects hr ((selects_iff hr _).mpr ⟨reserved, op, alg, digits⟩), command]

/-- Settles O9: a legal word selects the row of its command, and is the word the row's fields make. -/
theorem encodeOfDecode : Obligations.EncodeOfDecode := by
  intro w i h
  obtain ⟨r, hr, selects, rfl⟩ := exists_row_of_decode_legal h
  exact ⟨command_wellFormed w r hr, encode_command_of_selects hr selects⟩

/-- Settles O7: each word is a row's pattern with values in the fields the row uses. -/
theorem namedCommandWordsDecode : Obligations.NamedCommandWordsDecode := by
  unfold Obligations.NamedCommandWordsDecode
  decide

end Sys2Proof.Machine
end

section
/-! PROOFS of the remaining statements about host accesses (10_state.md section 5, 20_memory.md section 1). An access of
the window is one of four things: a bus error, a read, a write, or a write without effect; of these only the write out
of reset reaches the block, and it reaches no result, and while busy no operand. -/

namespace Sys2Proof.Machine

/-! ## What reads see (10_state.md R20, R25) -/

theorem readReg_block (s : State) (r : Reg) : readReg s.block r = readReg s r := by
  cases r <;> rfl

theorem readReg_congr_block {s t : State} (h : t.block = s.block) (r : Reg) : readReg t r = readReg s r := by
  rw [← readReg_block t, h, readReg_block]

theorem busy_congr {s t : State} (h : t.seq = s.seq) : t.busy = s.busy := congrArg Seq.isBusy h

/-! ## Reads while busy (10_state.md R49) -/

/-- A busy read of a register that R49 does not list answers the next free value, whatever the block holds. -/
theorem memRead_reply_of_hidden {off : Nat} {s : State} (hb : s.busy = true)
    (h : (regAt off).readableWhileBusy = false) :
    (memRead off s).reply = some (.data (Config.freeRead s.draws)) := by
  rw [memRead_free (by simp [readHasValue, hb, h])]

/-! ## What an access answers (20_memory.md R61) -/

/-- An access of the window that is not a 32-bit one at a multiple of 4. -/
theorem legalAccess_eq_false_iff (width : AccessWidth) (off : Nat) :
    legalAccess width off = false ↔ width ≠ .w32 ∨ off % 4 ≠ 0 := by
  simp only [legalAccess, Bool.and_eq_false_iff, beq_eq_false_iff_ne, ne_eq]

/-- It gets its bus error and changes nothing else (20_memory.md R61). -/
theorem hostAccess_illegal {a : HostAccess} {off : Nat} (h : windowOffset (accessAddr a) = some off)
    (hl : legalAccess (accessWidth a) off = false) (s : State) :
    hostAccess a s = .next { s with reply := some (.busError off) } := by
  unfold hostAccess
  rw [h]
  simp only [hl, Bool.false_eq_true, if_false]

/-- An aligned 32-bit access of the window is answered, and not with a bus error. -/
theorem hostAccess_legal_answered {a : HostAccess} {off : Nat} (haddr : accessAddr a = hostAddress off)
    (hlt : off < 4096) (hw : accessWidth a = .w32) (h4 : off % 4 = 0) (s : State) :
    ∃ t, hostAccess a s = .next t ∧ ∀ o, t.reply ≠ some (.busError o) := by
  cases a with
  | read width addr =>
    obtain rfl : width = .w32 := hw
    obtain rfl : addr = hostAddress off := haddr
    obtain ⟨v, hv⟩ := memRead_reply off s
    exact ⟨_, hostAccess_read s hlt h4, fun o => by rw [hv]; nofun⟩
  | write width addr v =>
    obtain rfl : width = .w32 := hw
    obtain rfl : addr = hostAddress off := haddr
    exact ⟨_, hostAccess_write v s hlt h4, nofun⟩

/-! ## Where the machine stops (20_memory.md R60; log 4) -/

/-- The only fault of an access is an address outside the window. -/
theorem hostAccess_fault_iff (a : HostAccess) (s : State) (r : Fault) :
    hostAccess a s = .fault r ↔
      (accessAddr a < Config.base ∨ Config.base + 4096 ≤ accessAddr a) ∧ r = .outsideWindow (accessAddr a) := by
  rw [← windowOffset_eq_none_iff]
  cases h : windowOffset (accessAddr a) with
  | none =>
    have outside : hostAccess a s = .fault (.outsideWindow (accessAddr a)) := by
      unfold hostAccess
      rw [h]
    rw [outside]
    constructor
    · rintro ⟨⟩
      exact ⟨rfl, rfl⟩
    · rintro ⟨-, rfl⟩
      rfl
  | some off =>
    obtain ⟨t, ht⟩ := hostAccess_next (Option.isSome_of_mem h) s
    rw [ht]
    exact ⟨nofun, nofun⟩

theorem hostAccess_ne_refused (a : HostAccess) (s : State) (r : Refusal) : hostAccess a s ≠ .refused r := by
  unfold hostAccess
  split
  · nofun
  · split
    · split <;> nofun
    · nofun

/-- A step answers a next state, unless it is an access. -/
theorem step_next_or_access (s : State) : (∃ t, step s = .next t) ∨
    ∃ a rest, s.schedule = .access a :: rest ∧ step s = hostAccess a { s with schedule := rest } := by
  match hs : s.schedule with
  | [] => exact .inl (step_nil hs ▸ engineTurn_next s)
  | .engine :: rest => exact .inl (step_engine hs ▸ engineTurn_next _)
  | .access a :: rest => exact .inr ⟨a, rest, rfl, step_access hs⟩
  | .resetLine asserted :: rest => exact .inl ⟨_, step_resetLine hs⟩

/-! ## What an access leaves alone (10_state.md R48, 20_memory.md R63) -/

/-- `t` holds the results of `s`, `MATCH` included (10_state.md R28, R35 to R37, R43, R44). -/
def SameResults (s t : State) : Prop :=
  t.digest = s.digest ∧ t.diglen = s.diglen ∧ t.code = s.code ∧ t.codelen = s.codelen ∧ t.trunc = s.trunc ∧
    t.matched = s.matched

theorem SameResults.of_block {s t : State} (h : t.block = s.block) : SameResults s t :=
  ⟨(congrArg State.digest h :), (congrArg State.diglen h :), (congrArg State.code h :), (congrArg State.codelen h :),
    (congrArg State.trunc h :), (congrArg State.matched h :)⟩

theorem SameResults.trans {s t u : State} (h : SameResults s t) (h' : SameResults t u) : SameResults s u := by
  obtain ⟨digest, diglen, code, codelen, trunc, matched⟩ := h
  obtain ⟨digest', diglen', code', codelen', trunc', matched'⟩ := h'
  exact ⟨digest'.trans digest, diglen'.trans diglen, code'.trans code, codelen'.trans codelen, trunc'.trans trunc,
    matched'.trans matched⟩

/-- No write of the window reaches a result register (20_memory.md R63). -/
theorem memWrite_sameResults (off : Nat) (v : Word) (s : State) : SameResults s (memWrite off v s) := by
  obtain ⟨-, -, -, h⟩ | ⟨-, -, h⟩ | ⟨-, h⟩ | ⟨-, h⟩ | ⟨-, -, -, -, h⟩ := memWrite_cases off v s
  · rw [h]
    exact ⟨rfl, rfl, rfl, rfl, rfl, rfl⟩
  · rw [h]
    exact ⟨rfl, rfl, rfl, rfl, rfl, rfl⟩
  · rw [h]
    exact ⟨rfl, rfl, rfl, rfl, rfl, rfl⟩
  · rw [h]
    exact ⟨rfl, rfl, rfl, rfl, rfl, rfl⟩
  · obtain ⟨-, -, matched, -, -, -, -, codelen, diglen, trunc, code, digest, -⟩ := writeReg_frame (regAt off) v s
    rw [h]
    exact ⟨digest, diglen, code, codelen, trunc, matched⟩

/-- While busy a write of the window reaches no register but `STATUS` and `INTEN` (10_state.md R29). -/
theorem readReg_memWrite_of_busy {s : State} (hb : s.busy = true) (off : Nat) (v : Word) {r : Reg}
    (hstatus : r ≠ .status) (hinten : r ≠ .inten) : readReg (memWrite off v s) r = readReg s r := by
  obtain ⟨-, -, -, h⟩ | ⟨idle, -⟩ | ⟨-, h⟩ | ⟨-, h⟩ | ⟨idle, -⟩ := memWrite_cases off v s
  · rw [h]
    cases r with
    | status => exact absurd rfl hstatus
    | _ => rfl
  · simp [(busy_eq_false_iff s).mpr idle] at hb
  · rw [h]
    cases r with
    | status => exact absurd rfl hstatus
    | _ => rfl
  · rw [h]
    cases r with
    | inten => exact absurd rfl hinten
    | _ => rfl
  · simp [(busy_eq_false_iff s).mpr idle] at hb

/-- An access leaves the block as it is, or makes a write of the window out of reset. -/
theorem hostAccess_block_cases {a : HostAccess} {s t : State} (h : hostAccess a s = .next t) :
    t.block = s.block ∨ (s.inReset = false ∧ ∃ off v, t.block = (memWrite off v s).block) := by
  obtain ⟨off, -, ⟨-, rfl⟩ | ⟨-, rfl⟩ | ⟨-, -, rfl⟩ | ⟨-, released, v, rfl⟩⟩ := hostAccess_cases h
  · exact .inl rfl
  · exact .inl (block_memRead off s)
  · exact .inl rfl
  · exact .inr ⟨released, off, v, rfl⟩

theorem hostAccess_sameResults {a : HostAccess} {s t : State} (h : hostAccess a s = .next t) : SameResults s t := by
  obtain same | ⟨-, off, v, written⟩ := hostAccess_block_cases h
  · exact .of_block same
  · exact (memWrite_sameResults off v s).trans (.of_block written)

/-- Nor does an access made while busy (10_state.md R48). -/
theorem readReg_hostAccess_of_busy {a : HostAccess} {s t : State} (hb : s.busy = true) (h : hostAccess a s = .next t)
    {r : Reg} (hstatus : r ≠ .status) (hinten : r ≠ .inten) : readReg t r = readReg s r := by
  obtain same | ⟨-, off, v, written⟩ := hostAccess_block_cases h
  · exact readReg_congr_block same r
  · rw [readReg_congr_block written, readReg_memWrite_of_busy hb off v hstatus hinten]

/-- `t` holds the command of `s` and reads as `s` does, but for `STATUS` and `INTEN` (10_state.md R48). -/
def HoldsOperandsOf (s t : State) : Prop :=
  t.seq = s.seq ∧ t.matched = s.matched ∧ ∀ r, r ≠ .status → r ≠ .inten → readReg t r = readReg s r

theorem HoldsOperandsOf.of_block {s t : State} (h : t.block = s.block) : HoldsOperandsOf s t :=
  ⟨by rw [← block_seq t, h, block_seq], by rw [← block_matched t, h, block_matched],
    fun r _ _ => readReg_congr_block h r⟩

theorem HoldsOperandsOf.trans {s t u : State} (h : HoldsOperandsOf s t) (h' : HoldsOperandsOf t u) :
    HoldsOperandsOf s u := by
  obtain ⟨seq, matched, reads⟩ := h
  obtain ⟨seq', matched', reads'⟩ := h'
  exact ⟨seq'.trans seq, matched'.trans matched,
    fun r hstatus hinten => (reads' r hstatus hinten).trans (reads r hstatus hinten)⟩

theorem HoldsOperandsOf.busy {s t : State} (h : HoldsOperandsOf s t) (hb : s.busy = true) : t.busy = true := by
  obtain ⟨seq, -⟩ := h
  exact (busy_congr seq).trans hb

/-- An access made while a command is held leaves the command and its operands. -/
theorem hostAccess_holdsOperands {a : HostAccess} {s t : State} (hb : s.busy = true) (h : hostAccess a s = .next t) :
    HoldsOperandsOf s t := by
  obtain ⟨w, held⟩ := (busy_eq_true_iff s).mp hb
  exact ⟨(hostAccess_seq_of_busy held h).trans held.symm, hostAccess_matched h,
    fun _ => readReg_hostAccess_of_busy hb h⟩

/-- A run that ends made each of its steps. -/
theorem step_of_run {M : Host.Core} {k : Nat} {s u : M.State} (h : M.run (k + 1) s = .next u) :
    ∃ t, M.step s = .next t ∧ M.run k t = .next u := by
  rw [Host.Core.run] at h
  split at h
  next t hstep => exact ⟨t, hstep, h⟩
  next => cases h
  next => cases h

/-- A run over host accesses alone holds the operands: one access at a time, each of which leaves the command held. -/
theorem run_holdsOperands {k : Nat} {s u : State} (hb : s.busy = true) (hk : k ≤ s.schedule.length)
    (accesses : ∀ turn ∈ s.schedule, ∃ a, turn = .access a) (h : core.run k s = .next u) : HoldsOperandsOf s u := by
  induction k generalizing s with
  | zero =>
    cases h
    exact .of_block rfl
  | succ k ih =>
    obtain ⟨t, hstep, hrun⟩ := step_of_run (M := core) h
    cases hs : s.schedule with
    | nil =>
      rw [hs] at hk
      cases hk
    | cons turn rest =>
      rw [hs] at hk accesses
      obtain ⟨a, rfl⟩ := accesses turn List.mem_cons_self
      have haccess := (step_access hs).symm.trans hstep
      have first : HoldsOperandsOf s t := .trans (t := { s with schedule := rest }) (.of_block rfl)
        (hostAccess_holdsOperands hb haccess)
      obtain ⟨-, schedule⟩ := hostAccess_host_frame haccess
      refine first.trans (ih (first.busy hb) ?_ ?_ hrun)
      · rw [schedule]
        exact Nat.le_of_succ_le_succ hk
      · rw [schedule]
        exact fun t ht => accesses t (List.mem_cons_of_mem _ ht)

/-! ## The statements -/

/-- Settles O18: a read access is `memRead`, whose reply by R49's list is the register's value or a free one. -/
theorem busyReadsAreUnspecified : Obligations.BusyReadsAreUnspecified := by
  intro s off hlt h4 hr hb
  refine ⟨_, hostAccess_read s hlt h4, block_memRead off s, fun listed => ?_, fun notListed => ?_⟩
  · rw [memRead_value (by simp [readHasValue, hr, (readableWhileBusy_iff _).mpr listed])]
  · have hidden : (regAt off).readableWhileBusy = false := by rwa [← Bool.not_eq_true, readableWhileBusy_iff]
    refine ⟨memRead_reply_of_hidden hb hidden, fun s' t' hdraws _ hb' h => ?_⟩
    cases (hostAccess_read s' hlt h4).symm.trans h
    rw [memRead_reply_of_hidden hb hidden, memRead_reply_of_hidden hb' hidden, hdraws]

/-- Settles O20: the two sides of `legalAccess`, and the write by its own equation. -/
theorem busErrorsHaveNoEffect : Obligations.BusErrorsHaveNoEffect := by
  intro s a off haddr hlt
  refine ⟨fun illegal => hostAccess_illegal (haddr ▸ windowOffset_hostAddress hlt)
      ((legalAccess_eq_false_iff _ _).mpr illegal) s,
    fun hw h4 => hostAccess_legal_answered haddr hlt hw h4 s, fun v ha h4 => ?_⟩
  rw [ha, hostAccess_write v s hlt h4]
  rfl

/-- Settles O21: of the four turns only an access can fault, when its address is outside the window. -/
theorem onlyAccessesOutsideTheWindowStop : Obligations.OnlyAccessesOutsideTheWindowStop := by
  refine ⟨fun s r => ⟨fun h => ?_, ?_⟩, fun s r h => ?_⟩
  · obtain ⟨t, ht⟩ | ⟨a, rest, hs, hstep⟩ := step_next_or_access s
    · cases ht.symm.trans h
    · exact ⟨a, rest, hs, (hostAccess_fault_iff a _ r).mp (hstep.symm.trans h)⟩
  · rintro ⟨a, rest, hs, outside⟩
    rw [step_access hs]
    exact (hostAccess_fault_iff a _ r).mpr outside
  · obtain ⟨t, ht⟩ | ⟨a, rest, -, hstep⟩ := step_next_or_access s
    · cases ht.symm.trans h
    · exact hostAccess_ne_refused a _ r (hstep.symm.trans h)

/-- Settles O22: an access leaves the result registers and `MATCH` together. -/
theorem hostCannotWriteResults : Obligations.HostCannotWriteResults :=
  fun _ _ _ => hostAccess_sameResults

/-- Settles O55: by induction on the accesses made. -/
theorem operandsAreFixedWhileBusy : Obligations.OperandsAreFixedWhileBusy := by
  intro k s u _ hb hk accesses h
  obtain ⟨seq, matched, reads⟩ := run_holdsOperands hb hk accesses h
  exact ⟨seq, matched, fun off => reads (regAt off)⟩

end Sys2Proof.Machine
end

section
/-! PROOFS of the statements about the whole machine: what a completion writes (10_state.md R50, 60_exceptions.md R234),
and the invariant. The invariant speaks of the flags while busy, of the block under reset, and of the results: an access
reaches no result, a completion leaves the digest and the code as they were, writes them whole, or clears them, and
asserting reset puts the reset state. -/

namespace Sys2Proof.Machine

/-! ## The parts of the invariant (10_state.md R35 to R37, R43, R44) -/

/-- A `DIGLEN` and a `DIGEST` as the invariant wants them. -/
def DigestOk (diglen : Byte) (digest : Vector Byte 64) : Prop :=
  diglen.toNat ∈ [0, 20, 32, 64] ∧ ∀ i, diglen.toNat ≤ i → bufByte digest i = 0

/-- A `TRUNC`, a `CODE` and a `CODELEN` as the invariant wants them. -/
def CodeOk (trunc : BitVec 31) (code : Vector Byte 12) (codelen : Byte) : Prop :=
  codelen.toNat ≤ 9 ∧ code = renderCode trunc codelen.toNat ∧ (codelen = 0 → trunc = 0)

/-- What the invariant says of the results. -/
def ResultsOk (s : State) : Prop := DigestOk s.diglen s.digest ∧ CodeOk s.trunc s.code s.codelen

theorem BlockInv.resultsOk {s : State} (h : BlockInv s) : ResultsOk s :=
  ⟨⟨h.digest_length, h.digest_zero_above⟩, h.code_length, h.code_of_trunc, h.no_code⟩

/-- The invariant from its parts. -/
theorem BlockInv.of_parts {s : State} (busyClean : s.busy = true → s.done = false ∧ s.errcode = .ok)
    (heldInReset : s.inReset = true → s.block = { State.reset.block with inReset := true }) (results : ResultsOk s) :
    BlockInv s := by
  obtain ⟨⟨digest_length, digest_zero_above⟩, code_length, code_of_trunc, no_code⟩ := results
  exact ⟨busyClean, heldInReset, digest_length, digest_zero_above, code_length, code_of_trunc, no_code⟩

/-- Out of reset the invariant says nothing of the whole block. -/
theorem BlockInv.of_released {s : State} (released : s.inReset = false)
    (busyClean : s.busy = true → s.done = false ∧ s.errcode = .ok) (results : ResultsOk s) : BlockInv s :=
  .of_parts busyClean (fun reset => by cases reset.symm.trans released) results

theorem ResultsOk.congr {s t : State} (h : ResultsOk s) (same : SameResults s t) : ResultsOk t := by
  obtain ⟨digestOk, codeOk⟩ := h
  obtain ⟨digest, diglen, code, codelen, trunc, -⟩ := same
  rw [← digest, ← diglen] at digestOk
  rw [← code, ← codelen, ← trunc] at codeOk
  exact ⟨digestOk, codeOk⟩

/-- The invariant is the block's own: the host side is free. -/
theorem BlockInv.of_block {s t : State} (h : BlockInv s) (same : t.block = s.block) : BlockInv t := by
  have seq : t.seq = s.seq := by rw [← block_seq, same, block_seq]
  have inReset : t.inReset = s.inReset := by rw [← block_inReset, same, block_inReset]
  refine .of_parts (fun busy => ?_) (fun reset => same.trans (h.held_in_reset (inReset.symm.trans reset)))
    (h.resultsOk.congr (.of_block same))
  rw [← block_done, ← block_errcode, same]
  exact h.busy_clean ((busy_congr seq).symm.trans busy)

/-! ## Reset (70_reset_and_hazards.md R260, R261) -/

theorem digestOk_zero : DigestOk 0 (Vector.replicate 64 0) := ⟨by decide, fun i _ => bufByte_replicate 64 i⟩

theorem codeOk_zero : CodeOk 0 (Vector.replicate 12 0) 0 := ⟨by decide, (zeroFill_nil 12).symm, fun _ => rfl⟩

/-- The reset state meets the invariant at either level of the reset input. -/
theorem blockInv_reset (inReset : Bool) : BlockInv { State.reset with inReset } :=
  .of_parts nofun (by rintro rfl; rfl) ⟨digestOk_zero, codeOk_zero⟩

theorem blockInv_setResetLine {s : State} (h : BlockInv s) (asserted : Bool) : BlockInv (setResetLine asserted s) := by
  cases asserted with
  | true => exact (blockInv_reset true).of_block (block_setResetLine_true s)
  | false => exact .of_released rfl h.busy_clean h.resultsOk

/-! ## Accesses -/

/-- While busy no write sets `DONE` or `ERRCODE`, and one that makes the block busy clears both. -/
theorem memWrite_busy_clean {s : State} (h : s.busy = true → s.done = false ∧ s.errcode = .ok) (off : Nat) (v : Word)
    (busy : (memWrite off v s).busy = true) : (memWrite off v s).done = false ∧ (memWrite off v s).errcode = .ok := by
  obtain ⟨hb, -, -, hw⟩ | ⟨-, -, hw⟩ | ⟨-, hw⟩ | ⟨-, hw⟩ | ⟨idle, -, -, -, hw⟩ := memWrite_cases off v s
  · rw [hw]
    exact h hb
  · rw [hw]
    exact ⟨rfl, rfl⟩
  · rw [hw] at busy ⊢
    obtain ⟨done, errcode⟩ := h busy
    exact ⟨by rw [writeStatus_done, done, Bool.false_and], errcode⟩
  · rw [hw] at busy ⊢
    exact h busy
  · obtain ⟨seq, -⟩ := writeReg_frame (regAt off) v s
    rw [hw, busy_congr seq, (busy_eq_false_iff s).mpr idle] at busy
    cases busy

theorem blockInv_memWrite {s : State} (h : BlockInv s) (released : s.inReset = false) (off : Nat) (v : Word) :
    BlockInv (memWrite off v s) := by
  obtain ⟨inReset, -⟩ := memWrite_host_frame off v s
  exact .of_released (inReset.trans released) (memWrite_busy_clean h.busy_clean off v)
    (h.resultsOk.congr (memWrite_sameResults off v s))

theorem blockInv_hostAccess {a : HostAccess} {s t : State} (h : BlockInv s) (ht : hostAccess a s = .next t) :
    BlockInv t := by
  obtain same | ⟨released, off, v, written⟩ := hostAccess_block_cases ht
  · exact h.of_block same
  · exact (blockInv_memWrite h released off v).of_block written

/-! ## Completions (60_exceptions.md R234, R236) -/

/-- A hash's digest in the buffer, with its length. -/
theorem digestOk_mac {a : HashAlg} {mac : List Byte} (length : mac.length = digestLength a) :
    DigestOk (BitVec.ofNat 8 (digestLength a)) (zeroFill 64 mac) := by
  have diglen := toNat_digestLength a
  refine ⟨?_, fun i hi => ?_⟩
  · rw [diglen]
    exact List.mem_cons_of_mem _ (digestLength_mem a)
  · rw [diglen] at hi
    rw [bufByte_zeroFill, byteAt_of_length_le (length.trans_le hi), ite_self]

/-- A code of one to nine digits. -/
theorem codeOk_renderCode {d : Nat} (h1 : 1 ≤ d) (h9 : d ≤ 9) (t : BitVec 31) :
    CodeOk t (renderCode t d) (BitVec.ofNat 8 d) := by
  have codelen : (BitVec.ofNat 8 d).toNat = d := toNat_ofNat_byte (by omega)
  refine ⟨codelen.trans_le h9, by rw [codelen], fun none => ?_⟩
  rw [none] at codelen
  have zero : 0 = d := codelen
  omega

/-- A command leaves the digest and the code, writes them whole, or clears them. -/
theorem Writes.resultsOk {i : Instr} {s w : State} (h : Writes s i w) (hs : ResultsOk s) : ResultsOk w := by
  obtain ⟨digest, code⟩ := hs
  cases h with
  | hmac => exact ⟨digestOk_mac (length_hmac _ _ _), code⟩
  | trunc d hd =>
    obtain ⟨h1, h9⟩ := hd
    exact ⟨digest, codeOk_renderCode h1 h9 _⟩
  | hotp a d h ha hd =>
    obtain ⟨h1, h9⟩ := hd
    exact ⟨digestOk_mac (length_hmac _ _ _), codeOk_renderCode h1 h9 _⟩
  | clear => exact ⟨digestOk_zero, codeOk_zero⟩
  | ctr2b | b2ctr | cmp | b32enc | b32dec => exact ⟨digest, code⟩

theorem blockInv_raiseError {s : State} (h : BlockInv s) (released : s.inReset = false) (e : ErrCode) :
    BlockInv (raiseError e s) :=
  .of_released released nofun h.resultsOk

theorem blockInv_exec {i : Instr} {s t : State} (h : BlockInv s) (released : s.inReset = false)
    (ht : exec i s = .next t) : BlockInv t := by
  obtain ⟨e, rfl⟩ | ⟨w, hw, rfl⟩ := exec_next_cases ht
  · exact blockInv_raiseError h released e
  · obtain ⟨inReset, -⟩ := hw.host_frame
    exact .of_released (inReset.trans released) nofun (hw.resultsOk h.resultsOk)

theorem blockInv_engineTurn {s t : State} (h : BlockInv s) (ht : engineTurn s = .next t) : BlockInv t := by
  obtain rests | ⟨w, released, -, ⟨-, -, fails⟩ | ⟨i, -, runs⟩⟩ := engineTurn_cases s
  · cases rests.symm.trans ht
    exact h
  · cases fails.symm.trans ht
    exact blockInv_raiseError h released _
  · exact blockInv_exec h released (runs.symm.trans ht)

/-! ## The statements -/

/-- Settles O53: by the turn the step takes, whose removal from the schedule is no change of the block. -/
theorem stepKeepsTheInvariant : Obligations.StepKeepsTheInvariant := by
  intro s t h ht
  have taken (rest : List Turn) : BlockInv { s with schedule := rest } := h.of_block rfl
  match hs : s.schedule with
  | [] => exact blockInv_engineTurn h ((step_nil hs).symm.trans ht)
  | .engine :: rest => exact blockInv_engineTurn (taken rest) ((step_engine hs).symm.trans ht)
  | .access a :: rest => exact blockInv_hostAccess (taken rest) ((step_access hs).symm.trans ht)
  | .resetLine asserted :: rest =>
    cases (step_resetLine hs).symm.trans ht
    exact blockInv_setResetLine (taken rest) asserted

/-- Settles O52: the reset state with the reset input released. -/
theorem invariantAtReset : Obligations.InvariantAtReset := blockInv_reset false

/-- Settles O49: a command completes with its writes or with an error; a word that is no command with `ILLEGAL_CMD`. -/
theorem commandsWriteOnlyTheirRegisters : Obligations.CommandsWriteOnlyTheirRegisters := by
  refine ⟨fun i s => ?_, fun s w hr hs hno => ?_⟩
  · obtain ⟨t, ht⟩ := exec_next i s
    refine ⟨t, ht, fun hok => ?_, exec_failed ht⟩
    obtain ⟨w, hw, rfl⟩ := exec_ok ht hok
    exact hw.completesAs
  · obtain ⟨why, illegal⟩ := (exists_decode_illegal_iff w).mpr (not_exists.mpr hno)
    exact ⟨_, (engineTurn_busy hr hs).trans (completeWord_illegal illegal s), nofun, rfl⟩

end Sys2Proof.Machine
end

section
/-! PROOFS of the remaining statements about 41_hmac.md: the schedules of the three hash functions are instances of one,
whose later words are its next-word function of the words before; and the spec's vectors of HMAC. -/

namespace Sys2Proof.Machine

/-- Settles O27: each schedule's own words, then those its next-word function makes of the words before. -/
theorem schedulesFollowTheirRecurrences : Obligations.SchedulesFollowTheirRecurrences := by
  refine ⟨fun ws hws => ⟨?_, fun t ht => schedule_getD_of_lt rfl hws ht,
      fun t h16 ht => sha1Schedule_getD rfl hws h16 ht⟩,
    fun ws hws => ⟨?_, fun t ht => schedule_getD_of_lt rfl hws ht,
      fun t h16 ht => sha2Schedule_getD (p := sha256Params) rfl hws h16 ht⟩,
    fun ws hws => ⟨?_, fun t ht => schedule_getD_of_lt rfl hws ht,
      fun t h16 ht => sha2Schedule_getD (p := sha512Params) rfl hws h16 ht⟩⟩
  · rw [length_hashSchedule, hws]
  · rw [length_hashSchedule, hws]
  · rw [length_hashSchedule, hws]

/-! ## The vectors H1, H2, H3 (95_test_vectors.md section 2.3)

Each is one evaluation of the transcription; the rounds of a block nest deeper than the default recursion limit. -/

section Vectors
set_option maxRecDepth 10000

/-- The key of the vectors, as its ASCII bytes. -/
abbrev vectorKey : List Byte := "12345678901234567890".toList.map fun c => BitVec.ofNat 8 c.toNat

theorem hmac_sha1_vectorKey : hmac .sha1 vectorKey (beBytes 8 1) =
    [0x75, 0xa4, 0x8a, 0x19, 0xd4, 0xcb, 0xe1, 0x00, 0x64, 0x4e, 0x8a, 0xc1, 0x39, 0x7e, 0xea, 0x74, 0x7a, 0x2d,
     0x33, 0xab] := by decide

theorem hmac_sha256_vectorKey : hmac .sha256 vectorKey (beBytes 8 1) =
    [0xec, 0x9d, 0x4f, 0x68, 0x7b, 0x4e, 0xfe, 0x6a, 0xcc, 0x52, 0x10, 0x06, 0x72, 0x66, 0x0b, 0x84, 0xc0, 0xe7,
     0x21, 0x0b, 0xa0, 0x38, 0x21, 0x41, 0xf8, 0xec, 0xb9, 0x07, 0x96, 0xca, 0xb9, 0x12] := by decide

theorem hmac_sha512_vectorKey : hmac .sha512 vectorKey (beBytes 8 1) =
    [0x68, 0xa0, 0xd9, 0xfc, 0x7f, 0x6b, 0xc8, 0xe3, 0x06, 0x0a, 0x4c, 0xa7, 0x99, 0x96, 0x03, 0xb6, 0xc3, 0x5d,
     0x4a, 0xf7, 0xb2, 0x9e, 0x18, 0xc5, 0x4f, 0x4f, 0x91, 0x8c, 0x24, 0x40, 0xb4, 0x7b, 0x6d, 0x8e, 0x2b, 0x2b] ++
    [0x46, 0xdf, 0x25, 0xf1, 0x24, 0x30, 0x68, 0xa9, 0x26, 0x2d, 0x81, 0xc8, 0x87, 0x9e, 0x07, 0xd5, 0x49, 0x91,
     0xa5, 0xec, 0x78, 0x3d, 0xb7, 0x38, 0x4b, 0x0b, 0x91, 0x0d] := by decide

end Vectors

/-- Settles O31, vector by vector. -/
theorem hmacOfTheSpecsExample : Obligations.HmacOfTheSpecsExample :=
  ⟨hmac_sha1_vectorKey, hmac_sha256_vectorKey, hmac_sha512_vectorKey⟩

end Sys2Proof.Machine
end

section
/-! PROOFS of the remaining statements about the machine's turns: what the next step is, the engine under reset, how
long a held command takes (70_reset_and_hazards.md R270), and what the access after a `CMD` write sees (20_memory.md
R69). -/

namespace Sys2Proof.Machine

/-! ## The engine's turn on a legal word (60_exceptions.md R234 to R236) -/

theorem engineTurn_legal {s : State} {w : Word} {i : Instr} (hr : s.inReset = false) (hs : s.seq = .busy w)
    (hd : decode w = .legal i) : engineTurn s = exec i s :=
  (engineTurn_busy hr hs).trans (completeWord_legal hd s)

theorem decode_of_decodeTableWord {nbits w : Nat} {i : Instr} (h : decodeTableWord nbits w = some i) :
    decode (tableWord nbits w) = .legal i := by
  unfold decodeTableWord at h
  cases hd : decode (tableWord nbits w) with
  | legal j =>
    rw [hd] at h
    cases h
    rfl
  | illegal why =>
    rw [hd] at h
    cases h

/-! ## Latency (70_reset_and_hazards.md R270) -/

theorem latency_cases (s : State) : (s.seq = .idle ∧ s.latency = none) ∨
    ∃ w, s.seq = .busy w ∧ s.latency = some (commandLatency w s.keylen s.textlen s.diglen) := by
  unfold State.latency
  cases s.seq with
  | idle => exact .inl ⟨rfl, rfl⟩
  | busy w => exact .inr ⟨w, rfl, rfl⟩

theorem latency_busy {s : State} {w : Word} (h : s.seq = .busy w) :
    s.latency = some (commandLatency w s.keylen s.textlen s.diglen) := by
  obtain ⟨idle, -⟩ | ⟨w', held, latency⟩ := latency_cases s
  · cases h.symm.trans idle
  · cases h.symm.trans held
    exact latency

/-- The latencies the rules narrow down: `CMP`'s to "a single value" (43_comparator.md R181), those of `B32ENC` and
`B32DEC` to one length each (44_base32.md R205). -/
theorem commandLatency_narrowed (w : Word) (keylen textlen diglen : Byte) :
    (decode w = .legal .cmp → commandLatency w keylen textlen diglen = Config.cmpLatencyLessOne + 1) ∧
    (decode w = .legal .b32enc → commandLatency w keylen textlen diglen = Config.b32encLatencyLessOne keylen + 1) ∧
    (decode w = .legal .b32dec → commandLatency w keylen textlen diglen = Config.b32decLatencyLessOne textlen + 1) := by
  unfold commandLatency commandLatencyLessOne
  refine ⟨fun h => ?_, fun h => ?_, fun h => ?_⟩
  · rw [h]
  · rw [h]
  · rw [h]

/-! ## Accesses around a command (20_memory.md R69) -/

/-- An idle block out of reset accepts the `CMD` write whose turn it is. -/
theorem step_wrTurn_cmd {s : State} (hr : s.inReset = false) (idle : s.seq = .idle) (w : Word) (rest : List Turn) :
    ∃ u, step { s with schedule := wrTurn .cmd w :: rest } = .next u ∧ u.seq = .busy w ∧ u.done = false ∧
      u.inReset = false ∧ u.schedule = rest := by
  refine ⟨{ accept w s with schedule := rest, reply := some .written }, ?_, rfl, rfl, hr, rfl⟩
  rw [step_access rfl, show hostAddress (regOffset .cmd) = hostAddress 0x004 from rfl,
    hostAccess_write w _ (by decide) rfl, busWrite_of_not_inReset (by exact hr), memWrite_cmd_idle w (by exact idle)]
  rfl

/-- A `STATUS` read answers `STATUS`, busy or idle, out of reset. -/
theorem step_rdTurn_status {s : State} {rest : List Turn} (hr : s.inReset = false)
    (hs : s.schedule = rdTurn .status :: rest) :
    step s = .next { s with schedule := rest, reply := some (.data (statusWord s)) } := by
  have status : regAt 0x008 = .status := (regAt_eq_status_iff 0x008).mpr rfl
  rw [step_access hs, show hostAddress (regOffset .status) = hostAddress 0x008 from rfl,
    hostAccess_read_value (s := { s with schedule := rest }) (by decide) rfl hr
      (by rw [status, Reg.readableWhileBusy, Bool.or_true]), status]
  rfl

/-- The engine never moves the reset input. -/
theorem engineTurn_keeps_inReset {s t : State} (h : engineTurn s = .next t) : t.inReset = s.inReset := by
  obtain rests | ⟨w, -, -, ⟨-, -, fails⟩ | ⟨i, -, runs⟩⟩ := engineTurn_cases s
  · cases rests.symm.trans h
    rfl
  · cases fails.symm.trans h
    rfl
  · obtain ⟨e, rfl⟩ | ⟨w, hw, rfl⟩ := exec_next_cases (runs.symm.trans h)
    · rfl
    · obtain ⟨inReset, -⟩ := hw.host_frame
      exact inReset

/-- The engine's turn completes a held command, out of reset, and the block stays out of reset. -/
theorem step_engine_completes {s : State} {w : Word} {rest : List Turn} (hr : s.inReset = false)
    (held : s.seq = .busy w) (hs : s.schedule = .engine :: rest) :
    ∃ t, step s = .next t ∧ t.seq = .idle ∧ t.done = true ∧ t.schedule = rest ∧ t.inReset = false := by
  obtain ⟨t, ht, idle, done, schedule⟩ := completeWord_completes w { s with schedule := rest }
  have turn := (engineTurn_busy (s := { s with schedule := rest }) hr held).trans ht
  exact ⟨t, (step_engine hs).trans turn, idle, done, schedule, (engineTurn_keeps_inReset turn).trans hr⟩

/-- A run of the machine goes on from where its first step ends. -/
theorem run_step {s u : State} (h : step s = .next u) (k : Nat) : core.run (k + 1) s = core.run k u :=
  run_succ (M := core) h k

/-- A run whose last turn is a `STATUS` read answers `BUSY` and `DONE` as they are there. -/
theorem run_rdTurn_status {s : State} (hr : s.inReset = false) (hs : s.schedule = [rdTurn .status]) :
    ∃ t v, core.run 1 s = .next t ∧ t.reply = some (.data v) ∧ v.getLsbD 0 = s.busy ∧ v.getLsbD 1 = s.done :=
  ⟨_, _, run_step (step_rdTurn_status hr hs) 0, rfl, getLsbD_statusWord s 0, getLsbD_statusWord s 1⟩

/-! ## The statements -/

/-- Settles O3: under reset the engine's turn is no change, and the level is all that a release writes. -/
theorem engineRestsUntilResetIsReleased : Obligations.EngineRestsUntilResetIsReleased :=
  ⟨fun s rest hr hs => ⟨_, (step_engine hs).trans (engineTurn_inReset (s := { s with schedule := rest }) hr), rfl, rfl⟩,
    fun _ _ hs => ⟨_, step_resetLine hs, rfl, rfl⟩⟩

/-- Settles O4: by the turn the step takes; a placed word is held, out of reset, with the engine's turn next. -/
theorem stepRunsTheDecodedCommand : Obligations.StepRunsTheDecodedCommand := by
  refine ⟨fun s w i hr hs hd => ⟨fun hnil => (step_nil hnil).trans (engineTurn_legal hr hs hd), fun rest hrest => ?_⟩,
    fun s nbits w i h => ?_, fun s a rest => step_access⟩
  · exact (step_engine hrest).trans (engineTurn_legal (s := { s with schedule := rest }) hr hs hd)
  · exact (step_engine (s := s.withFetchWord nbits w) rfl).trans
      (engineTurn_legal (s := { accept (tableWord nbits w) s with inReset := false }) rfl rfl
        (decode_of_decodeTableWord h))

/-- Settles O58: a latency is that of the word held and three lengths, and for three commands of less. -/
theorem latencySeesOnlyTheLengths : Obligations.LatencySeesOnlyTheLengths := by
  refine ⟨fun s => ?_, fun s s' hseq hkey htext hdig => ?_, fun s s' w w' hs hs' hd hd' => ?_,
    fun s s' w w' hs hs' hd hd' hkey => ?_, fun s s' w w' hs hs' hd hd' htext => ?_⟩
  · obtain ⟨idle, none⟩ | ⟨w, held, latency⟩ := latency_cases s
    · rw [idle, none]
      exact ⟨⟨fun _ => rfl, fun _ => rfl⟩, nofun⟩
    · rw [held, latency]
      refine ⟨⟨nofun, nofun⟩, ?_⟩
      rintro _ ⟨⟩
      exact Nat.le_add_left 1 _
  · obtain ⟨idle, none⟩ | ⟨w, held, latency⟩ := latency_cases s
    · obtain ⟨-, none'⟩ | ⟨w, held', -⟩ := latency_cases s'
      · rw [none, none']
      · cases (hseq.symm.trans idle).symm.trans held'
    · rw [latency, latency_busy (hseq.symm.trans held), hkey, htext, hdig]
  · obtain ⟨single, -⟩ := commandLatency_narrowed w s.keylen s.textlen s.diglen
    obtain ⟨single', -⟩ := commandLatency_narrowed w' s'.keylen s'.textlen s'.diglen
    rw [latency_busy hs, latency_busy hs', single hd, single' hd']
  · obtain ⟨-, ofKeylen, -⟩ := commandLatency_narrowed w s.keylen s.textlen s.diglen
    obtain ⟨-, ofKeylen', -⟩ := commandLatency_narrowed w' s'.keylen s'.textlen s'.diglen
    rw [latency_busy hs, latency_busy hs', ofKeylen hd, ofKeylen' hd', hkey]
  · obtain ⟨-, -, ofTextlen⟩ := commandLatency_narrowed w s.keylen s.textlen s.diglen
    obtain ⟨-, -, ofTextlen'⟩ := commandLatency_narrowed w' s'.keylen s'.textlen s'.diglen
    rw [latency_busy hs, latency_busy hs', ofTextlen hd, ofTextlen' hd', htext]

/-- Settles O59: the write makes the block busy; the read then sees `STATUS` as the write or the completion left it. -/
theorem busyIsSeenUntilCompletion : Obligations.BusyIsSeenUntilCompletion := by
  intro s w hr idle _
  constructor
  · obtain ⟨u, write, held, notDone, released, schedule⟩ := step_wrTurn_cmd hr idle w [rdTurn .status]
    obtain ⟨t, v, read, reply, busyBit, doneBit⟩ := run_rdTurn_status released schedule
    exact ⟨t, v, (run_step write 1).trans read, reply, busyBit.trans (busy_of_seq held),
      doneBit.trans notDone⟩
  · obtain ⟨u, write, held, -, released, schedule⟩ := step_wrTurn_cmd hr idle w [.engine, rdTurn .status]
    obtain ⟨u', completes, idle', done, schedule', released'⟩ := step_engine_completes released held schedule
    obtain ⟨t, v, read, reply, busyBit, doneBit⟩ := run_rdTurn_status released' schedule'
    have afterWrite := (run_step completes 1).trans read
    exact ⟨t, v, (run_step write 2).trans afterWrite, reply,
      busyBit.trans ((busy_eq_false_iff u').mpr idle'), doneBit.trans done⟩

end Sys2Proof.Machine
end
